-- ==== Sys2Proof/Word.lean ====
section
/-! DEFINITION. The word types of VP8R. -/

namespace Sys2Proof

/-- A pixel, or any other byte of a plane or a border array (R60). -/
abbrev Byte := BitVec 8

/-- An entry of the coefficient store: an `i32` (R9, R35). -/
abbrev Coef := BitVec 32

/-- What a host reads at one index of an address space: 32 bits (R62). -/
abbrev HostWord := BitVec 32

/-- A command word: 64 bits, bit 0 the least significant (R11, R80). -/
abbrev CmdWord := BitVec 64

end Sys2Proof
end

