-- ==== Sys2Proof/Config.lean ====
section
/-! DEFINITION. Identity, fixed parameters and named parameters of VP8R (spec/00_scope.md R1, R9, R10). -/

namespace Sys2Proof

/-- The two values of the parameter `HEV_RULE` (R10, R233). -/
inductive HevRule where
  | doc
  | rfc
  deriving DecidableEq, Repr

/-- The named parameters a model takes as arguments (R10): what one VP8R is built with. A machine holds them in its state
(`State.params`), where no command and no reset changes them (entry 10). -/
structure Config where
  /-- `HEV_RULE`: the keyframe high-edge-variance threshold (R233). -/
  hevRule : HevRule
  /-- `DC_QUANT[128]`, signed 16-bit entries (R10, R114). -/
  dcQuant : Vector (BitVec 16) 128
  /-- `AC_QUANT[128]`, signed 16-bit entries (R10, R114). -/
  acQuant : Vector (BitVec 16) 128
  deriving DecidableEq, Repr

/-- `MAX_DIM` (R9): the largest width or height of a frame. -/
def Config.maxDim : Nat := 16383

/-- `MAX_SEGMENTS` (R9). -/
def Config.maxSegments : Nat := 4

/-- The part string (R1). -/
def Config.partString : String := "vp8r-v1"

/-- `CMD_QUEUE_DEPTH` is OPEN (R10, P1): nothing constrains it and no rule depends on it.
DESIGN CHOICE, safe (entry 1): the command port's queue of the model is not bounded by it. -/
opaque Config.cmdQueueDepth : Nat

/-- The free value of a quantizer factor that fits no `i16`, which only tables other than those of R114 give: the spec states no result
(R30, R111). A function of the exact integer. DESIGN CHOICE, safe (entry 13). -/
opaque Config.unstatedFactor : Int → BitVec 16

/-- The free value of a quotient with a negative dividend, which only a negative entry of `AC_QUANT` gives: division "appears only with
`a ≥ 0`" (R13, R111). A function of the dividend. DESIGN CHOICE, safe (entry 13). -/
opaque Config.unstatedQuotient : Int → Int

end Sys2Proof
end

