-- ==== Sys2Proof/Syntax.lean ====
section
/-! DEFINITION. The commands of VP8R (spec/30_encoding.md R82 to R84), one constructor per row of the opcode table. -/

namespace Sys2Proof

/-- The 16×16 luma modes (R32, R132): `B` means each 4×4 subblock has its own mode. -/
inductive LumaMode where
  | dc | v | h | tm | b
  deriving DecidableEq, Repr

/-- The 8×8 chroma modes (R32, R132). -/
inductive ChromaMode where
  | dc | v | h | tm
  deriving DecidableEq, Repr

/-- The ten 4×4 modes in the source's listing order (R34, R134). -/
inductive SubMode where
  | dc | tm | ve | he | ld | rd | vr | vl | hd | hu
  deriving DecidableEq, Repr

/-- The six quantizer factors of a segment, the values of `FSEL` (R30, R83). -/
inductive Factor where
  | ydc | yac | y2dc | y2ac | uvdc | uvac
  deriving DecidableEq, Repr

/-- A command with its fields (R82, R83). Signed fields are the two's complement bits of the field. -/
inductive Instr where
  | nop
  | cfgFrame (w h : BitVec 14)
  | cfgFilter (type : Bool) (level : BitVec 6) (sharp : BitVec 3)
  | cfgSegctl (segEn : Bool) (mdelta : BitVec 7)
  | cfgSeg (seg : BitVec 2) (dv : Bool) (qlvl : BitVec 8) (lflvl : BitVec 7)
  | cfgSegq (seg : BitVec 2) (fsel : Factor) (qval : BitVec 16)
  | qderive (seg : BitVec 2) (yac : BitVec 7) (dydc dy2dc dy2ac duvdc duvac : BitVec 5)
  | mbBegin (mbx mby : BitVec 10) (lmode : LumaMode) (cmode : ChromaMode) (segid : BitVec 2) (skip : Bool)
  | bpred (half : Bool) (m0 m1 m2 m3 m4 m5 m6 m7 : SubMode)
  | coef (blk : BitVec 5) (zz : BitVec 4) (val : BitVec 16)
  | iwht
  | idct (blk : BitVec 5)
  | predLuma
  | predChroma
  | mbEnd
  | lfMb (mbx mby : BitVec 10)
  | lfFrame
  | reset
  deriving DecidableEq, Repr

end Sys2Proof
end

