-- ==== Sys2Proof/WellFormed.lean ====
section
/-! DEFINITION. The static field ranges of spec/30_encoding.md R83, as a check on commands.
The ranges of `LMODE`, `CMODE`, `M0` to `M7` and `FSEL` are carried by their types; the decoder refuses the codes outside them. -/

namespace Sys2Proof

/-- `W` and `H` are in 1..16383 (R83). -/
def dimensionOk (n : BitVec 14) : Bool := decide (1 ≤ n.toNat)

/-- A 5-bit quantizer delta is in -15..15 (R83). -/
def deltaOk (d : BitVec 5) : Bool := decide (-15 ≤ d.toInt)

/-- A 7-bit signed level (`MDELTA`, `LFLVL`) is in -63..63 (R83). -/
def levelOk (l : BitVec 7) : Bool := decide (-63 ≤ l.toInt)

/-- `QLVL` is in -127..127 (R83). -/
def qlvlOk (q : BitVec 8) : Bool := decide (-127 ≤ q.toInt)

/-- Every field of the command is in its static range (R83). -/
def Instr.wellFormed : Instr → Bool
  | .nop => true
  | .cfgFrame w h => dimensionOk w && dimensionOk h
  | .cfgFilter _ _ _ => true
  | .cfgSegctl _ mdelta => levelOk mdelta
  | .cfgSeg _ _ qlvl lflvl => qlvlOk qlvl && levelOk lflvl
  | .cfgSegq _ _ _ => true
  | .qderive _ _ dydc dy2dc dy2ac duvdc duvac =>
      deltaOk dydc && deltaOk dy2dc && deltaOk dy2ac && deltaOk duvdc && deltaOk duvac
  | .mbBegin _ _ _ _ _ _ => true
  | .bpred _ _ _ _ _ _ _ _ _ => true
  | .coef blk _ _ => decide (blk.toNat ≤ 24)
  | .iwht => true
  | .idct blk => decide (blk.toNat ≤ 23)
  | .predLuma => true
  | .predChroma => true
  | .mbEnd => true
  | .lfMb _ _ => true
  | .lfFrame => true
  | .reset => true

end Sys2Proof
end

