-- ==== Sys2Proof/Decode.lean ====
section
/-! DEFINITION. The decoder and the encoder, both from the tables of spec/30_encoding.md (R80 to R85). -/

namespace Sys2Proof

/-! ### Opcodes and formats -/

/-- The opcodes of R84. -/
inductive Opcode where
  | nop | cfgFrame | cfgFilter | cfgSegctl | cfgSeg | cfgSegq | qderive
  | mbBegin | bpred | coef | iwht | idct | predLuma | predChroma | mbEnd
  | lfMb | lfFrame | reset
  deriving DecidableEq, Repr

/-- The twelve formats of R82. -/
inductive Format where
  | z | fr | fl | sc | sg | sq | qd | mb | bp | co | bk | lf
  deriving DecidableEq, Repr

/-- Why a word is not a command: the three decode faults of R81, in their order of priority. -/
inductive DecodeError where
  | illegalOpcode
  | reservedBits
  | badField
  deriving DecidableEq, Repr

/-- The opcode byte of each command (R84). -/
def Opcode.byte : Opcode → Nat
  | .nop => 0x00
  | .cfgFrame => 0x01
  | .cfgFilter => 0x02
  | .cfgSegctl => 0x03
  | .cfgSeg => 0x04
  | .cfgSegq => 0x05
  | .qderive => 0x06
  | .mbBegin => 0x10
  | .bpred => 0x11
  | .coef => 0x12
  | .iwht => 0x13
  | .idct => 0x14
  | .predLuma => 0x15
  | .predChroma => 0x16
  | .mbEnd => 0x17
  | .lfMb => 0x20
  | .lfFrame => 0x21
  | .reset => 0xFF

/-- The command an opcode byte selects; every other byte is illegal (R84, R85). -/
def opcodeOf : Nat → Option Opcode
  | 0x00 => some .nop
  | 0x01 => some .cfgFrame
  | 0x02 => some .cfgFilter
  | 0x03 => some .cfgSegctl
  | 0x04 => some .cfgSeg
  | 0x05 => some .cfgSegq
  | 0x06 => some .qderive
  | 0x10 => some .mbBegin
  | 0x11 => some .bpred
  | 0x12 => some .coef
  | 0x13 => some .iwht
  | 0x14 => some .idct
  | 0x15 => some .predLuma
  | 0x16 => some .predChroma
  | 0x17 => some .mbEnd
  | 0x20 => some .lfMb
  | 0x21 => some .lfFrame
  | 0xFF => some .reset
  | _ => none

/-- The format of each opcode (R84). -/
def Opcode.format : Opcode → Format
  | .nop | .iwht | .predLuma | .predChroma | .mbEnd | .lfFrame | .reset => .z
  | .cfgFrame => .fr
  | .cfgFilter => .fl
  | .cfgSegctl => .sc
  | .cfgSeg => .sg
  | .cfgSegq => .sq
  | .qderive => .qd
  | .mbBegin => .mb
  | .bpred => .bp
  | .coef => .co
  | .idct => .bk
  | .lfMb => .lf

/-- The reserved ranges of each format, high bit first (R82). -/
def Format.reserved : Format → List (Nat × Nat)
  | .z => [(55, 0)]
  | .fr => [(55, 46), (31, 14)]
  | .fl => [(55, 33), (31, 14), (7, 3)]
  | .sc => [(55, 33), (31, 7)]
  | .sg => [(55, 50), (47, 41), (39, 16), (7, 7)]
  | .sq => [(55, 50), (47, 43), (39, 16)]
  | .qd => [(55, 50), (47, 47), (39, 25)]
  | .mb => [(55, 42), (31, 30), (19, 19), (15, 14), (11, 10), (7, 1)]
  | .bp => [(55, 49), (47, 32)]
  | .co => [(55, 53), (47, 44), (39, 16)]
  | .bk => [(55, 53), (47, 0)]
  | .lf => [(55, 42), (31, 30), (19, 0)]

/-! ### Fields -/

/-- `w[hi:lo]`, read as an unsigned number (R11). -/
def field (w : CmdWord) (hi lo : Nat) : Nat := w.toNat / 2 ^ lo % 2 ^ (hi + 1 - lo)

/-- `w[lo+n-1:lo]` as an `n`-bit field. -/
def bits (w : CmdWord) (lo n : Nat) : BitVec n := BitVec.ofNat n (w.toNat / 2 ^ lo)

/-- `w[n]` as a truth value. -/
def flag (w : CmdWord) (n : Nat) : Bool := decide (field w n n = 1)

/-- Every reserved bit of the format is 0 (R80, R82). -/
def reservedClear (f : Format) (w : CmdWord) : Bool := f.reserved.all fun r => decide (field w r.1 r.2 = 0)

/-! ### Mode and factor codes -/

/-- Codes of `LMODE` (R32). -/
def LumaMode.code : LumaMode → Nat
  | .dc => 0
  | .v => 1
  | .h => 2
  | .tm => 3
  | .b => 4

/-- Codes of `CMODE` (R32). -/
def ChromaMode.code : ChromaMode → Nat
  | .dc => 0
  | .v => 1
  | .h => 2
  | .tm => 3

/-- Codes of the 4×4 modes (R34). -/
def SubMode.code : SubMode → Nat
  | .dc => 0
  | .tm => 1
  | .ve => 2
  | .he => 3
  | .ld => 4
  | .rd => 5
  | .vr => 6
  | .vl => 7
  | .hd => 8
  | .hu => 9

/-- Codes of `FSEL` (R30). -/
def Factor.code : Factor → Nat
  | .ydc => 0
  | .yac => 1
  | .y2dc => 2
  | .y2ac => 3
  | .uvdc => 4
  | .uvac => 5

/-- `LMODE` is legal in 0..4 (R83). -/
def lumaModeOf : Nat → Option LumaMode
  | 0 => some .dc
  | 1 => some .v
  | 2 => some .h
  | 3 => some .tm
  | 4 => some .b
  | _ => none

/-- Every 2-bit `CMODE` is legal (R83, R132). -/
def chromaModeOf : Nat → Option ChromaMode
  | 0 => some .dc
  | 1 => some .v
  | 2 => some .h
  | 3 => some .tm
  | _ => none

/-- `M0` to `M7` are legal in 0..9 (R83). -/
def subModeOf : Nat → Option SubMode
  | 0 => some .dc
  | 1 => some .tm
  | 2 => some .ve
  | 3 => some .he
  | 4 => some .ld
  | 5 => some .rd
  | 6 => some .vr
  | 7 => some .vl
  | 8 => some .hd
  | 9 => some .hu
  | _ => none

/-- `FSEL` is legal in 0..5 (R83). -/
def factorOf : Nat → Option Factor
  | 0 => some .ydc
  | 1 => some .yac
  | 2 => some .y2dc
  | 3 => some .y2ac
  | 4 => some .uvdc
  | 5 => some .uvac
  | _ => none

/-! ### The decoder -/

/-- The mode `Mk` of a BPRED word, in `w[4k+3:4k]` (R82). -/
def subModeField (w : CmdWord) (k : Nat) : Option SubMode := subModeOf (field w (4 * k + 3) (4 * k))

/-- The fields of a word of each opcode (R82, R83); `none` where a coded field has no meaning. -/
def fieldsOf (op : Opcode) (w : CmdWord) : Option Instr :=
  match op with
  | .nop => some .nop
  | .cfgFrame => some (.cfgFrame (bits w 32 14) (bits w 0 14))
  | .cfgFilter => some (.cfgFilter (flag w 32) (bits w 8 6) (bits w 0 3))
  | .cfgSegctl => some (.cfgSegctl (flag w 32) (bits w 0 7))
  | .cfgSeg => some (.cfgSeg (bits w 48 2) (flag w 40) (bits w 8 8) (bits w 0 7))
  | .cfgSegq => (factorOf (field w 42 40)).map fun f => .cfgSegq (bits w 48 2) f (bits w 0 16)
  | .qderive => some (.qderive (bits w 48 2) (bits w 40 7) (bits w 20 5) (bits w 15 5) (bits w 10 5) (bits w 5 5) (bits w 0 5))
  | .mbBegin =>
      match lumaModeOf (field w 18 16), chromaModeOf (field w 13 12) with
      | some l, some c => some (.mbBegin (bits w 32 10) (bits w 20 10) l c (bits w 8 2) (flag w 0))
      | _, _ => none
  | .bpred =>
      match subModeField w 0, subModeField w 1, subModeField w 2, subModeField w 3,
        subModeField w 4, subModeField w 5, subModeField w 6, subModeField w 7 with
      | some m0, some m1, some m2, some m3, some m4, some m5, some m6, some m7 =>
          some (.bpred (flag w 48) m0 m1 m2 m3 m4 m5 m6 m7)
      | _, _, _, _, _, _, _, _ => none
  | .coef => some (.coef (bits w 48 5) (bits w 40 4) (bits w 0 16))
  | .iwht => some .iwht
  | .idct => some (.idct (bits w 48 5))
  | .predLuma => some .predLuma
  | .predChroma => some .predChroma
  | .mbEnd => some .mbEnd
  | .lfMb => some (.lfMb (bits w 32 10) (bits w 20 10))
  | .lfFrame => some .lfFrame
  | .reset => some .reset

/-- The decoder (R81): the opcode, then the reserved bits, then the static ranges of the fields. -/
def decode (w : CmdWord) : Except DecodeError Instr :=
  match opcodeOf (field w 63 56) with
  | none => .error .illegalOpcode
  | some op =>
      if reservedClear op.format w then
        match fieldsOf op w with
        | none => .error .badField
        | some i => if i.wellFormed then .ok i else .error .badField
      else .error .reservedBits

/-- Where a bus carries a command word as bytes, byte 0 holds bits 7..0 (R64). -/
def wordOfBytes : List Byte → Nat
  | [] => 0
  | b :: bs => b.toNat + 256 * wordOfBytes bs

/-- The decoder on bytes: the first eight are the command word (R64, R80), the rest is given back;
fewer than eight bytes are no command word (R61: "the port has no partial-word form"). -/
def decodeBytes (bs : List Byte) : Option (Except DecodeError Instr × List Byte) :=
  if 8 ≤ bs.length then some (decode (BitVec.ofNat 64 (wordOfBytes (bs.take 8))), bs.drop 8) else none

/-- What the decoder reads from an opcode-table word of `nbits` bits, the bits above them zero. -/
def decodeTableWord (nbits w : Nat) : Option Instr :=
  match decode (BitVec.ofNat 64 (w % 2 ^ nbits)) with
  | .ok i => some i
  | .error _ => none

/-! ### The encoder -/

/-- The word with this opcode byte and each value placed at its field's low bit (R82). -/
def place (op : Opcode) (fields : List (Nat × Nat)) : CmdWord :=
  BitVec.ofNat 64 (op.byte * 2 ^ 56 + (fields.map fun f => f.2 * 2 ^ f.1).sum)

/-- The opcode of a command (R84). -/
def Instr.opcode : Instr → Opcode
  | .nop => .nop
  | .cfgFrame _ _ => .cfgFrame
  | .cfgFilter _ _ _ => .cfgFilter
  | .cfgSegctl _ _ => .cfgSegctl
  | .cfgSeg _ _ _ _ => .cfgSeg
  | .cfgSegq _ _ _ => .cfgSegq
  | .qderive _ _ _ _ _ _ _ => .qderive
  | .mbBegin _ _ _ _ _ _ => .mbBegin
  | .bpred _ _ _ _ _ _ _ _ _ => .bpred
  | .coef _ _ _ => .coef
  | .iwht => .iwht
  | .idct _ => .idct
  | .predLuma => .predLuma
  | .predChroma => .predChroma
  | .mbEnd => .mbEnd
  | .lfMb _ _ => .lfMb
  | .lfFrame => .lfFrame
  | .reset => .reset

/-- The fields of a command, each with its low bit (R82). -/
def Instr.fields : Instr → List (Nat × Nat)
  | .cfgFrame w h => [(32, w.toNat), (0, h.toNat)]
  | .cfgFilter type level sharp => [(32, type.toNat), (8, level.toNat), (0, sharp.toNat)]
  | .cfgSegctl segEn mdelta => [(32, segEn.toNat), (0, mdelta.toNat)]
  | .cfgSeg seg dv qlvl lflvl => [(48, seg.toNat), (40, dv.toNat), (8, qlvl.toNat), (0, lflvl.toNat)]
  | .cfgSegq seg fsel qval => [(48, seg.toNat), (40, fsel.code), (0, qval.toNat)]
  | .qderive seg yac dydc dy2dc dy2ac duvdc duvac =>
      [(48, seg.toNat), (40, yac.toNat), (20, dydc.toNat), (15, dy2dc.toNat), (10, dy2ac.toNat), (5, duvdc.toNat), (0, duvac.toNat)]
  | .mbBegin mbx mby lmode cmode segid skip =>
      [(32, mbx.toNat), (20, mby.toNat), (16, lmode.code), (12, cmode.code), (8, segid.toNat), (0, skip.toNat)]
  | .bpred half m0 m1 m2 m3 m4 m5 m6 m7 =>
      [(48, half.toNat), (0, m0.code), (4, m1.code), (8, m2.code), (12, m3.code), (16, m4.code), (20, m5.code), (24, m6.code), (28, m7.code)]
  | .coef blk zz val => [(48, blk.toNat), (40, zz.toNat), (0, val.toNat)]
  | .idct blk => [(48, blk.toNat)]
  | .lfMb mbx mby => [(32, mbx.toNat), (20, mby.toNat)]
  | .nop | .iwht | .predLuma | .predChroma | .mbEnd | .lfFrame | .reset => []

/-- The command word of a command (R82, R84). -/
def encode (i : Instr) : CmdWord := place i.opcode i.fields

end Sys2Proof
end

