-- ==== Sys2Proof/Machine/Params.lean ====
section
/-! DEFINITION. The values the spec gives the named parameters: the two quantizer tables and `HEV_RULE` (spec/00_scope.md R10,
spec/40_config.md R114). -/

namespace Sys2Proof

/-- The entries of `DC_QUANT`, sixteen a line (R114). -/
def Config.dcQuantEntries : List (BitVec 16) :=
  [4, 5, 6, 7, 8, 9, 10, 10, 11, 12, 13, 14, 15, 16, 17, 17] ++
  [18, 19, 20, 20, 21, 21, 22, 22, 23, 23, 24, 25, 25, 26, 27, 28] ++
  [29, 30, 31, 32, 33, 34, 35, 36, 37, 37, 38, 39, 40, 41, 42, 43] ++
  [44, 45, 46, 46, 47, 48, 49, 50, 51, 52, 53, 54, 55, 56, 57, 58] ++
  [59, 60, 61, 62, 63, 64, 65, 66, 67, 68, 69, 70, 71, 72, 73, 74] ++
  [75, 76, 76, 77, 78, 79, 80, 81, 82, 83, 84, 85, 86, 87, 88, 89] ++
  [91, 93, 95, 96, 98, 100, 101, 102, 104, 106, 108, 110, 112, 114, 116, 118] ++
  [122, 124, 126, 128, 130, 132, 134, 136, 138, 140, 143, 145, 148, 151, 154, 157]

/-- The entries of `AC_QUANT`, sixteen a line (R114). -/
def Config.acQuantEntries : List (BitVec 16) :=
  [4, 5, 6, 7, 8, 9, 10, 11, 12, 13, 14, 15, 16, 17, 18, 19] ++
  [20, 21, 22, 23, 24, 25, 26, 27, 28, 29, 30, 31, 32, 33, 34, 35] ++
  [36, 37, 38, 39, 40, 41, 42, 43, 44, 45, 46, 47, 48, 49, 50, 51] ++
  [52, 53, 54, 55, 56, 57, 58, 60, 62, 64, 66, 68, 70, 72, 74, 76] ++
  [78, 80, 82, 84, 86, 88, 90, 92, 94, 96, 98, 100, 102, 104, 106, 108] ++
  [110, 112, 114, 116, 119, 122, 125, 128, 131, 134, 137, 140, 143, 146, 149, 152] ++
  [155, 158, 161, 164, 167, 170, 173, 177, 181, 185, 189, 193, 197, 201, 205, 209] ++
  [213, 217, 221, 225, 229, 234, 239, 245, 249, 254, 259, 264, 269, 274, 279, 284]

/-- `DC_QUANT` at its default (R114). -/
def Config.dcQuantTable : Vector (BitVec 16) 128 := ⟨⟨Config.dcQuantEntries⟩, rfl⟩

/-- `AC_QUANT` at its default (R114). -/
def Config.acQuantTable : Vector (BitVec 16) 128 := ⟨⟨Config.acQuantEntries⟩, rfl⟩

/-- The parameters at the values the spec gives each (R10): `HEV_RULE = DOC` and the tables of R114. -/
def Config.vp8r : Config where
  hevRule := .doc
  dcQuant := Config.dcQuantTable
  acQuant := Config.acQuantTable

end Sys2Proof
end

