-- ==== Sys2Proof/Machine/State.lean ====
section
/-! DEFINITION. The state of VP8R as plain data (spec/10_state.md), its reset value, and the reasons a run can stop. -/

namespace Sys2Proof.Machine

/-! ### Registers -/

/-- The fault codes of `STATUS.FCODE` (R280). -/
inductive FaultCode where
  | none
  | illegalOpcode
  | reservedBits
  | badField
  | noFrame
  | noMb
  | mbOpen
  | order
  | mode
  | skipped
  | lfNotReady
  | frameDone
  deriving DecidableEq, Repr

/-- `STATUS` but for `PHASE`, which is derived (R22, R23, R25). -/
structure Status where
  fault : Bool
  frameValid : Bool
  mbOpen : Bool
  fcode : FaultCode
  deriving DecidableEq, Repr

/-- `FRAME` (R22, R26). -/
structure FrameReg where
  w : BitVec 14
  h : BitVec 14
  deriving DecidableEq, Repr

/-- `FILTER` (R22, R27); `simple` is `TYPE`, 1 for the simple filter. -/
structure FilterReg where
  simple : Bool
  level : BitVec 6
  sharp : BitVec 3
  deriving DecidableEq, Repr

/-- `SEGCTL` (R22, R28); `MDELTA0` is held sign-extended to 8 bits. -/
structure SegCtl where
  segEn : Bool
  mdelta0 : BitVec 8
  deriving DecidableEq, Repr

/-- `SEG[s]` (R22, R29). -/
structure SegReg where
  dv : Bool
  qlvl : BitVec 8
  lflvl : BitVec 7
  deriving DecidableEq, Repr

/-- `SEGQ[s]`: the six quantizer factors of a segment (R30). -/
structure QuantRow where
  ydc : BitVec 16
  yac : BitVec 16
  y2dc : BitVec 16
  y2ac : BitVec 16
  uvdc : BitVec 16
  uvac : BitVec 16
  deriving DecidableEq, Repr

/-- `CURMB`: the record of the macroblock being decoded (R32). -/
structure CurMb where
  mbx : BitVec 10
  mby : BitVec 10
  lmode : LumaMode
  cmode : ChromaMode
  segid : BitVec 2
  skip : Bool
  deriving DecidableEq, Repr

/-- `MBFLAGS` (R33). -/
structure MbFlags where
  whtDone : Bool
  lumaDone : Bool
  chromaDone : Bool
  deriving DecidableEq, Repr

/-- An entry of `MBINFO` (R38). -/
structure MbInfo where
  lmode : LumaMode
  segid : BitVec 2
  skip : Bool
  deriving DecidableEq, Repr

/-- A coefficient block in raster order (R16, R35). -/
abbrev Block := Vector Coef 16

/-! ### Memory -/

/-- The three planes (R37). -/
inductive Plane where
  | y | u | v
  deriving DecidableEq, Repr

/-- The address spaces whose unit is a byte: the planes and the border arrays (R60). -/
inductive ByteSpace where
  | y | u | v | topY | leftY | topU | topV | leftU | leftV
  deriving DecidableEq, Repr

/-- All twelve address spaces (R60). -/
inductive Space where
  | reg
  | byte (b : ByteSpace)
  | coefs
  | mbinfo
  deriving DecidableEq, Repr

/-- The byte spaces, each a list of (index, byte) in canonical form: indices strictly rising, and no entry equal to
what an unlisted index reads as (`unlistedByte` in Machine/Ops.lean). -/
structure Memory where
  y : List Host.Cell
  u : List Host.Cell
  v : List Host.Cell
  topY : List Host.Cell
  leftY : List Host.Cell
  topU : List Host.Cell
  topV : List Host.Cell
  leftU : List Host.Cell
  leftV : List Host.Cell
  deriving DecidableEq, Repr

/-! ### The host's side -/

/-- What the host can do to VP8R, each action taken whole and in the order issued (R61, R62, R63, R71), and the external reset input
(R310). DESIGN CHOICE, unsafe (entry 14): the reset input is one of these actions, and waits its turn like them; the spec gives the host
only the two ports (R18) and does not say when the input takes effect with words pending. -/
inductive HostAction where
  /-- A command word written to the command port (R61). -/
  | command (w : CmdWord)
  /-- `HostRead(space, i)` (R62). -/
  | read (space : Space) (index : Nat)
  /-- `HostWrite(space, i, v)` (R63). -/
  | write (space : Space) (index : Nat) (value : HostWord)
  /-- The external reset input (R310), taken when every action before it has been taken. DESIGN CHOICE (entry 14). -/
  | reset
  deriving DecidableEq, Repr

/-- What VP8R answers to a host access (R62, R63, R68). -/
inductive HostResponse where
  | data (v : HostWord)
  | written
  | hostErr
  deriving DecidableEq, Repr

/-! ### The state -/

/-- Everything the spec gives VP8R between commands (spec/10_state.md, spec/20_memory.md). -/
structure State where
  /-- The named parameters this VP8R is built with (R10): read by QDERIVE, LF_MB and LF_FRAME, written by nothing, kept by every
  reset. The model's own field. DESIGN CHOICE (entry 10). -/
  params : Config
  /-- `STATUS` (R23). -/
  status : Status
  /-- `FCMD_LO` (R24). -/
  fcmdLo : BitVec 32
  /-- `FCMD_HI` (R24). -/
  fcmdHi : BitVec 32
  /-- `FRAME` (R26). -/
  frame : FrameReg
  /-- `FILTER` (R27). -/
  filter : FilterReg
  /-- `SEGCTL` (R28). -/
  segctl : SegCtl
  /-- `SEG[0..4]` (R29). -/
  seg : Vector SegReg 4
  /-- `SEGQ[0..4][0..6]` (R30). -/
  segq : Vector QuantRow 4
  /-- `MBCUR` (R31). -/
  mbcur : BitVec 21
  /-- `LFCUR` (R31). -/
  lfcur : BitVec 21
  /-- `CURMB` (R32). -/
  curmb : CurMb
  /-- `MBFLAGS` (R33). -/
  mbflags : MbFlags
  /-- `IDCT_DONE`, bit `b` for block `b` (R33). -/
  idctDone : BitVec 24
  /-- `bpred[0..16]`, read as `BPRED_LO` and `BPRED_HI` (R34). -/
  bpred : Vector SubMode 16
  /-- `COEF[0..25][0..16]` (R35). -/
  coef : Vector Block 25
  /-- The planes and the border arrays (R36, R37). -/
  mem : Memory
  /-- `MBINFO` as (index, record), indices strictly rising, no zero record listed (R38). -/
  mbinfo : List (Nat × MbInfo)
  /-- The host's actions not yet taken, oldest first (R61, R71), the reset input among them. DESIGN CHOICE (entries 1, 2, 14). -/
  inbox : List HostAction
  /-- The model's own field: the responses given to the host, oldest first (R62, R63, R68). DESIGN CHOICE (entry 4). -/
  outbox : List HostResponse
  deriving DecidableEq, Repr

/-- `CURMB` with every field 0 (R32). -/
def CurMb.zero : CurMb := ⟨0, 0, .dc, .dc, 0, false⟩

/-- The zero record of `MBINFO` (R38). -/
def MbInfo.zero : MbInfo := ⟨.dc, 0, false⟩

/-- The factor row with every factor 0 (R30). -/
def QuantRow.zero : QuantRow := ⟨0, 0, 0, 0, 0, 0⟩

/-- A coefficient block of zeros (R35). -/
def Block.zero : Block := Vector.replicate 16 0

/-- Byte spaces with nothing listed. -/
def Memory.empty : Memory := ⟨[], [], [], [], [], [], [], [], []⟩

/-- The state after reset (R41, R311) of the VP8R built with parameters `cfg` (R10): every register 0, every space but `REG` and
`COEFS` of length 0. Nothing is pending on the command port and no response has been given (entries 2, 4). -/
def State.resetWith (cfg : Config) : State where
  params := cfg
  status := ⟨false, false, false, .none⟩
  fcmdLo := 0
  fcmdHi := 0
  frame := ⟨0, 0⟩
  filter := ⟨false, 0, 0⟩
  segctl := ⟨false, 0⟩
  seg := Vector.replicate 4 ⟨false, 0, 0⟩
  segq := Vector.replicate 4 QuantRow.zero
  mbcur := 0
  lfcur := 0
  curmb := CurMb.zero
  mbflags := ⟨false, false, false⟩
  idctDone := 0
  bpred := Vector.replicate 16 .dc
  coef := Vector.replicate 25 Block.zero
  mem := Memory.empty
  mbinfo := []
  inbox := []
  outbox := []

/-- The state after reset with the parameters at the values the spec gives them (R10, R41). -/
def State.reset : State := State.resetWith Config.vp8r

/-! ### Stops -/

/-- Why a run of the model stops with a fault. VP8R's own faults are not here: the spec describes their entry (R282), so a
command that raises one has a next state. -/
inductive Fault where
  /-- An index the command's rule computes is at or beyond the length of its space (R60, R69: "A model that finds an
  out-of-range index in a command rule has found an error in this spec"). Raised by PRED_LUMA and PRED_CHROMA where `CURMB`
  names no macroblock of the frame, and by MB_END and LF_MB where the cursor names no entry of `MBINFO`: states that no run
  from reset reaches. Safe (entry 7). -/
  | outOfSpace (space : Space) (index : Nat)
  deriving DecidableEq, Repr

/-- Why an instruction has no meaning in the model. -/
inductive Refusal where
  /-- Raised by `exec` for an instruction not reached yet; no arm uses it now. Safe. -/
  | notModelled (mnemonic : String)
  deriving DecidableEq, Repr

/-- The outcome of a step or of a meaning. -/
abbrev Result := Host.Outcome State Fault Refusal

end Sys2Proof.Machine
end

