-- ==== Sys2Proof/Machine/Arith.lean ====
section
/-! DEFINITION. The arithmetic of spec/00_scope.md R12 to R14: exact integers, narrowed explicitly. -/

namespace Sys2Proof.Machine

/-- `clamp(v, lo, hi)` (R12). -/
def clamp (v lo hi : Int) : Int := if v < lo then lo else if hi < v then hi else v

/-- `clip255(v)`, as the byte it is (R12). -/
def clip255 (v : Int) : Byte := BitVec.ofInt 8 (clamp v 0 255)

/-- `wrap32(v)`: the `i32` congruent to `v` modulo 2^32 (R12). -/
def wrap32 (v : Int) : Coef := BitVec.ofInt 32 v

/-- `v >> n`, the arithmetic shift `floor(v / 2^n)` (R13). -/
def asr (v : Int) (n : Nat) : Int := v / 2 ^ n

/-- `avg2(a, b) = (a + b + 1) >> 1` (R14). -/
def avg2 (a b : Byte) : Byte := BitVec.ofNat 8 ((a.toNat + b.toNat + 1) / 2)

/-- `avg3(a, b, c) = (a + 2*b + c + 2) >> 2` (R14). -/
def avg3 (a b c : Byte) : Byte := BitVec.ofNat 8 ((a.toNat + 2 * b.toNat + c.toNat + 2) / 4)

/-- A pixel as the unsigned integer it is. -/
def px (b : Byte) : Int := (b.toNat : Int)

/-- The absolute difference of two pixels (R237 to R239). -/
def absDiff (a b : Byte) : Nat := (px a - px b).natAbs

end Sys2Proof.Machine
end

