-- ==== Sys2Proof/Machine/Ops.lean ====
section
/-! DEFINITION. The named operations over memory and registers, fault entry (spec/60_exceptions.md R282) and the way out of
the faulted state (R287), and the template every command follows (R283, R284). -/

namespace Sys2Proof.Machine

/-! ### Sparse stores in canonical form -/

/-- What index `i` reads as: the listed value, else `d`. -/
def lookup {α : Type} (d : α) : List (Nat × α) → Nat → α
  | [], _ => d
  | (a, x) :: rest, i => if i = a then x else lookup d rest i

/-- Write `x` at index `i`, keeping the indices rising and never listing `d`. -/
def store {α : Type} [DecidableEq α] (d : α) (i : Nat) (x : α) : List (Nat × α) → List (Nat × α)
  | [] => if x = d then [] else [(i, x)]
  | (a, y) :: rest =>
      if i < a then (if x = d then (a, y) :: rest else (i, x) :: (a, y) :: rest)
      else if i = a then (if x = d then rest else (i, x) :: rest)
      else (a, y) :: store d i x rest

/-- The canonical form: indices strictly rising, and no entry equal to what an unlisted index reads as. -/
abbrev Canonical {α : Type} (d : α) (l : List (Nat × α)) : Prop :=
  l.Pairwise (fun p q => p.1 < q.1) ∧ ∀ p ∈ l, p.2 ≠ d

/-! ### The byte spaces -/

/-- What an unlisted index of a byte space reads as: the contents CFG_FRAME gives every byte, 0 in the planes (R37, R103),
127 in the top borders and 129 in the left borders (R36, R103). DEDUCED, safe (entry 6). -/
def unlistedByte : ByteSpace → Byte
  | .y | .u | .v => 0
  | .topY | .topU | .topV => 127
  | .leftY | .leftU | .leftV => 129

/-- The cells of one byte space. -/
def Memory.cells (m : Memory) : ByteSpace → List Host.Cell
  | .y => m.y
  | .u => m.u
  | .v => m.v
  | .topY => m.topY
  | .leftY => m.leftY
  | .topU => m.topU
  | .topV => m.topV
  | .leftU => m.leftU
  | .leftV => m.leftV

/-- The memory with the cells of one byte space replaced. -/
def Memory.withCells (m : Memory) (sp : ByteSpace) (l : List Host.Cell) : Memory :=
  match sp with
  | .y => { m with y := l }
  | .u => { m with u := l }
  | .v => { m with v := l }
  | .topY => { m with topY := l }
  | .leftY => { m with leftY := l }
  | .topU => { m with topU := l }
  | .topV => { m with topV := l }
  | .leftU => { m with leftU := l }
  | .leftV => { m with leftV := l }

/-- Every byte space is in canonical form. -/
abbrev Memory.wf (m : Memory) : Prop :=
  Canonical (unlistedByte .y) m.y ∧ Canonical (unlistedByte .u) m.u ∧ Canonical (unlistedByte .v) m.v ∧
  Canonical (unlistedByte .topY) m.topY ∧ Canonical (unlistedByte .leftY) m.leftY ∧
  Canonical (unlistedByte .topU) m.topU ∧ Canonical (unlistedByte .topV) m.topV ∧
  Canonical (unlistedByte .leftU) m.leftU ∧ Canonical (unlistedByte .leftV) m.leftV

/-- `MemRead(S, i, 1)` (R15). -/
def Memory.read (m : Memory) (sp : ByteSpace) (i : Nat) : Byte := lookup (unlistedByte sp) (m.cells sp) i

/-- `MemWrite(S, i, 1, v)` (R15). -/
def Memory.write (m : Memory) (sp : ByteSpace) (i : Nat) (v : Byte) : Memory :=
  m.withCells sp (store (unlistedByte sp) i v (m.cells sp))

/-- A run of writes into one space, in the order listed. -/
def Memory.writeAll (m : Memory) (sp : ByteSpace) (l : List Host.Cell) : Memory :=
  l.foldl (fun m c => m.write sp c.1 c.2) m

/-- Every byte of a space set to what it reads as unlisted: the seed of R36 and R136. -/
def Memory.reseed (m : Memory) (sp : ByteSpace) : Memory := m.withCells sp []

/-- The byte space of a plane. -/
def Plane.space : Plane → ByteSpace
  | .y => .y
  | .u => .u
  | .v => .v

/-! ### Derived quantities of the frame (R26) -/

/-- `FRAME.W` as a number. -/
def State.width (s : State) : Nat := s.frame.w.toNat

/-- `FRAME.H` as a number. -/
def State.height (s : State) : Nat := s.frame.h.toNat

/-- `MBW = (W + 15) >> 4` (R26). -/
def State.mbw (s : State) : Nat := (s.width + 15) / 16

/-- `MBH = (H + 15) >> 4` (R26). -/
def State.mbh (s : State) : Nat := (s.height + 15) / 16

/-- `TOTAL_MB = MBW * MBH` (R26). -/
def State.totalMb (s : State) : Nat := s.mbw * s.mbh

/-- `CW = (W + 1) >> 1` (R26). -/
def State.cw (s : State) : Nat := (s.width + 1) / 2

/-- `CH = (H + 1) >> 1` (R26). -/
def State.ch (s : State) : Nat := (s.height + 1) / 2

/-- The width of a plane, which is its stride (R37, R67). -/
def State.planeWidth (s : State) : Plane → Nat
  | .y => s.width
  | .u => s.cw
  | .v => s.cw

/-- The height of a plane (R37). -/
def State.planeHeight (s : State) : Plane → Nat
  | .y => s.height
  | .u => s.ch
  | .v => s.ch

/-- The plane index of pixel `(x, y)` (R67). -/
def State.pixelIndex (s : State) (p : Plane) (x y : Nat) : Nat := y * s.planeWidth p + x

/-- The lengths of the byte spaces of the current frame (R60). -/
def State.byteLength (s : State) : ByteSpace → Nat
  | .y => s.width * s.height
  | .u => s.cw * s.ch
  | .v => s.cw * s.ch
  | .topY => s.width + 20
  | .leftY => 17
  | .topU => 8 * s.mbw
  | .topV => 8 * s.mbw
  | .leftU => 9
  | .leftV => 9

/-- The id of each address space (R60). -/
def Space.id : Space → Nat
  | .reg => 0
  | .byte .y => 1
  | .byte .u => 2
  | .byte .v => 3
  | .coefs => 4
  | .byte .topY => 5
  | .byte .leftY => 6
  | .byte .topU => 7
  | .byte .topV => 8
  | .byte .leftU => 9
  | .byte .leftV => 10
  | .mbinfo => 11

/-- The address space with an id; R60 gives twelve. -/
def spaceOfId : Nat → Option Space
  | 0 => some .reg
  | 1 => some (.byte .y)
  | 2 => some (.byte .u)
  | 3 => some (.byte .v)
  | 4 => some .coefs
  | 5 => some (.byte .topY)
  | 6 => some (.byte .leftY)
  | 7 => some (.byte .topU)
  | 8 => some (.byte .topV)
  | 9 => some (.byte .leftU)
  | 10 => some (.byte .leftV)
  | 11 => some .mbinfo
  | _ => none

/-- The length of an address space: while `FRAME_VALID = 0` every space but `REG` and `COEFS` has length 0 (R60).
Register numbers end at 0x36 (R22); the unassigned ones below it are refused by the register port (R68). -/
def State.spaceLength (s : State) : Space → Nat
  | .reg => 0x37
  | .coefs => 400
  | .byte sp => if s.status.frameValid then s.byteLength sp else 0
  | .mbinfo => if s.status.frameValid then s.totalMb else 0

/-! ### Register and store accessors -/

/-- `COEF[b]`. -/
def State.coefBlock (s : State) (b : Nat) : Block := s.coef.getD b Block.zero

/-- `COEF[b][k]`. -/
def State.coefAt (s : State) (b k : Nat) : Coef := (s.coefBlock b).getD k 0

/-- `COEF[b] <- blk`. -/
def State.setCoefBlock (s : State) (b : Nat) (blk : Block) : State := { s with coef := s.coef.setIfInBounds b blk }

/-- `COEF[b][k] <- v`. -/
def State.setCoef (s : State) (b k : Nat) (v : Coef) : State :=
  s.setCoefBlock b ((s.coefBlock b).setIfInBounds k v)

/-- The registers of segment `n` (`SEG[n]`). -/
def State.segReg (s : State) (n : BitVec 2) : SegReg := s.seg[n.toNat]'(by have := n.isLt; omega)

/-- `SEG[n] <- r`. -/
def State.setSegReg (s : State) (n : BitVec 2) (r : SegReg) : State :=
  { s with seg := s.seg.set n.toNat r (by have := n.isLt; omega) }

/-- The factor row of segment `n` (`SEGQ[n]`). -/
def State.quantRow (s : State) (n : BitVec 2) : QuantRow := s.segq[n.toNat]'(by have := n.isLt; omega)

/-- `SEGQ[n] <- r`. -/
def State.setQuantRow (s : State) (n : BitVec 2) (r : QuantRow) : State :=
  { s with segq := s.segq.set n.toNat r (by have := n.isLt; omega) }

/-- `MBINFO[i]` (R38). -/
def State.mbInfoAt (s : State) (i : Nat) : MbInfo := lookup MbInfo.zero s.mbinfo i

/-- `MBINFO[i] <- r` (R38). -/
def State.setMbInfo (s : State) (i : Nat) (r : MbInfo) : State := { s with mbinfo := store MbInfo.zero i r s.mbinfo }

/-! ### Fault entry and reset -/

/-- Fault entry (R282): when a command raises a fault and `STATUS.FAULT = 0`, the code and the faulting command word are
recorded and nothing else changes; while `STATUS.FAULT = 1` the first fault is kept (R283). -/
def State.raise (s : State) (code : FaultCode) (w : CmdWord) : State :=
  if s.status.fault then s
  else { s with
    status := { s.status with fault := true, fcode := code }
    fcmdLo := BitVec.ofNat 32 (field w 31 0)
    fcmdHi := BitVec.ofNat 32 (field w 63 32) }

/-- The state change of RESET and of hardware reset (R102, R310), the only way out of the faulted state (R287, R312).
What the host has written to the port and not yet seen taken, and the responses already given, are the host's: reset leaves
them. DESIGN CHOICE, unsafe (entry 5). The parameters are the machine's own and stay (R10, entry 10). -/
def State.resetRegs (s : State) : State := { State.resetWith s.params with inbox := s.inbox, outbox := s.outbox }

/-- The code of a decode fault (R81, R280). -/
def decodeFault : DecodeError → FaultCode
  | .illegalOpcode => .illegalOpcode
  | .reservedBits => .reservedBits
  | .badField => .badField

/-! ### The template of a command -/

/-- The first fault of a list of conditions in order of priority (R284). -/
def firstFault (checks : List (Bool × FaultCode)) : Option FaultCode :=
  match checks with
  | [] => none
  | (bad, code) :: rest => if bad then some code else firstFault rest

/-- The template of every command but RESET: while `STATUS.FAULT = 1` it is discarded (R283); a field outside its static
range raises `BAD_FIELD` (R81, R284); then the first state check that fails raises its fault (R284); only then does the
command run. The faulting word is the command's own word (entry 8). -/
def command (i : Instr) (checks : State → List (Bool × FaultCode)) (run : State → Result) (s : State) : Result :=
  if s.status.fault then .next s
  else if i.wellFormed then
    match firstFault (checks s) with
    | some code => .next (s.raise code (encode i))
    | none => run s
  else .next (s.raise .badField (encode i))

end Sys2Proof.Machine
end

