-- ==== Sys2Proof/Machine/Operands.lean ====
section
/-! DEFINITION. Operand assembly: signed fields, quantizer factors by number and by block, the zig-zag table
(spec/30_encoding.md R83; spec/42_residual.md R152, R153). -/

namespace Sys2Proof.Machine

/-- One factor of a row, by its `FSEL` (R30). -/
def QuantRow.get (q : QuantRow) : Factor → BitVec 16
  | .ydc => q.ydc
  | .yac => q.yac
  | .y2dc => q.y2dc
  | .y2ac => q.y2ac
  | .uvdc => q.uvdc
  | .uvac => q.uvac

/-- A row with one factor replaced, by its `FSEL` (R107). -/
def QuantRow.put (q : QuantRow) (f : Factor) (v : BitVec 16) : QuantRow :=
  match f with
  | .ydc => { q with ydc := v }
  | .yac => { q with yac := v }
  | .y2dc => { q with y2dc := v }
  | .y2ac => { q with y2ac := v }
  | .uvdc => { q with uvdc := v }
  | .uvac => { q with uvac := v }

/-- The zig-zag table: scan position to raster index (R152). -/
def zigzagTable : List Nat := [0, 1, 4, 8, 5, 2, 3, 6, 9, 12, 13, 10, 7, 11, 14, 15]

/-- `ZIGZAG[i]` (R152). -/
def zigzag (i : Nat) : Nat := zigzagTable.getD i 0

/-- `DQPAIR(BLK, q)` as `(dcq, acq)` (R153). -/
def dqPair (blk : Nat) (q : QuantRow) : BitVec 16 × BitVec 16 :=
  if blk = 24 then (q.y2dc, q.y2ac)
  else if blk < 16 then (q.ydc, q.yac)
  else (q.uvdc, q.uvac)

/-- The factor of scan position `zz`: `(ZZ > 0) ? acq : dcq` (R150). -/
def dqFactor (blk zz : Nat) (q : QuantRow) : BitVec 16 := if zz > 0 then (dqPair blk q).2 else (dqPair blk q).1

/-- Sub-block column of luma block `i` in its macroblock (R16). -/
def lumaCol (i : Nat) : Nat := i % 4

/-- Sub-block row of luma block `i` in its macroblock (R16). -/
def lumaRow (i : Nat) : Nat := i / 4

/-- Sub-block column of chroma block `j` of a plane (R16, R205). -/
def chromaCol (j : Nat) : Nat := j % 2

/-- Sub-block row of chroma block `j` of a plane (R16, R205). -/
def chromaRow (j : Nat) : Nat := j / 2

end Sys2Proof.Machine
end

