-- ==== Sys2Proof/Machine/Flags.lean ====
section
/-! DEFINITION. The flags of VP8R (spec/10_state.md R23, R25, R33, R39): the derived phase, the per-block transform flags, and
the conditions the state checks of the commands read. VP8R has no arithmetic condition codes (R39). -/

namespace Sys2Proof.Machine

/-- The values of `STATUS.PHASE` (R25). -/
inductive Phase where
  | noFrame | decode | mbOpen | filter | done
  deriving DecidableEq, Repr

/-- The number `STATUS.PHASE` reads as (R25). -/
def Phase.code : Phase → Nat
  | .noFrame => 0
  | .decode => 1
  | .mbOpen => 2
  | .filter => 3
  | .done => 4

/-- `STATUS.PHASE`, a function of stored state (R25). -/
def State.phase (s : State) : Phase :=
  if s.status.frameValid = false then .noFrame
  else if s.status.mbOpen then .mbOpen
  else if s.mbcur.toNat < s.totalMb then .decode
  else if s.lfcur.toNat < s.totalMb then .filter
  else .done

/-- The number `STATUS.FCODE` reads as (R280). -/
def FaultCode.code : FaultCode → Nat
  | .none => 0x00
  | .illegalOpcode => 0x01
  | .reservedBits => 0x02
  | .badField => 0x03
  | .noFrame => 0x04
  | .noMb => 0x05
  | .mbOpen => 0x06
  | .order => 0x07
  | .mode => 0x08
  | .skipped => 0x09
  | .lfNotReady => 0x0A
  | .frameDone => 0x0B

/-- `IDCT_DONE[b]` (R33). -/
def State.idctDoneAt (s : State) (b : Nat) : Bool := s.idctDone.getLsbD b

/-- `IDCT_DONE[b] <- 1` (R158). -/
def State.setIdctDone (s : State) (b : Nat) : State := { s with idctDone := s.idctDone ||| BitVec.ofNat 24 (2 ^ b) }

/-- `IDCT_DONE[k] = 1` for every `k` in `lo..lo+n` (R200, R205). -/
def State.idctAllDone (s : State) (lo n : Nat) : Bool := (List.range n).all fun k => s.idctDoneAt (lo + k)

/-- `IDCT_DONE[k] = 1` for some `k` in `lo..lo+n` (R155). -/
def State.idctAnyDone (s : State) (lo n : Nat) : Bool := (List.range n).any fun k => s.idctDoneAt (lo + k)

/-- The check `NO_FRAME`: a command that needs a configured frame with `FRAME_VALID = 0` (R280). -/
def State.noFrame (s : State) : Bool := !s.status.frameValid

/-- The check `NO_MB`: a per-macroblock command with no macroblock open (R280). -/
def State.noMb (s : State) : Bool := !s.status.mbOpen

/-- The luma mode of the open macroblock is B: `CURMB.LMODE = 4`. -/
def State.isB (s : State) : Bool := decide (s.curmb.lmode = .b)

/-- Coordinates that are not those of raster index `cur`: `MBX >= MBW or MBY*MBW + MBX != cur` (R131, R250). -/
def State.outOfOrder (s : State) (mbx mby : BitVec 10) (cur : BitVec 21) : Bool :=
  decide (s.mbw ≤ mbx.toNat) || decide (mby.toNat * s.mbw + mbx.toNat ≠ cur.toNat)

end Sys2Proof.Machine
end

