-- ==== Sys2Proof/Machine/ConfigCmds.lean ====
section
/-! DEFINITION. The control and configuration commands NOP, RESET, CFG_FRAME, CFG_FILTER, CFG_SEGCTL, CFG_SEG, CFG_SEGQ and
QDERIVE (spec/40_config.md). They are accepted in every phase (R100). -/

namespace Sys2Proof.Machine

/-- No state checks beyond the decode checks (R285). -/
def noChecks (_ : State) : List (Bool × FaultCode) := []

/-- NOP (R101). -/
def execNop (s : State) : Result := command .nop noChecks (fun s => .next s) s

/-- RESET (R102): executes even while `STATUS.FAULT = 1` (R283). -/
def execReset (s : State) : Result := .next s.resetRegs

/-- The state a new frame starts from (R103): every byte of the planes 0, of the top borders 127, of the left borders 129
(`Memory.empty` reads so, R36), `MBINFO` zero, the cursors, `CURMB`, flags, `bpred` and the coefficient store 0; the filter,
segment and quantizer registers keep their values. -/
def State.startFrame (s : State) (w h : BitVec 14) : State :=
  { s with
    frame := ⟨w, h⟩
    status := { s.status with frameValid := true, mbOpen := false }
    mbcur := 0
    lfcur := 0
    mem := Memory.empty
    mbinfo := []
    curmb := CurMb.zero
    mbflags := ⟨false, false, false⟩
    idctDone := 0
    bpred := Vector.replicate 16 .dc
    coef := Vector.replicate 25 Block.zero }

/-- CFG_FRAME (R103). -/
def execCfgFrame (w h : BitVec 14) (s : State) : Result :=
  command (.cfgFrame w h) noChecks (fun s => .next (s.startFrame w h)) s

/-- CFG_FILTER (R104). -/
def execCfgFilter (type : Bool) (level : BitVec 6) (sharp : BitVec 3) (s : State) : Result :=
  command (.cfgFilter type level sharp) noChecks (fun s => .next { s with filter := ⟨type, level, sharp⟩ }) s

/-- CFG_SEGCTL (R105); `MDELTA0` is held sign-extended to 8 bits (R22). -/
def execCfgSegctl (segEn : Bool) (mdelta : BitVec 7) (s : State) : Result :=
  command (.cfgSegctl segEn mdelta) noChecks (fun s => .next { s with segctl := ⟨segEn, mdelta.signExtend 8⟩ }) s

/-- CFG_SEG (R106). -/
def execCfgSeg (seg : BitVec 2) (dv : Bool) (qlvl : BitVec 8) (lflvl : BitVec 7) (s : State) : Result :=
  command (.cfgSeg seg dv qlvl lflvl) noChecks (fun s => .next (s.setSegReg seg ⟨dv, qlvl, lflvl⟩)) s

/-- CFG_SEGQ (R107): no clamp is applied. -/
def execCfgSegq (seg : BitVec 2) (fsel : Factor) (qval : BitVec 16) (s : State) : Result :=
  command (.cfgSegq seg fsel qval) noChecks (fun s => .next (s.setQuantRow seg ((s.quantRow seg).put fsel qval))) s

/-! ### QDERIVE -/

/-- `qclamp(i)`, as a table index (R108). -/
def qclamp (i : Int) : Fin 128 := ⟨(clamp i 0 127).toNat, by unfold clamp; split <;> [omega; (split <;> omega)]⟩

/-- The base index (R110). -/
def quantBase (s : State) (seg : BitVec 2) (yac : BitVec 7) : Int :=
  if s.segctl.segEn && (s.segReg seg).dv then (s.segReg seg).qlvl.toInt + yac.toNat
  else if s.segctl.segEn then (s.segReg seg).qlvl.toInt
  else yac.toNat

/-- A table entry at a clamped index (R111). -/
def quantAt (table : Vector (BitVec 16) 128) (i : Int) : Int := table[qclamp i].toInt

/-- An exact factor as the `i16` it is (R30, R111); one that fits no `i16` is a free value (entry 13). -/
def factor16 (v : Int) : BitVec 16 := if -32768 ≤ v ∧ v ≤ 32767 then BitVec.ofInt 16 v else Config.unstatedFactor v

/-- `v / 100` for `v ≥ 0`, the floor quotient (R13); the spec states none for a negative `v`, a free value (entry 13). -/
def hundredth (v : Int) : Int := if 0 ≤ v then v / 100 else Config.unstatedQuotient v

/-- `Y2AC` before the post-clamp: `(AC_QUANT[i] * 155) / 100` (R111). -/
def y2acRaw (cfg : Config) (i : Int) : Int := hundredth (quantAt cfg.acQuant i * 155)

/-- The six factors with the post-clamp (R111, R112), which bounds a free value too. -/
def deriveFactors (cfg : Config) (base : Int) (dydc dy2dc dy2ac duvdc duvac : Int) : QuantRow where
  ydc := factor16 (quantAt cfg.dcQuant (base + dydc))
  yac := factor16 (quantAt cfg.acQuant base)
  y2dc := factor16 (quantAt cfg.dcQuant (base + dy2dc) * 2)
  y2ac := BitVec.ofInt 16 (max (factor16 (y2acRaw cfg (base + dy2ac))).toInt 8)
  uvdc := factor16 (min (quantAt cfg.dcQuant (base + duvdc)) 132)
  uvac := factor16 (quantAt cfg.acQuant (base + duvac))

/-- QDERIVE (R113), from the tables the machine is built with (R10). -/
def execQderive (seg : BitVec 2) (yac : BitVec 7) (dydc dy2dc dy2ac duvdc duvac : BitVec 5) (s : State) : Result :=
  command (.qderive seg yac dydc dy2dc dy2ac duvdc duvac) noChecks
    (fun s => .next (s.setQuantRow seg
      (deriveFactors s.params (quantBase s seg yac) dydc.toInt dy2dc.toInt dy2ac.toInt duvdc.toInt duvac.toInt))) s

end Sys2Proof.Machine
end

