-- ==== Sys2Proof/Machine/Transform.lean ====
section
/-! DEFINITION. The inverse Walsh-Hadamard and inverse DCT of one 16-entry block (spec/42_residual.md R156, R159).
Each pass writes four disjoint columns or rows from their own entries, so a pass is written entry by entry
(DEDUCED, safe, entry 9). -/

namespace Sys2Proof.Machine

/-- Four entries of a column or a row, in order. -/
structure Quad where
  x0 : Int
  x1 : Int
  x2 : Int
  x3 : Int
  deriving DecidableEq, Repr

/-- Entry `n` of four. -/
def Quad.entry (q : Quad) : Nat → Int
  | 0 => q.x0
  | 1 => q.x1
  | 2 => q.x2
  | _ => q.x3

/-- Each entry `x` replaced by `(x + r) >> 3`: the rounding of the second pass (R156, R159). -/
def Quad.round (q : Quad) (r : Int) : Quad := ⟨asr (q.x0 + r) 3, asr (q.x1 + r) 3, asr (q.x2 + r) 3, asr (q.x3 + r) 3⟩

/-- Entry `k` of a block, as the integer it is. -/
def Block.entry (b : Block) (k : Nat) : Int := (b.getD k 0).toInt

/-- The column `(b[i], b[4+i], b[8+i], b[12+i])`. -/
def Block.column (b : Block) (i : Nat) : Quad := ⟨b.entry i, b.entry (4 + i), b.entry (8 + i), b.entry (12 + i)⟩

/-- The row `(b[4i], b[4i+1], b[4i+2], b[4i+3])`. -/
def Block.row (b : Block) (i : Nat) : Quad := ⟨b.entry (4 * i), b.entry (4 * i + 1), b.entry (4 * i + 2), b.entry (4 * i + 3)⟩

/-- A pass over the four columns, each stored value reduced by `wrap32`. -/
def columnPass (f : Quad → Quad) (b : Block) : Block :=
  Vector.ofFn fun k => wrap32 ((f (b.column (k.val % 4))).entry (k.val / 4))

/-- A pass over the four rows, each stored value reduced by `wrap32`. -/
def rowPass (f : Quad → Quad) (b : Block) : Block :=
  Vector.ofFn fun k => wrap32 ((f (b.row (k.val / 4))).entry (k.val % 4))

/-- The butterfly both passes of `IWHT4` share (R156). -/
def whtButterfly (q : Quad) : Quad :=
  let a1 := q.x0 + q.x3
  let b1 := q.x1 + q.x2
  let c1 := q.x1 - q.x2
  let d1 := q.x0 - q.x3
  ⟨a1 + b1, c1 + d1, a1 - b1, d1 - c1⟩

/-- `IWHT4(b)` (R156). -/
def iwht4 (b : Block) : Block := rowPass (fun q => (whtButterfly q).round 3) (columnPass whtButterfly b)

/-- `C1` of `IDCT4` (R159). -/
def dctC1 : Int := 20091

/-- `C2` of `IDCT4` (R159). -/
def dctC2 : Int := 35468

/-- The butterfly `T` and the four sums both passes of `IDCT4` store (R159). -/
def dctButterfly (q : Quad) : Quad :=
  let a1 := q.x0 + q.x2
  let b1 := q.x0 - q.x2
  let c1 := asr (q.x1 * dctC2) 16 - (q.x3 + asr (q.x3 * dctC1) 16)
  let d1 := (q.x1 + asr (q.x1 * dctC1) 16) + asr (q.x3 * dctC2) 16
  ⟨a1 + d1, b1 + c1, b1 - c1, a1 - d1⟩

/-- `IDCT4(b)` (R159). -/
def idct4 (b : Block) : Block := rowPass (fun q => (dctButterfly q).round 4) (columnPass dctButterfly b)

end Sys2Proof.Machine
end

