-- ==== Sys2Proof/Machine/Filter.lean ====
section
/-! DEFINITION. The loop filter: level lookup, kernels and the per-macroblock driver (spec/44_loop_filter.md R230 to R246). -/

namespace Sys2Proof.Machine

/-! ### Levels -/

/-- The filter parameters of one macroblock (R230 to R234). -/
structure Levels where
  lvl : Nat
  ilim : Nat
  hevT : Nat
  mbe : Nat
  sbe : Nat
  deriving DecidableEq, Repr

/-- The filter level before the mode delta (R230). -/
def baseLevel (s : State) (m : MbInfo) : Int :=
  let level : Int := s.filter.level.toNat
  if s.segctl.segEn then
    if (s.segReg m.segid).dv then level + (s.segReg m.segid).lflvl.toInt else (s.segReg m.segid).lflvl.toInt
  else level

/-- The filter level, clamped once before the mode delta and once after (R230). -/
def filterLevel (s : State) (m : MbInfo) : Int :=
  let lvl := clamp (baseLevel s m) 0 63
  if m.lmode = .b then clamp (lvl + s.segctl.mdelta0.toInt) 0 63 else lvl

/-- The interior limit of a level at a sharpness (R231). -/
def interiorLimit (lvl sharp : Nat) : Nat :=
  let ilim := if sharp > 0 then min (lvl / 2 ^ (if sharp > 4 then 2 else 1)) (9 - sharp) else lvl
  if ilim = 0 then 1 else ilim

/-- The high-edge-variance threshold under `HEV_RULE` (R233). -/
def hevThreshold (rule : HevRule) (lvl : Nat) : Nat :=
  match rule with
  | .doc => if 40 ≤ lvl then 2 else 1
  | .rfc => if 40 ≤ lvl then 2 else if 15 ≤ lvl then 1 else 0

/-- The parameters of a macroblock with record `m`, from the configuration as it stands (R230 to R234, R253). -/
def levels (cfg : Config) (s : State) (m : MbInfo) : Levels :=
  let lvl := (filterLevel s m).toNat
  let ilim := interiorLimit lvl s.filter.sharp.toNat
  { lvl := lvl, ilim := ilim, hevT := hevThreshold cfg.hevRule lvl, mbe := (lvl + 2) * 2 + ilim, sbe := lvl * 2 + ilim }

/-- Interior edges are filtered iff `LMODE = B or SKIP = 0` (R235). -/
def innerEdges (m : MbInfo) : Bool := decide (m.lmode = .b) || !m.skip

/-! ### Kernels -/

/-- The eight pixels of a filter segment (R236). -/
structure Line where
  p3 : Byte
  p2 : Byte
  p1 : Byte
  p0 : Byte
  q0 : Byte
  q1 : Byte
  q2 : Byte
  q3 : Byte
  deriving DecidableEq, Repr

/-- `u2s(v) = v - 128` (R236). -/
def u2s (b : Byte) : Int := px b - 128

/-- `c(v) = clamp(v, -128, 127)` (R236). -/
def c127 (v : Int) : Int := clamp v (-128) 127

/-- `s2u(v) = c(v) + 128`, as the byte it is (R236). -/
def s2u (v : Int) : Byte := BitVec.ofInt 8 (c127 v + 128)

/-- `SIMPLE_TEST(E)` (R237). -/
def simpleTest (e : Nat) (l : Line) : Bool := decide (absDiff l.p0 l.q0 * 2 + absDiff l.p1 l.q1 / 2 ≤ e)

/-- `NORMAL_TEST(I, E)` (R238). -/
def normalTest (i e : Nat) (l : Line) : Bool :=
  simpleTest e l && decide (absDiff l.p3 l.p2 ≤ i) && decide (absDiff l.p2 l.p1 ≤ i) && decide (absDiff l.p1 l.p0 ≤ i)
    && decide (absDiff l.q3 l.q2 ≤ i) && decide (absDiff l.q2 l.q1 ≤ i) && decide (absDiff l.q1 l.q0 ≤ i)

/-- `HEV(t)` (R239). -/
def hev (t : Nat) (l : Line) : Bool := decide (absDiff l.p1 l.p0 > t) || decide (absDiff l.q1 l.q0 > t)

/-- The adjusted `a` of `COMMON_ADJUST` before its two shifts (R241). -/
def adjustBase (outer : Bool) (l : Line) : Int :=
  c127 ((if outer then c127 (u2s l.p1 - u2s l.q1) else 0) + 3 * (u2s l.q0 - u2s l.p0))

/-- What `COMMON_ADJUST` returns (R241). -/
def adjustReturn (outer : Bool) (l : Line) : Int := asr (c127 (adjustBase outer l + 4)) 3

/-- What `COMMON_ADJUST` writes: `q0` and `p0` (R241). -/
def commonAdjust (outer : Bool) (l : Line) : Line :=
  { l with
    q0 := s2u (u2s l.q0 - adjustReturn outer l)
    p0 := s2u (u2s l.p0 + asr (c127 (adjustBase outer l + 3)) 3) }

/-- `SIMPLE_SEGMENT(E)` (R242). -/
def simpleSegment (e : Nat) (l : Line) : Line := if simpleTest e l then commonAdjust true l else l

/-- `SB_FILTER(t, I, E)` (R243). -/
def sbFilter (t i e : Nat) (l : Line) : Line :=
  if normalTest i e l then
    let hv := hev t l
    let a := asr (adjustReturn hv l + 1) 1
    let l' := commonAdjust hv l
    if hv then l' else { l' with q1 := s2u (u2s l.q1 - a), p1 := s2u (u2s l.p1 + a) }
  else l

/-- `MB_FILTER(t, I, E)` (R244). -/
def mbFilter (t i e : Nat) (l : Line) : Line :=
  if normalTest i e l then
    if hev t l then commonAdjust true l
    else
      let w := c127 (c127 (u2s l.p1 - u2s l.q1) + 3 * (u2s l.q0 - u2s l.p0))
      let a0 := c127 (asr (27 * w + 63) 7)
      let a1 := c127 (asr (18 * w + 63) 7)
      let a2 := c127 (asr (9 * w + 63) 7)
      { l with
        q0 := s2u (u2s l.q0 - a0), p0 := s2u (u2s l.p0 + a0)
        q1 := s2u (u2s l.q1 - a1), p1 := s2u (u2s l.p1 + a1)
        q2 := s2u (u2s l.q2 - a2), p2 := s2u (u2s l.p2 + a2) }
  else l

/-! ### Segments -/

/-- The direction of an edge (R240). -/
inductive EdgeDir where
  | vert | horz
  deriving DecidableEq, Repr

/-- Macroblock edge or sub-block (interior) edge (R240). -/
inductive EdgeKind where
  | mb | sb
  deriving DecidableEq, Repr

/-- One call `SEG(PL, x, y, dir, kind)` of the driver (R240). -/
structure Segment where
  plane : Plane
  x : Nat
  y : Nat
  dir : EdgeDir
  kind : EdgeKind
  deriving DecidableEq, Repr

/-- How many pixels the kernel reads on each side: 2 for the simple filter, 4 for the normal ones (R245). -/
def reach (simple : Bool) : Nat := if simple then 2 else 4

/-- `IN_BOUNDS(PL, x, y, dir)` (R245). -/
def inBounds (s : State) (simple : Bool) (g : Segment) : Bool :=
  match g.dir with
  | .vert => decide (g.y < s.planeHeight g.plane) && decide (g.x + reach simple - 1 < s.planeWidth g.plane)
  | .horz => decide (g.x < s.planeWidth g.plane) && decide (g.y + reach simple - 1 < s.planeHeight g.plane)

/-- The step across the edge (R236). -/
def Segment.step (s : State) (g : Segment) : Nat :=
  match g.dir with
  | .vert => 1
  | .horz => s.planeWidth g.plane

/-- The plane index of `q_k` (R236). -/
def Segment.qIndex (s : State) (g : Segment) (k : Nat) : Nat := s.pixelIndex g.plane g.x g.y + k * g.step s

/-- The plane index of `p_k` (R236). -/
def Segment.pIndex (s : State) (g : Segment) (k : Nat) : Nat := s.pixelIndex g.plane g.x g.y - (k + 1) * g.step s

/-- The pixels of a segment as they stand (R236). The simple kernel reads `p1, p0, q0, q1` only. -/
def Segment.line (s : State) (g : Segment) : Line where
  p3 := s.mem.read g.plane.space (g.pIndex s 3)
  p2 := s.mem.read g.plane.space (g.pIndex s 2)
  p1 := s.mem.read g.plane.space (g.pIndex s 1)
  p0 := s.mem.read g.plane.space (g.pIndex s 0)
  q0 := s.mem.read g.plane.space (g.qIndex s 0)
  q1 := s.mem.read g.plane.space (g.qIndex s 1)
  q2 := s.mem.read g.plane.space (g.qIndex s 2)
  q3 := s.mem.read g.plane.space (g.qIndex s 3)

/-- The kernel a segment is filtered with (R240). -/
def kernel (simple : Bool) (lv : Levels) (kind : EdgeKind) (l : Line) : Line :=
  match simple, kind with
  | true, .mb => simpleSegment lv.mbe l
  | true, .sb => simpleSegment lv.sbe l
  | false, .mb => mbFilter lv.hevT lv.ilim lv.mbe l
  | false, .sb => sbFilter lv.hevT lv.ilim lv.sbe l

/-- The cells a kernel writes back: `p0, q0` for the simple filter, `p1..q1` for the sub-block filter, `p2..q2` for the
macroblock filter (R242 to R244). -/
def Segment.stores (s : State) (simple : Bool) (g : Segment) (l : Line) : List Host.Cell :=
  let inner := [(g.pIndex s 0, l.p0), (g.qIndex s 0, l.q0)]
  let middle := [(g.pIndex s 1, l.p1), (g.qIndex s 1, l.q1)]
  let outer := [(g.pIndex s 2, l.p2), (g.qIndex s 2, l.q2)]
  match simple, g.kind with
  | true, _ => inner
  | false, .sb => inner ++ middle
  | false, .mb => inner ++ middle ++ outer

/-- The state with its memory replaced. -/
def State.withMem (s : State) (m : Memory) : State := { s with mem := m }

/-- `SEG(PL, x, y, dir, kind)` (R240): nothing where a pixel the kernel reads is outside the plane (R245). -/
def filterSegment (simple : Bool) (lv : Levels) (s : State) (g : Segment) : State :=
  if inBounds s simple g then
    s.withMem (s.mem.writeAll g.plane.space (g.stores s simple (kernel simple lv g.kind (g.line s))))
  else s

/-! ### The driver -/

/-- The planes the filter works on, with the macroblock's side in each: the simple filter is luma only (R240). -/
def filterPlanes (simple : Bool) : List (Plane × Nat) := if simple then [(.y, 16)] else [(.y, 16), (.u, 8), (.v, 8)]

/-- The offsets of the interior edges of a macroblock of side `n`: 4, 8, … below `n` (R240). -/
def interiorOffsets (n : Nat) : List Nat := [4, 8, 12].filter fun e => decide (e < n)

/-- The `n` lines of one vertical edge at column `x`, rows from `y` (R240). -/
def vertLines (pl : Plane) (n x y : Nat) (kind : EdgeKind) : List Segment :=
  (List.range n).map fun k => ⟨pl, x, y + k, .vert, kind⟩

/-- The `n` lines of one horizontal edge at row `y`, columns from `x` (R240). -/
def horzLines (pl : Plane) (n x y : Nat) (kind : EdgeKind) : List Segment :=
  (List.range n).map fun k => ⟨pl, x + k, y, .horz, kind⟩

/-- Every segment of macroblock `(mbx, mby)` in the order of R240: left edge, interior vertical edges, top edge, interior
horizontal edges. -/
def mbSegments (simple inner : Bool) (mbx mby : Nat) : List Segment :=
  let planes := filterPlanes simple
  (if mbx > 0 then planes.flatMap fun p => vertLines p.1 p.2 (p.2 * mbx) (p.2 * mby) .mb else [])
  ++ (if inner then planes.flatMap fun p => (interiorOffsets p.2).flatMap fun e => vertLines p.1 p.2 (p.2 * mbx + e) (p.2 * mby) .sb else [])
  ++ (if mby > 0 then planes.flatMap fun p => horzLines p.1 p.2 (p.2 * mbx) (p.2 * mby) .mb else [])
  ++ (if inner then planes.flatMap fun p => (interiorOffsets p.2).flatMap fun e => horzLines p.1 p.2 (p.2 * mbx) (p.2 * mby + e) .sb else [])

/-- The segments of the macroblock at raster index `i`, for the state's configuration and `MBINFO[i]` (R240). -/
def State.segmentsOf (s : State) (i : Nat) : List Segment :=
  mbSegments s.filter.simple (innerEdges (s.mbInfoAt i)) (i % s.mbw) (i / s.mbw)

/-- `FILTER_MB(i)` (R240); a macroblock at level 0 is not filtered (R235). -/
def filterMb (cfg : Config) (i : Nat) (s : State) : State :=
  let lv := levels cfg s (s.mbInfoAt i)
  if lv.lvl = 0 then s else (s.segmentsOf i).foldl (filterSegment s.filter.simple lv) s

/-- `FILTER_MB(LFCUR)` then `LFCUR <- LFCUR + 1` (R250, R252). -/
def filterNext (cfg : Config) (s : State) : State :=
  let s' := filterMb cfg s.lfcur.toNat s
  { s' with lfcur := s'.lfcur + 1 }

/-- `filterNext`, `n` times. -/
def filterMany (cfg : Config) : Nat → State → State
  | 0, s => s
  | n + 1, s => filterMany cfg n (filterNext cfg s)

end Sys2Proof.Machine
end

