-- ==== Sys2Proof/Machine/FilterCmds.lean ====
section
/-! DEFINITION. The loop-filter commands LF_MB and LF_FRAME (spec/44_loop_filter.md R250 to R252), under the `HEV_RULE` the machine is
built with (R10). -/

namespace Sys2Proof.Machine

/-- The state checks of LF_FRAME in order (R252), which LF_MB makes first too (R250). -/
def lfFrameChecks (s : State) : List (Bool × FaultCode) :=
  [(s.noFrame, .noFrame),
   (s.status.mbOpen, .mbOpen),
   (decide (s.mbcur.toNat < s.totalMb), .lfNotReady),
   (decide (s.lfcur.toNat = s.totalMb), .frameDone)]

/-- The state checks of LF_MB in order (R250). -/
def lfMbChecks (mbx mby : BitVec 10) (s : State) : List (Bool × FaultCode) :=
  lfFrameChecks s ++ [(s.outOfOrder mbx mby s.lfcur, .order)]

/-- LF_MB (R250). A cursor that names no entry of `MBINFO` stops the model (R69, entry 7). -/
def execLfMb (mbx mby : BitVec 10) (s : State) : Result :=
  command (.lfMb mbx mby) (lfMbChecks mbx mby)
    (fun s => if s.lfcur.toNat < s.totalMb then .next (filterNext s.params s)
      else .fault (.outOfSpace .mbinfo s.lfcur.toNat)) s

/-- LF_FRAME (R252): `FILTER_MB(LFCUR)` and the advance of `LFCUR`, while `LFCUR < TOTAL_MB`. -/
def execLfFrame (s : State) : Result :=
  command .lfFrame lfFrameChecks
    (fun s => .next (filterMany s.params (s.totalMb - s.lfcur.toNat) s)) s

end Sys2Proof.Machine
end

