-- ==== Sys2Proof/Machine/MacroblockCmds.lean ====
section
/-! DEFINITION. The macroblock sequencing commands MB_BEGIN, BPRED and MB_END (spec/41_macroblock.md). -/

namespace Sys2Proof.Machine

/-- The state checks of MB_BEGIN in order (R131). -/
def mbBeginChecks (mbx mby : BitVec 10) (s : State) : List (Bool × FaultCode) :=
  [(s.noFrame, .noFrame),
   (s.status.mbOpen, .mbOpen),
   (decide (s.mbcur.toNat = s.totalMb), .frameDone),
   (s.outOfOrder mbx mby s.mbcur, .order)]

/-- The state with macroblock `mb` open and nothing done for it (R131). -/
def State.openMb (s : State) (mb : CurMb) : State :=
  { s with
    curmb := mb
    status := { s.status with mbOpen := true }
    mbflags := ⟨false, false, false⟩
    idctDone := 0
    bpred := Vector.replicate 16 .dc
    coef := Vector.replicate 25 Block.zero }

/-- MB_BEGIN (R131). -/
def execMbBegin (mbx mby : BitVec 10) (lmode : LumaMode) (cmode : ChromaMode) (segid : BitVec 2) (skip : Bool) (s : State) : Result :=
  command (.mbBegin mbx mby lmode cmode segid skip) (mbBeginChecks mbx mby)
    (fun s => .next (s.openMb ⟨mbx, mby, lmode, cmode, segid, skip⟩)) s

/-- The state checks of BPRED in order (R133). -/
def bpredChecks (s : State) : List (Bool × FaultCode) :=
  [(s.noFrame, .noFrame), (s.noMb, .noMb), (!s.isB, .mode), (s.mbflags.lumaDone, .order)]

/-- `bpred[8*HALF + k] <- Mk` for `k` in 0..8 (R133). -/
def putHalf (half : Bool) (ms : List SubMode) (old : Vector SubMode 16) : Vector SubMode 16 :=
  Vector.ofFn fun k => if k.val / 8 = half.toNat then ms.getD (k.val % 8) .dc else old[k.val]

/-- BPRED (R133). -/
def execBpred (half : Bool) (m0 m1 m2 m3 m4 m5 m6 m7 : SubMode) (s : State) : Result :=
  command (.bpred half m0 m1 m2 m3 m4 m5 m6 m7) bpredChecks
    (fun s => .next { s with bpred := putHalf half [m0, m1, m2, m3, m4, m5, m6, m7] s.bpred }) s

/-- The state checks of MB_END in order (R135). -/
def mbEndChecks (s : State) : List (Bool × FaultCode) :=
  [(s.noFrame, .noFrame), (s.noMb, .noMb), (!s.mbflags.lumaDone || !s.mbflags.chromaDone, .order)]

/-- The left borders reseeded to 129 (R136). -/
def Memory.endRow (m : Memory) : Memory := ((m.reseed .leftY).reseed .leftU).reseed .leftV

/-- The state with the open macroblock closed (R135): its record stored, the cursor advanced, and the left borders reseeded
where it was the last of its row (R136). -/
def State.closeMb (s : State) : State :=
  { s.setMbInfo s.mbcur.toNat ⟨s.curmb.lmode, s.curmb.segid, s.curmb.skip⟩ with
    status := { s.status with mbOpen := false }
    mbcur := s.mbcur + 1
    mem := if s.curmb.mbx.toNat = s.mbw - 1 then s.mem.endRow else s.mem }

/-- MB_END (R135). A cursor that names no entry of `MBINFO` stops the model (R69, entry 7). -/
def execMbEnd (s : State) : Result :=
  command .mbEnd mbEndChecks
    (fun s => if s.mbcur.toNat < s.totalMb then .next s.closeMb else .fault (.outOfSpace .mbinfo s.mbcur.toNat)) s

end Sys2Proof.Machine
end

