-- ==== Sys2Proof/Machine/Predict.lean ====
section
/-! DEFINITION. Scratch arrays, edge construction, the 16×16, 8×8 and 4×4 predictors and residue addition
(spec/43_intra_pred.md R180 to R199). -/

namespace Sys2Proof.Machine

/-! ### Scratch -/

/-- A scratch array as its rows: work within one PRED command, never state (R40). -/
abbrev Scratch := List (List Byte)

/-- `ws[r][c]` (R15). -/
def Scratch.at (ws : Scratch) (r c : Nat) : Byte := (ws.getD r []).getD c 0

/-- The `n × n` scratch whose cell `[r][c]` is `f r c`. -/
def Scratch.build (n : Nat) (f : Nat → Nat → Byte) : Scratch :=
  (List.range n).map fun r => (List.range n).map fun c => f r c

/-- The `n × n` region with top-left cell `[y0][x0]` rewritten: cell `[y0+r][x0+c]` becomes `f r c old`. -/
def Scratch.region (ws : Scratch) (y0 x0 n : Nat) (f : Nat → Nat → Byte → Byte) : Scratch :=
  ws.mapIdx fun r row => row.mapIdx fun c p =>
    if y0 ≤ r ∧ r < y0 + n ∧ x0 ≤ c ∧ c < x0 + n then f (r - y0) (c - x0) p else p

/-! ### Border construction -/

/-- Row 0 of the luma scratch (R180). -/
def lumaAbove (s : State) (mbx mby c : Nat) : Byte :=
  if mby = 0 then 127
  else if c = 0 then (if mbx = 0 then 129 else s.mem.read .leftY 0)
  else if c < 17 then s.mem.read .topY (16 * mbx + c - 1)
  else if mbx = s.mbw - 1 then s.mem.read .topY (16 * mbx + 15)
  else s.mem.read .topY (16 * mbx + c - 1)

/-- Column 0 of the luma scratch, rows 1..17 (R180). -/
def lumaLeft (s : State) (mbx r : Nat) : Byte := if mbx = 0 then 129 else s.mem.read .leftY r

/-- `BUILD_LUMA()` (R180), with the phantom above-right rows 4, 8 and 12 (spec/90_conflicts.md C1). -/
def buildLuma (s : State) (mbx mby : Nat) : Scratch :=
  Scratch.build 21 fun r c =>
    if r = 0 then lumaAbove s mbx mby c
    else if c = 0 ∧ r < 17 then lumaLeft s mbx r
    else if (r = 4 ∨ r = 8 ∨ r = 12) ∧ 17 ≤ c then lumaAbove s mbx mby c
    else 0

/-- `BUILD_CHROMA(WS, TOP, LEFT)` (R181). -/
def buildChroma (s : State) (top left : ByteSpace) (mbx mby : Nat) : Scratch :=
  Scratch.build 9 fun r c =>
    if r = 0 then
      if mby = 0 then 127
      else if c = 0 then (if mbx = 0 then 129 else s.mem.read left 0)
      else s.mem.read top (8 * mbx + c - 1)
    else if c = 0 then (if mbx = 0 then 129 else s.mem.read left r)
    else 0

/-! ### The 16×16 and 8×8 predictors -/

/-- The 16×16 luma modes and the 8×8 chroma modes that `PREDN` computes (codes 0 to 3, section 2 of spec/43_intra_pred.md). -/
inductive BigMode where
  | dc | v | h | tm
  deriving DecidableEq, Repr

/-- The `PREDN` mode of a luma mode; B has none (R200). -/
def bigOfLuma : LumaMode → Option BigMode
  | .dc => some .dc
  | .v => some .v
  | .h => some .h
  | .tm => some .tm
  | .b => none

/-- The `PREDN` mode of a chroma mode. -/
def bigOfChroma : ChromaMode → BigMode
  | .dc => .dc
  | .v => .v
  | .h => .h
  | .tm => .tm

/-- The sum of the above row, `ΣA[0..n]`. -/
def Scratch.sumAbove (ws : Scratch) (n : Nat) : Nat := ((List.range n).map fun c => (ws.at 0 (1 + c)).toNat).sum

/-- The sum of the left column, `ΣL[0..n]`. -/
def Scratch.sumLeft (ws : Scratch) (n : Nat) : Nat := ((List.range n).map fun r => (ws.at (1 + r) 0).toNat).sum

/-- The DC value for side `n = 2^sh` (R185): above exists iff `mby > 0`, left iff `mbx > 0` (spec/90_conflicts.md C4). -/
def dcValue (ws : Scratch) (sh mbx mby : Nat) : Byte :=
  let n := 2 ^ sh
  if mby > 0 ∧ mbx > 0 then BitVec.ofNat 8 ((ws.sumAbove n + ws.sumLeft n + 2 ^ sh) / 2 ^ (sh + 1))
  else if mby > 0 then BitVec.ofNat 8 ((ws.sumAbove n + 2 ^ (sh - 1)) / 2 ^ sh)
  else if mbx > 0 then BitVec.ofNat 8 ((ws.sumLeft n + 2 ^ (sh - 1)) / 2 ^ sh)
  else 128

/-- TrueMotion of one pixel: `clip255(L + A - P)` (R186, R190). -/
def trueMotion (l a p : Byte) : Byte := clip255 (px l + px a - px p)

/-- `PREDN(mode, N = 2^sh)` (R183 to R186): rewrites `ws[1+r][1+c]` for `r, c` in 0..N. -/
def predN (mode : BigMode) (sh mbx mby : Nat) (ws : Scratch) : Scratch :=
  match mode with
  | .dc => let v := dcValue ws sh mbx mby; ws.region 1 1 (2 ^ sh) fun _ _ _ => v
  | .v => ws.region 1 1 (2 ^ sh) fun _ c _ => ws.at 0 (1 + c)
  | .h => ws.region 1 1 (2 ^ sh) fun r _ _ => ws.at (1 + r) 0
  | .tm => ws.region 1 1 (2 ^ sh) fun r c _ => trueMotion (ws.at (1 + r) 0) (ws.at 0 (1 + c)) (ws.at 0 0)

/-! ### The 4×4 predictors -/

/-- The edges of a 4×4 subblock (R187): corner `p`, above row `a0..a7`, left column `l0..l3`. -/
structure Edges where
  p : Byte
  above : List Byte
  left : List Byte
  deriving DecidableEq, Repr

/-- `A[k]` (R187). -/
def Edges.a (e : Edges) (k : Nat) : Byte := e.above.getD k 0

/-- `L[k]` (R187). -/
def Edges.l (e : Edges) (k : Nat) : Byte := e.left.getD k 0

/-- `E[k]`, from the bottom of the left column through the corner along the above row (R187, spec/90_conflicts.md C6). -/
def Edges.e (e : Edges) (k : Nat) : Byte :=
  [e.l 3, e.l 2, e.l 1, e.l 0, e.p, e.a 0, e.a 1, e.a 2, e.a 3].getD k 0

/-- The edges read from the scratch for the subblock whose top-left pixel is `[y0][x0]` (R187). -/
def Scratch.edges (ws : Scratch) (y0 x0 : Nat) : Edges where
  p := ws.at (y0 - 1) (x0 - 1)
  above := (List.range 8).map fun k => ws.at (y0 - 1) (x0 + k)
  left := (List.range 4).map fun k => ws.at (y0 + k) (x0 - 1)

/-- The DC value of a 4×4 subblock: no edge-existence test (R189). -/
def dc4 (e : Edges) : Byte :=
  BitVec.ofNat 8 (((e.a 0).toNat + (e.a 1).toNat + (e.a 2).toNat + (e.a 3).toNat
    + (e.l 0).toNat + (e.l 1).toNat + (e.l 2).toNat + (e.l 3).toNat + 4) / 8)

/-- VE: the smoothed above row (R191). -/
def ve4 (e : Edges) : List Byte :=
  [avg3 e.p (e.a 0) (e.a 1), avg3 (e.a 0) (e.a 1) (e.a 2), avg3 (e.a 1) (e.a 2) (e.a 3), avg3 (e.a 2) (e.a 3) (e.a 4)]

/-- HE: the smoothed left column (R192). -/
def he4 (e : Edges) : List Byte :=
  [avg3 e.p (e.l 0) (e.l 1), avg3 (e.l 0) (e.l 1) (e.l 2), avg3 (e.l 1) (e.l 2) (e.l 3), avg3 (e.l 2) (e.l 3) (e.l 3)]

/-- LD (R193). -/
def ld4 (e : Edges) (r c : Nat) : Byte :=
  if r = 3 ∧ c = 3 then avg3 (e.a 6) (e.a 7) (e.a 7) else avg3 (e.a (r + c)) (e.a (r + c + 1)) (e.a (r + c + 2))

/-- RD (R194). -/
def rd4 (e : Edges) (r c : Nat) : Byte := avg3 (e.e (3 - r + c)) (e.e (4 - r + c)) (e.e (5 - r + c))

/-- `avg2` of two consecutive pixels of `E`. -/
def Edges.e2 (e : Edges) (k : Nat) : Byte := avg2 (e.e k) (e.e (k + 1))

/-- `avg3` of three consecutive pixels of `E`. -/
def Edges.e3 (e : Edges) (k : Nat) : Byte := avg3 (e.e k) (e.e (k + 1)) (e.e (k + 2))

/-- `avg2` of two consecutive pixels of `A`. -/
def Edges.a2 (e : Edges) (k : Nat) : Byte := avg2 (e.a k) (e.a (k + 1))

/-- `avg3` of three consecutive pixels of `A`. -/
def Edges.a3 (e : Edges) (k : Nat) : Byte := avg3 (e.a k) (e.a (k + 1)) (e.a (k + 2))

/-- VR, row by row (R195). -/
def vr4 (e : Edges) : List (List Byte) :=
  [[e.e2 4, e.e2 5, e.e2 6, e.e2 7],
   [e.e3 3, e.e3 4, e.e3 5, e.e3 6],
   [e.e3 2, e.e2 4, e.e2 5, e.e2 6],
   [e.e3 1, e.e3 3, e.e3 4, e.e3 5]]

/-- VL, row by row (R196). -/
def vl4 (e : Edges) : List (List Byte) :=
  [[e.a2 0, e.a2 1, e.a2 2, e.a2 3],
   [e.a3 0, e.a3 1, e.a3 2, e.a3 3],
   [e.a2 1, e.a2 2, e.a2 3, e.a3 4],
   [e.a3 1, e.a3 2, e.a3 3, e.a3 5]]

/-- HD, row by row (R197). -/
def hd4 (e : Edges) : List (List Byte) :=
  [[e.e2 3, e.e3 3, e.e3 4, e.e3 5],
   [e.e2 2, e.e3 2, e.e2 3, e.e3 3],
   [e.e2 1, e.e3 1, e.e2 2, e.e3 2],
   [e.e2 0, e.e3 0, e.e2 1, e.e3 1]]

/-- HU, row by row (R198). -/
def hu4 (e : Edges) : List (List Byte) :=
  [[avg2 (e.l 0) (e.l 1), avg3 (e.l 0) (e.l 1) (e.l 2), avg2 (e.l 1) (e.l 2), avg3 (e.l 1) (e.l 2) (e.l 3)],
   [avg2 (e.l 1) (e.l 2), avg3 (e.l 1) (e.l 2) (e.l 3), avg2 (e.l 2) (e.l 3), avg3 (e.l 2) (e.l 3) (e.l 3)],
   [avg2 (e.l 2) (e.l 3), avg3 (e.l 2) (e.l 3) (e.l 3), e.l 3, e.l 3],
   [e.l 3, e.l 3, e.l 3, e.l 3]]

/-- `B[r][c]` of a 4×4 mode on its edges (R189 to R198). -/
def pred4 (m : SubMode) (e : Edges) (r c : Nat) : Byte :=
  match m with
  | .dc => dc4 e
  | .tm => trueMotion (e.l r) (e.a c) e.p
  | .ve => (ve4 e).getD c 0
  | .he => (he4 e).getD r 0
  | .ld => ld4 e r c
  | .rd => rd4 e r c
  | .vr => Scratch.at (vr4 e) r c
  | .vl => Scratch.at (vl4 e) r c
  | .hd => Scratch.at (hd4 e) r c
  | .hu => Scratch.at (hu4 e) r c

/-- `PRED4(mode, x0, y0)`: the sixteen values come from the edges as they stand before it writes (section 4). -/
def predSub (m : SubMode) (y0 x0 : Nat) (ws : Scratch) : Scratch :=
  let e := ws.edges y0 x0
  ws.region y0 x0 4 fun r c _ => pred4 m e r c

/-- `ADD_RESIDUE(ws, x0, y0, res)` (R199). -/
def addResidue (y0 x0 : Nat) (res : Block) (ws : Scratch) : Scratch :=
  ws.region y0 x0 4 fun r c p => clip255 (px p + res.entry (4 * r + c))

end Sys2Proof.Machine
end

