-- ==== Sys2Proof/Machine/PredictCmds.lean ====
section
/-! DEFINITION. The intra prediction commands PRED_LUMA and PRED_CHROMA (spec/43_intra_pred.md R200 to R207). -/

namespace Sys2Proof.Machine

/-! ### PRED_LUMA -/

/-- The state checks of PRED_LUMA in order (R200). -/
def predLumaChecks (s : State) : List (Bool × FaultCode) :=
  [(s.noFrame, .noFrame), (s.noMb, .noMb), (s.mbflags.lumaDone, .order), (!s.curmb.skip && !s.idctAllDone 0 16, .order)]

/-- Residue of luma block `i` added to its place (R199, R200). -/
def addLumaResidue (s : State) (ws : Scratch) (i : Nat) : Scratch :=
  addResidue (1 + 4 * lumaRow i) (1 + 4 * lumaCol i) (s.coefBlock i) ws

/-- Subblock `i` predicted with `bpred[i]` and its residue added (R200). -/
def reconSub (s : State) (ws : Scratch) (i : Nat) : Scratch :=
  addLumaResidue s (predSub (s.bpred.getD i .dc) (1 + 4 * lumaRow i) (1 + 4 * lumaCol i) ws) i

/-- The luma scratch after prediction and residue, from the scratch `ws` of R180: subblock by subblock for B, the whole
16×16 prediction first for the other modes (R200). -/
def reconLuma (s : State) (mbx mby : Nat) (ws : Scratch) : Scratch :=
  match bigOfLuma s.curmb.lmode with
  | none => (List.range 16).foldl (reconSub s) ws
  | some m => (List.range 16).foldl (addLumaResidue s) (predN m 4 mbx mby ws)

/-- The luma scratch LUMA_WRITEBACK copies out of (R200). -/
def State.lumaScratch (s : State) : Scratch :=
  reconLuma s s.curmb.mbx.toNat s.curmb.mby.toNat (buildLuma s s.curmb.mbx.toNat s.curmb.mby.toNat)

/-- The pixels a macroblock of side `n` at `(mbx, mby)` writes into plane `p`, clipped to the plane, row by row, each with
its scratch byte (R201, R202, R206, R207). -/
def planeStores (s : State) (p : Plane) (n mbx mby : Nat) (ws : Scratch) : List Host.Cell :=
  (List.range (min n (s.planeHeight p - n * mby))).flatMap fun r =>
    (List.range (min n (s.planeWidth p - n * mbx))).map fun c =>
      (s.pixelIndex p (n * mbx + c) (n * mby + r), ws.at (1 + r) (1 + c))

/-- The left border of a macroblock of side `n` after its write-back: the corner, then the right column (R201, R206). -/
def leftStores (n : Nat) (ws : Scratch) : List Host.Cell :=
  (0, ws.at 0 n) :: (List.range n).map fun r => (1 + r, ws.at (1 + r) n)

/-- The bottom row of a macroblock of side `n` into the top border (R201, R206). -/
def topStores (n mbx : Nat) (ws : Scratch) : List Host.Cell :=
  (List.range n).map fun c => (n * mbx + c, ws.at n (1 + c))

/-- The write-back of a macroblock of side `n` (R201, R206). -/
def writeBack (s : State) (p : Plane) (top left : ByteSpace) (n mbx mby : Nat) (ws : Scratch) (m : Memory) : Memory :=
  ((m.writeAll left (leftStores n ws)).writeAll top (topStores n mbx ws)).writeAll p.space (planeStores s p n mbx mby ws)

/-- The state after PRED_LUMA (R200). -/
def State.doPredLuma (s : State) : State :=
  { s with
    mem := writeBack s .y .topY .leftY 16 s.curmb.mbx.toNat s.curmb.mby.toNat s.lumaScratch s.mem
    mbflags := { s.mbflags with lumaDone := true } }

/-- The highest index of `TOPY` that R180 reads or R201 writes. -/
def State.lumaTopReach (s : State) : Nat :=
  16 * s.curmb.mbx.toNat + (if s.curmb.mby.toNat = 0 ∨ s.curmb.mbx.toNat = s.mbw - 1 then 15 else 19)

/-- PRED_LUMA (R200). A `TOPY` index beyond the array stops the model (R69, entry 7). -/
def execPredLuma (s : State) : Result :=
  command .predLuma predLumaChecks
    (fun s => if s.lumaTopReach < s.byteLength .topY then .next s.doPredLuma
      else .fault (.outOfSpace (.byte .topY) s.lumaTopReach)) s

/-! ### PRED_CHROMA -/

/-- The state checks of PRED_CHROMA in order (R205). -/
def predChromaChecks (s : State) : List (Bool × FaultCode) :=
  [(s.noFrame, .noFrame), (s.noMb, .noMb), (s.mbflags.chromaDone, .order), (!s.curmb.skip && !s.idctAllDone 16 8, .order)]

/-- Residue of chroma block `base + j` added to its place (R205). -/
def addChromaResidue (s : State) (base : Nat) (ws : Scratch) (j : Nat) : Scratch :=
  addResidue (1 + 4 * chromaRow j) (1 + 4 * chromaCol j) (s.coefBlock (base + j)) ws

/-- The chroma scratch CHROMA_WRITEBACK copies out of (R205). -/
def State.chromaScratch (s : State) (top left : ByteSpace) (base : Nat) : Scratch :=
  (List.range 4).foldl (addChromaResidue s base)
    (predN (bigOfChroma s.curmb.cmode) 3 s.curmb.mbx.toNat s.curmb.mby.toNat
      (buildChroma s top left s.curmb.mbx.toNat s.curmb.mby.toNat))

/-- One plane's share of PRED_CHROMA on memory `m`: U and V read and write disjoint state (R205). -/
def chromaPlane (s : State) (p : Plane) (top left : ByteSpace) (base : Nat) (m : Memory) : Memory :=
  writeBack s p top left 8 s.curmb.mbx.toNat s.curmb.mby.toNat (s.chromaScratch top left base) m

/-- The state after PRED_CHROMA (R205). -/
def State.doPredChroma (s : State) : State :=
  { s with
    mem := chromaPlane s .v .topV .leftV 20 (chromaPlane s .u .topU .leftU 16 s.mem)
    mbflags := { s.mbflags with chromaDone := true } }

/-- The highest index of `TOPU` and `TOPV` that R181 reads or R206 writes. -/
def State.chromaTopReach (s : State) : Nat := 8 * s.curmb.mbx.toNat + 7

/-- PRED_CHROMA (R205). A `TOPU` index beyond the array stops the model (R69, entry 7). -/
def execPredChroma (s : State) : Result :=
  command .predChroma predChromaChecks
    (fun s => if s.chromaTopReach < s.byteLength .topU then .next s.doPredChroma
      else .fault (.outOfSpace (.byte .topU) s.chromaTopReach)) s

end Sys2Proof.Machine
end

