-- ==== Sys2Proof/Machine/ResidualCmds.lean ====
section
/-! DEFINITION. The residual commands COEF, IWHT and IDCT (spec/42_residual.md). -/

namespace Sys2Proof.Machine

/-- The state checks of COEF in order (R150). -/
def coefChecks (blk zz : Nat) (s : State) : List (Bool × FaultCode) :=
  [(s.noFrame, .noFrame),
   (s.noMb, .noMb),
   (s.curmb.skip, .skipped),
   (decide (blk = 24) && s.isB, .mode),
   (decide (blk < 16) && !s.isB && decide (zz = 0), .mode),
   (decide (blk = 24) && s.mbflags.whtDone, .order),
   (decide (blk < 24) && s.idctDoneAt blk, .order)]

/-- The value COEF stores: `wrap32(VAL * q)` with the factor of the block, the position and the open macroblock's segment
(R150, R153). -/
def dequantized (s : State) (blk zz : Nat) (val : BitVec 16) : Coef :=
  wrap32 (val.toInt * (dqFactor blk zz (s.quantRow s.curmb.segid)).toInt)

/-- COEF (R150). -/
def execCoef (blk : BitVec 5) (zz : BitVec 4) (val : BitVec 16) (s : State) : Result :=
  command (.coef blk zz val) (coefChecks blk.toNat zz.toNat)
    (fun s => .next (s.setCoef blk.toNat (zigzag zz.toNat) (dequantized s blk.toNat zz.toNat val))) s

/-- The state checks of IWHT in order (R155). -/
def iwhtChecks (s : State) : List (Bool × FaultCode) :=
  [(s.noFrame, .noFrame), (s.noMb, .noMb), (s.curmb.skip, .skipped), (s.isB, .mode),
   (s.mbflags.whtDone || s.idctAnyDone 0 16, .order)]

/-- `COEF[k][0] <- COEF[24][k]` for `k` in 0..16, where `COEF[24]` holds the transform's output (R155, R157). -/
def scatter (out : Block) (coef : Vector Block 25) : Vector Block 25 :=
  Vector.ofFn fun b => if b.val < 16 then (coef[b.val]).set 0 (out.getD b.val 0) else if b.val = 24 then out else coef[b.val]

/-- The state after IWHT (R155). -/
def State.doIwht (s : State) : State :=
  { s with
    coef := scatter (iwht4 (s.coefBlock 24)) s.coef
    mbflags := { s.mbflags with whtDone := true } }

/-- IWHT (R155). -/
def execIwht (s : State) : Result := command .iwht iwhtChecks (fun s => .next s.doIwht) s

/-- The state checks of IDCT in order (R158). -/
def idctChecks (blk : Nat) (s : State) : List (Bool × FaultCode) :=
  [(s.noFrame, .noFrame),
   (s.noMb, .noMb),
   (s.curmb.skip, .skipped),
   (s.idctDoneAt blk, .order),
   (decide (blk < 16) && !s.isB && !s.mbflags.whtDone, .order)]

/-- IDCT (R158). -/
def execIdct (blk : BitVec 5) (s : State) : Result :=
  command (.idct blk) (idctChecks blk.toNat)
    (fun s => .next ((s.setCoefBlock blk.toNat (idct4 (s.coefBlock blk.toNat))).setIdctDone blk.toNat)) s

end Sys2Proof.Machine
end

