-- ==== Sys2Proof/Machine/Dispatch.lean ====
section
/-! DEFINITION. One arm per command: its meaning. -/

namespace Sys2Proof.Machine

/-- The effect of one command on the state (spec/30_encoding.md R84 names the rule of each). -/
def exec (i : Instr) (s : State) : Host.Outcome State Fault Refusal :=
  match i with
  | .nop => Sys2Proof.Machine.execNop s
  | .cfgFrame w h => Sys2Proof.Machine.execCfgFrame w h s
  | .cfgFilter type level sharp => Sys2Proof.Machine.execCfgFilter type level sharp s
  | .cfgSegctl segEn mdelta => Sys2Proof.Machine.execCfgSegctl segEn mdelta s
  | .cfgSeg seg dv qlvl lflvl => Sys2Proof.Machine.execCfgSeg seg dv qlvl lflvl s
  | .cfgSegq seg fsel qval => Sys2Proof.Machine.execCfgSegq seg fsel qval s
  | .qderive seg yac dydc dy2dc dy2ac duvdc duvac => Sys2Proof.Machine.execQderive seg yac dydc dy2dc dy2ac duvdc duvac s
  | .mbBegin mbx mby lmode cmode segid skip => Sys2Proof.Machine.execMbBegin mbx mby lmode cmode segid skip s
  | .bpred half m0 m1 m2 m3 m4 m5 m6 m7 => Sys2Proof.Machine.execBpred half m0 m1 m2 m3 m4 m5 m6 m7 s
  | .coef blk zz val => Sys2Proof.Machine.execCoef blk zz val s
  | .iwht => Sys2Proof.Machine.execIwht s
  | .idct blk => Sys2Proof.Machine.execIdct blk s
  | .predLuma => Sys2Proof.Machine.execPredLuma s
  | .predChroma => Sys2Proof.Machine.execPredChroma s
  | .mbEnd => Sys2Proof.Machine.execMbEnd s
  | .lfMb mbx mby => Sys2Proof.Machine.execLfMb mbx mby s
  | .lfFrame => Sys2Proof.Machine.execLfFrame s
  | .reset => Sys2Proof.Machine.execReset s

end Sys2Proof.Machine
end

