-- ==== Sys2Proof/Machine/Port.lean ====
section
/-! DEFINITION. The ports of VP8R: the command port, the host reads and writes with the register layout, and the external
reset input (spec/20_memory.md R61 to R63, R68; spec/10_state.md R22, R38; spec/70_reset_and_hazards.md R310). -/

namespace Sys2Proof.Machine

/-! ### The register port -/

/-- A host word with each value placed at its field's low bit (R22). -/
def hostWord (fields : List (Nat × Nat)) : HostWord := BitVec.ofNat 32 ((fields.map fun f => f.2 * 2 ^ f.1).sum)

/-- `STATUS` (R22). -/
def State.statusWord (s : State) : HostWord :=
  hostWord [(0, s.status.fault.toNat), (1, s.status.frameValid.toNat), (2, s.status.mbOpen.toNat), (4, s.phase.code), (8, s.status.fcode.code)]

/-- `FRAME` (R22). -/
def State.frameWord (s : State) : HostWord := hostWord [(0, s.height), (16, s.width)]

/-- `FRAME_MB` (R22, R26). -/
def State.frameMbWord (s : State) : HostWord := hostWord [(0, s.mbh), (16, s.mbw)]

/-- `FILTER` (R22). -/
def State.filterWord (s : State) : HostWord :=
  hostWord [(0, s.filter.sharp.toNat), (8, s.filter.level.toNat), (16, s.filter.simple.toNat)]

/-- `SEGCTL` (R22). -/
def State.segctlWord (s : State) : HostWord := hostWord [(0, s.segctl.mdelta0.toNat), (16, s.segctl.segEn.toNat)]

/-- `SEG[n]` (R22). -/
def State.segWord (s : State) (n : BitVec 2) : HostWord :=
  hostWord [(0, (s.segReg n).lflvl.toNat), (8, (s.segReg n).qlvl.toNat), (24, (s.segReg n).dv.toNat)]

/-- `SEGQ[n][f]`: the factor with sign copies of bit 15 above it (R22). -/
def State.segqWord (s : State) (n : BitVec 2) (f : Factor) : HostWord := ((s.quantRow n).get f).signExtend 32

/-- `CURMB` (R22). -/
def State.curmbWord (s : State) : HostWord :=
  hostWord [(0, s.curmb.mbx.toNat), (10, s.curmb.mby.toNat), (20, s.curmb.lmode.code), (24, s.curmb.cmode.code),
    (28, s.curmb.segid.toNat), (31, s.curmb.skip.toNat)]

/-- `MBFLAGS` (R22). -/
def State.mbflagsWord (s : State) : HostWord :=
  hostWord [(0, s.mbflags.whtDone.toNat), (1, s.mbflags.lumaDone.toNat), (2, s.mbflags.chromaDone.toNat)]

/-- `BPRED_LO` (`half` 0) and `BPRED_HI` (`half` 1): `[4k+3:4k]` is `bpred[8*half + k]` (R22, R34). -/
def State.bpredWord (s : State) (half : Nat) : HostWord :=
  hostWord ((List.range 8).map fun k => (4 * k, (s.bpred.getD (8 * half + k) .dc).code))

/-- An entry of `MBINFO` as a word (R38). -/
def MbInfo.word (m : MbInfo) : HostWord := hostWord [(0, m.lmode.code), (8, m.segid.toNat), (16, m.skip.toNat)]

/-- The factor file's registers: number `0x10 + 6*n + f` (R22). -/
def State.segqAt (s : State) (k : Nat) : Option HostWord := (factorOf (k % 6)).map fun f => s.segqWord (BitVec.ofNat 2 (k / 6)) f

/-- The register map; `none` for an unassigned number (R22). -/
def State.register (s : State) (n : Nat) : Option HostWord :=
  if n = 0x00 then some s.statusWord
  else if n = 0x01 then some s.fcmdLo
  else if n = 0x02 then some s.fcmdHi
  else if n = 0x03 then some s.frameWord
  else if n = 0x04 then some s.frameMbWord
  else if n = 0x05 then some s.filterWord
  else if n = 0x06 then some s.segctlWord
  else if 0x08 ≤ n ∧ n < 0x0C then some (s.segWord (BitVec.ofNat 2 (n - 0x08)))
  else if 0x10 ≤ n ∧ n < 0x28 then s.segqAt (n - 0x10)
  else if n = 0x30 then some (hostWord [(0, s.mbcur.toNat)])
  else if n = 0x31 then some (hostWord [(0, s.lfcur.toNat)])
  else if n = 0x32 then some s.curmbWord
  else if n = 0x33 then some s.mbflagsWord
  else if n = 0x34 then some (hostWord [(0, s.idctDone.toNat)])
  else if n = 0x35 then some (s.bpredWord 0)
  else if n = 0x36 then some (s.bpredWord 1)
  else none

/-! ### Host accesses -/

/-- The unit at index `i` of a space, `none` where the index is out of range or the register unassigned (R60, R62). -/
def State.unitAt (s : State) (sp : Space) (i : Nat) : Option HostWord :=
  if i < s.spaceLength sp then
    match sp with
    | .reg => s.register i
    | .byte b => some ((s.mem.read b i).setWidth 32)
    | .coefs => some (s.coefAt (i / 16) (i % 16))
    | .mbinfo => some (s.mbInfoAt i).word
  else none

/-- `HostRead(space, i)` (R62), with the error response of R68. -/
def hostRead (sp : Space) (i : Nat) (s : State) : HostResponse :=
  match s.unitAt sp i with
  | some v => .data v
  | none => .hostErr

/-- The byte space a host may write: the planes (R63). -/
def writable : Space → Option ByteSpace
  | .byte .y => some .y
  | .byte .u => some .u
  | .byte .v => some .v
  | _ => none

/-- `HostWrite(space, i, v)` (R63): byte `i` of a plane becomes `v[7:0]`; anything else is the error response and changes
nothing (R68). -/
def hostWrite (sp : Space) (i : Nat) (v : HostWord) (s : State) : HostResponse × State :=
  match writable sp with
  | some b => if i < s.spaceLength sp then (.written, { s with mem := s.mem.write b i (v.setWidth 8) }) else (.hostErr, s)
  | none => (.hostErr, s)

/-- The response given to the host. -/
def State.respond (s : State) (r : HostResponse) : State := { s with outbox := s.outbox ++ [r] }

/-! ### The command port -/

/-- VP8R takes one command word (R61): while `STATUS.FAULT = 1` a word that is not RESET's is discarded without decoding
(R283); otherwise it is decoded (R81), and runs or raises its decode fault (R282). -/
def takeWord (w : CmdWord) (s : State) : Result :=
  if s.status.fault && decide (field w 63 56 ≠ 0xFF) then .next s
  else
    match decode w with
    | .ok i => exec i s
    | .error e => .next (s.raise (decodeFault e) w)

/-- One host action, taken whole (R66, R71); the reset input is taken whole too, between two others (R310, entry 14). -/
def serve (a : HostAction) (s : State) : Result :=
  match a with
  | .command w => takeWord w s
  | .read sp i => .next (s.respond (hostRead sp i s))
  | .write sp i v => .next ((hostWrite sp i v s).2.respond (hostWrite sp i v s).1)
  | .reset => .next s.resetRegs

/-- The host's oldest pending action is taken and served; with none pending VP8R keeps all its state (R294, entry 3). A reset input is
served after the actions queued before it. DESIGN CHOICE, unsafe (entry 14). -/
def takeNext (s : State) : Result :=
  match s.inbox with
  | [] => .next s
  | a :: rest => serve a { s with inbox := rest }

/-- The host issues an action: it joins the end of the queue (R61, R71). So does the external reset input, which takes effect after what
is pending. DESIGN CHOICE, unsafe (entry 14). -/
def hostIssue (a : HostAction) (s : State) : State := { s with inbox := s.inbox ++ [a] }

end Sys2Proof.Machine
end

