-- ==== Sys2Proof/Machine/Step.lean ====
section
/-! DEFINITION. One step: VP8R takes the host's oldest pending action. -/

namespace Sys2Proof.Machine

/-- One step of VP8R (spec/20_memory.md R61, R66, R71). -/
def step (s : State) : Host.Outcome State Fault Refusal := takeNext s

/-- The state with a command word next on the command port. The table gives every word 64 bits. VP8R has no instruction memory
(R21, R74): the word is one the host has written and VP8R takes first (entry 2). -/
def State.withFetchWord (s : State) (nbits w : Nat) : State :=
  { s with inbox := .command (BitVec.ofNat 64 (w % 2 ^ nbits)) :: s.inbox }

end Sys2Proof.Machine
end

