-- ==== Sys2Proof/Safety.lean ====
section
/-! DEFINITION. What a good state of VP8R is: the promises the spec makes of every state between commands. Each is a part of
`State.Inv`; reset meets them and every step keeps them (stated in Certificates/Slice0/Obligations.lean). -/

namespace Sys2Proof.Machine

/-- Memory and `MBINFO` are in canonical form. -/
def State.MemoryCanonical (s : State) : Prop := s.mem.wf ∧ Canonical MbInfo.zero s.mbinfo

/-- No listed index is at or beyond the length of its space (R60, R69). -/
def State.CellsInSpace (s : State) : Prop :=
  (∀ sp, ∀ c ∈ s.mem.cells sp, c.1 < s.spaceLength (.byte sp)) ∧ ∀ e ∈ s.mbinfo, e.1 < s.spaceLength .mbinfo

/-- The fault registers are as R23 and R24 say: `FCODE` and `FCMD` are zero while `FAULT = 0`, and a recorded fault has a code. -/
def State.FaultRecord (s : State) : Prop :=
  (s.status.fault = false → s.status.fcode = .none ∧ s.fcmdLo = 0 ∧ s.fcmdHi = 0) ∧
  (s.status.fault = true → s.status.fcode ≠ .none)

/-- `W` and `H` are 1..16383 while `FRAME_VALID = 1` and 0 otherwise, when no macroblock is open (R26, R41). -/
def State.FrameShape (s : State) : Prop :=
  (s.status.frameValid = true → 1 ≤ s.width ∧ 1 ≤ s.height) ∧
  (s.status.frameValid = false → s.frame = ⟨0, 0⟩ ∧ s.status.mbOpen = false)

/-- The cursors stay within the frame, filtering starts only after every macroblock is decoded, and the open macroblock is the
one at `MBCUR` (R31, R72, R131). -/
def State.Cursors (s : State) : Prop :=
  s.mbcur.toNat ≤ s.totalMb ∧ s.lfcur.toNat ≤ s.totalMb ∧
  (0 < s.lfcur.toNat → s.mbcur.toNat = s.totalMb) ∧
  (s.status.mbOpen = true →
    s.mbcur.toNat < s.totalMb ∧ s.curmb.mbx.toNat < s.mbw ∧ s.curmb.mby.toNat * s.mbw + s.curmb.mbx.toNat = s.mbcur.toNat)

/-- No signed field holds the value its command refuses (R28, R29, R42). -/
def State.FieldRanges (s : State) : Prop :=
  (-63 ≤ s.segctl.mdelta0.toInt ∧ s.segctl.mdelta0.toInt ≤ 63) ∧
  ∀ n : BitVec 2, -127 ≤ (s.segReg n).qlvl.toInt ∧ -63 ≤ (s.segReg n).lflvl.toInt

/-- At the start of a row the left borders hold 129 until the macroblock there is predicted (R36, R136, R182). -/
def State.LeftSeeded (s : State) : Prop :=
  s.mbcur.toNat % s.mbw = 0 →
    ((s.status.mbOpen = false ∨ s.mbflags.lumaDone = false) → s.mem.leftY = []) ∧
    ((s.status.mbOpen = false ∨ s.mbflags.chromaDone = false) → s.mem.leftU = [] ∧ s.mem.leftV = [])

/-- While a skipped macroblock is open the coefficient store is zero (R151). -/
def State.SkippedZero (s : State) : Prop :=
  s.status.mbOpen = true → s.curmb.skip = true → ∀ b k, s.coefAt b k = 0

/-- The order of the transforms of the open macroblock: where it has a Y2 block, no luma IDCT before IWHT (R155, R158, R320). -/
def State.TransformOrder (s : State) : Prop :=
  s.status.mbOpen = true → s.curmb.lmode ≠ .b → s.mbflags.whtDone = false → ∀ k, k < 16 → s.idctDoneAt k = false

/-- Everything the spec promises of a state between commands. -/
structure State.Inv (s : State) : Prop where
  memoryCanonical : s.MemoryCanonical
  cellsInSpace : s.CellsInSpace
  faultRecord : s.FaultRecord
  frameShape : s.FrameShape
  cursors : s.Cursors
  fieldRanges : s.FieldRanges
  leftSeeded : s.LeftSeeded
  skippedZero : s.SkippedZero
  transformOrder : s.TransformOrder

/-- A run is safe while its state is good and the next step neither faults nor is refused. -/
def State.Safe (s : State) : Prop := s.Inv ∧ ∃ t, step s = .next t

/-- The host keeps the command port within `CMD_QUEUE_DEPTH` (R10, R61). No rule depends on it. -/
def State.WithinQueueDepth (s : State) : Prop :=
  (s.inbox.countP fun a => match a with | .command _ => true | _ => false) ≤ Config.cmdQueueDepth

end Sys2Proof.Machine
end

