-- ==== Sys2Proof/Certificates/Slice0/Obligations.lean ====
section
/-! DEFINITION. The statements about VP8R, each from the numbered rules of spec/. They are stated here and proved elsewhere. -/

open Sys2Proof Sys2Proof.Machine

/-! ### Words the statements share -/

/-- No fault is recorded: `STATUS.FAULT = 0`. -/
abbrev Sys2Proof.Machine.Unfaulted (s : State) : Prop := s.status.fault = false

/-- The state fault entry leaves (R282): the code and the command word `w` recorded, nothing else changed. -/
def Sys2Proof.Machine.faultEntry (s : State) (code : FaultCode) (w : CmdWord) : State :=
  { s with
    status := { s.status with fault := true, fcode := code }
    fcmdLo := w.extractLsb' 0 32
    fcmdHi := w.extractLsb' 32 32 }

/-- A frame is configured and a macroblock is open: neither `NO_FRAME` nor `NO_MB` (R280). -/
abbrev Sys2Proof.Machine.InMb (s : State) : Prop := s.status.frameValid = true ∧ s.status.mbOpen = true

/-- `CURMB` names a macroblock of the frame; every state with the invariant and an open macroblock has it (R31, R131). -/
abbrev Sys2Proof.Machine.CurMbInFrame (s : State) : Prop := s.curmb.mbx.toNat < s.mbw ∧ s.curmb.mby.toNat < s.mbh

/-- The loop-filter commands pass their common checks: a configured frame, no open macroblock, decoding finished, filtering not
(R250, R252). -/
abbrev Sys2Proof.Machine.FilterReady (s : State) : Prop :=
  s.status.frameValid = true ∧ s.status.mbOpen = false ∧ s.totalMb ≤ s.mbcur.toNat ∧ s.lfcur.toNat < s.totalMb

/-- The factor of block `b` at zig-zag position `zz` from the segment row `q` (R150, R153). -/
def Sys2Proof.Machine.factorFor (q : QuantRow) (b zz : Nat) : BitVec 16 :=
  if zz = 0 then (if b = 24 then q.y2dc else if b < 16 then q.ydc else q.uvdc)
  else (if b = 24 then q.y2ac else if b < 16 then q.yac else q.uvac)

/-! ### Encoding -/

/-- Decoding an encoded well-formed command gives it back, with every operand at every value (R80 to R84). -/
def Obligations.DecodeOfEncode : Prop := ∀ i : Instr, i.wellFormed = true → decode (encode i) = .ok i

/-- Each accepted word has one meaning: a decoded command is well-formed and encodes to the very word it was read from, so no
bit of an accepted word is ignored (R80 to R84). -/
def Obligations.EncodeOfDecode : Prop :=
  ∀ (w : CmdWord) (i : Instr), decode w = .ok i → i.wellFormed = true ∧ encode i = w

/-- The words R86 writes out decode to the commands it names. -/
def Obligations.SpecWordsDecode : Prop :=
  decode 0x0100001000000010 = .ok (.cfgFrame 16 16) ∧
  decode 0x0200000000001400 = .ok (.cfgFilter false 20 0) ∧
  decode 0x030000000000007D = .ok (.cfgSegctl false (BitVec.ofInt 7 (-3))) ∧
  decode 0x040101000000FB0A = .ok (.cfgSeg 1 true (BitVec.ofInt 8 (-5)) 10) ∧
  decode 0x0500020000000008 = .ok (.cfgSegq 0 .y2dc 8) ∧
  decode 0x06000A0000000000 = .ok (.qderive 0 10 0 0 0 0 0) ∧
  decode 0x1000000100031001 = .ok (.mbBegin 1 0 .tm .v 0 true) ∧
  decode 0x1100000076543210 = .ok (.bpred false .dc .tm .ve .he .ld .rd .vr .vl) ∧
  decode 0x121800000000000A = .ok (.coef 24 0 10) ∧
  decode 0x120501000000FFFD = .ok (.coef 5 1 (BitVec.ofInt 16 (-3))) ∧
  decode 0x1405000000000000 = .ok (.idct 5) ∧
  decode 0x2000000100000000 = .ok (.lfMb 1 0) ∧
  decode 0xFF00000000000000 = .ok .reset

/-- R85: a word whose opcode byte is unassigned faults `ILLEGAL_OPCODE`, whatever its other bits. -/
def Obligations.IllegalOpcodeFaults : Prop :=
  ∀ (s : State) (w : CmdWord) (rest : List HostAction), Unfaulted s → s.inbox = .command w :: rest →
    ((0x07 ≤ field w 63 56 ∧ field w 63 56 ≤ 0x0F) ∨ (0x18 ≤ field w 63 56 ∧ field w 63 56 ≤ 0x1F) ∨
      (0x22 ≤ field w 63 56 ∧ field w 63 56 ≤ 0xFE)) →
    step s = .next (faultEntry { s with inbox := rest } .illegalOpcode w)

/-- R81, R82: a word with a legal opcode and any reserved bit of its format set faults `RESERVED_BITS`, whatever its fields. -/
def Obligations.ReservedBitFaults : Prop :=
  ∀ (s : State) (w : CmdWord) (rest : List HostAction) (op : Opcode) (hi lo n : Nat),
    Unfaulted s → s.inbox = .command w :: rest → opcodeOf (field w 63 56) = some op →
    (hi, lo) ∈ op.format.reserved → lo ≤ n → n ≤ hi → w.getLsbD n = true →
    step s = .next (faultEntry { s with inbox := rest } .reservedBits w)

/-- R83: a word with a legal opcode, its reserved bits clear and a field outside its static range faults `BAD_FIELD`: the range
checks on whole fields (through the encoder), and the codes of `LMODE`, of a 4×4 mode and of `FSEL` that name nothing. -/
def Obligations.OutOfRangeFieldFaults : Prop :=
  ∀ (s : State) (w : CmdWord) (rest : List HostAction), Unfaulted s → s.inbox = .command w :: rest →
    ((∃ i : Instr, i.wellFormed = false ∧ w = encode i) ∨
      (field w 63 56 = 0x10 ∧ reservedClear .mb w = true ∧ 4 < field w 18 16) ∨
      (field w 63 56 = 0x11 ∧ reservedClear .bp w = true ∧ ∃ k, k < 8 ∧ 9 < field w (4 * k + 3) (4 * k)) ∨
      (field w 63 56 = 0x05 ∧ reservedClear .sq w = true ∧ 5 < field w 42 40)) →
    step s = .next (faultEntry { s with inbox := rest } .badField w)

/-! ### Steps and faults -/

/-- A step takes the oldest word of the command port and runs the command it decodes to on the state with that word taken (R61; that
the port is a queue in the state is the model's choice, entry 1); with nothing pending a step changes nothing (R294, entry 3). -/
def Obligations.StepRunsDecodedCommand : Prop :=
  (∀ (s : State) (w : CmdWord) (rest : List HostAction) (i : Instr),
    s.inbox = .command w :: rest → decode w = .ok i → step s = exec i { s with inbox := rest }) ∧
  ∀ s : State, s.inbox = [] → step s = .next s

/-- R283: while `STATUS.FAULT = 1` every word but the RESET word itself is discarded, without effect and without a new fault;
a RESET word with a reserved bit set is discarded too. -/
def Obligations.FaultedWordsDiscarded : Prop :=
  ∀ (s : State) (w : CmdWord) (rest : List HostAction), s.status.fault = true → s.inbox = .command w :: rest →
    w ≠ 0xFF00000000000000 → step s = .next { s with inbox := rest }

/-- Every command but RESET leaves a faulted state as it is (R283). The second clause is the model's choice (entry 8): no word decodes
to a command with a field outside its range, and `exec` answers such a command with `BAD_FIELD` and records its encoding. -/
def Obligations.EveryCommandHonoursTheTemplate : Prop :=
  ∀ (i : Instr) (s : State), i ≠ .reset →
    (s.status.fault = true → exec i s = .next s) ∧
    (Unfaulted s → i.wellFormed = false → exec i s = .next (faultEntry s .badField (encode i)))

/-- R282: a word that raises a fault changes nothing but `STATUS.FAULT`, `STATUS.FCODE` and `FCMD`, which records that word. -/
def Obligations.FaultChangesOnlyFaultRegisters : Prop :=
  ∀ (s t : State) (w : CmdWord) (rest : List HostAction), Unfaulted s → s.inbox = .command w :: rest →
    step s = .next t → t.status.fault = true →
    ∃ code, code ≠ FaultCode.none ∧ t = faultEntry { s with inbox := rest } code w

/-- R287, R312: only the RESET command and the reset input leave the faulted state; every other host action keeps the recorded
fault and the recorded word. -/
def Obligations.FaultIsSticky : Prop :=
  ∀ (s t : State) (a : HostAction) (rest : List HostAction), s.status.fault = true → s.inbox = a :: rest →
    a ≠ .reset → a ≠ .command 0xFF00000000000000 → step s = .next t →
    t.status = s.status ∧ t.fcmdLo = s.fcmdLo ∧ t.fcmdHi = s.fcmdHi

/-! ### Configuration -/

/-- R101: NOP changes nothing; the all-zero word is NOP, and a word of its opcode with any other bit set is refused. -/
def Obligations.NopChangesNothing : Prop :=
  (∀ s : State, exec .nop s = .next s) ∧ decode 0 = .ok .nop ∧
  ∀ w : CmdWord, field w 63 56 = 0 → w ≠ 0 → decode w = .error .reservedBits

/-- R102: RESET, faulted or not, clears every register, empties the planes, the borders and `MBINFO`, and zeroes the coefficient
store. That the words still queued on the port and the responses already given stay is the model's choice (entry 5); the parameters the
machine is built with stay too (R10, entry 10). -/
def Obligations.ResetClearsEveryRegister : Prop :=
  ∀ s : State, ∃ t, exec .reset s = .next t ∧
    t.status = ⟨false, false, false, .none⟩ ∧ t.fcmdLo = 0 ∧ t.fcmdHi = 0 ∧ t.frame = ⟨0, 0⟩ ∧
    t.filter = ⟨false, 0, 0⟩ ∧ t.segctl = ⟨false, 0⟩ ∧
    (∀ n, t.segReg n = ⟨false, 0, 0⟩) ∧ (∀ n f, (t.quantRow n).get f = 0) ∧
    t.mbcur = 0 ∧ t.lfcur = 0 ∧ t.curmb = ⟨0, 0, .dc, .dc, 0, false⟩ ∧ t.mbflags = ⟨false, false, false⟩ ∧ t.idctDone = 0 ∧
    (∀ k : Fin 16, t.bpred[k] = .dc) ∧ (∀ b k, t.coefAt b k = 0) ∧
    (∀ b, t.spaceLength (.byte b) = 0) ∧ t.spaceLength .mbinfo = 0 ∧
    t.inbox = s.inbox ∧ t.outbox = s.outbox ∧ t.params = s.params

/-- R103: CFG_FRAME starts a frame: its size and the lengths of its spaces, the seeds of planes and borders, everything the open
macroblock had cleared; the filter, segment and quantizer registers are not changed. -/
def Obligations.CfgFrameStartsFrame : Prop :=
  ∀ (w h : BitVec 14) (s : State), Unfaulted s → 1 ≤ w.toNat → 1 ≤ h.toNat →
    ∃ t, exec (.cfgFrame w h) s = .next t ∧
      t.frame = ⟨w, h⟩ ∧ t.status = { s.status with frameValid := true, mbOpen := false } ∧ t.mbcur = 0 ∧ t.lfcur = 0 ∧
      t.spaceLength (.byte .y) = w.toNat * h.toNat ∧
      t.spaceLength (.byte .u) = ((w.toNat + 1) / 2) * ((h.toNat + 1) / 2) ∧
      t.spaceLength (.byte .v) = ((w.toNat + 1) / 2) * ((h.toNat + 1) / 2) ∧
      t.spaceLength (.byte .topY) = w.toNat + 20 ∧ t.spaceLength (.byte .leftY) = 17 ∧
      t.spaceLength (.byte .topU) = 8 * ((w.toNat + 15) / 16) ∧ t.spaceLength (.byte .topV) = 8 * ((w.toNat + 15) / 16) ∧
      t.spaceLength (.byte .leftU) = 9 ∧ t.spaceLength (.byte .leftV) = 9 ∧
      t.spaceLength .mbinfo = ((w.toNat + 15) / 16) * ((h.toNat + 15) / 16) ∧
      (∀ i, t.mem.read .y i = 0 ∧ t.mem.read .u i = 0 ∧ t.mem.read .v i = 0) ∧
      (∀ i, t.mem.read .topY i = 127 ∧ t.mem.read .topU i = 127 ∧ t.mem.read .topV i = 127) ∧
      (∀ i, t.mem.read .leftY i = 129 ∧ t.mem.read .leftU i = 129 ∧ t.mem.read .leftV i = 129) ∧
      (∀ i, t.mbInfoAt i = ⟨.dc, 0, false⟩) ∧
      t.curmb = ⟨0, 0, .dc, .dc, 0, false⟩ ∧ t.mbflags = ⟨false, false, false⟩ ∧ t.idctDone = 0 ∧
      (∀ k : Fin 16, t.bpred[k] = .dc) ∧ (∀ b k, t.coefAt b k = 0) ∧
      t.filter = s.filter ∧ t.segctl = s.segctl ∧ t.seg = s.seg ∧ t.segq = s.segq ∧
      t.fcmdLo = s.fcmdLo ∧ t.fcmdHi = s.fcmdHi ∧ t.inbox = s.inbox ∧ t.outbox = s.outbox ∧ t.params = s.params

/-- R104, R105: CFG_FILTER and CFG_SEGCTL write their register and nothing else; `MDELTA0` holds the signed value of `MDELTA`. -/
def Obligations.FilterAndSegctlCommandsWriteTheirRegister : Prop :=
  (∀ (type : Bool) (level : BitVec 6) (sharp : BitVec 3) (s : State), Unfaulted s →
    exec (.cfgFilter type level sharp) s = .next { s with filter := ⟨type, level, sharp⟩ }) ∧
  (∀ (segEn : Bool) (mdelta : BitVec 7) (s : State), Unfaulted s → -63 ≤ mdelta.toInt →
    ∃ t, exec (.cfgSegctl segEn mdelta) s = .next t ∧ t = { s with segctl := t.segctl } ∧
      t.segctl.segEn = segEn ∧ t.segctl.mdelta0.toInt = mdelta.toInt)

/-- R106, R107: CFG_SEG and CFG_SEGQ write the registers of the segment they name (CFG_SEGQ one factor, unclamped) and nothing
else. -/
def Obligations.SegmentCommandsWriteTheirSegment : Prop :=
  (∀ (seg : BitVec 2) (dv : Bool) (qlvl : BitVec 8) (lflvl : BitVec 7) (s : State),
    Unfaulted s → -127 ≤ qlvl.toInt → -63 ≤ lflvl.toInt →
    ∃ t, exec (.cfgSeg seg dv qlvl lflvl) s = .next t ∧ t = { s with seg := t.seg } ∧
      t.segReg seg = ⟨dv, qlvl, lflvl⟩ ∧ ∀ n, n ≠ seg → t.segReg n = s.segReg n) ∧
  (∀ (seg : BitVec 2) (fsel : Factor) (qval : BitVec 16) (s : State), Unfaulted s →
    ∃ t, exec (.cfgSegq seg fsel qval) s = .next t ∧ t = { s with segq := t.segq } ∧
      (t.quantRow seg).get fsel = qval ∧ (∀ f, f ≠ fsel → (t.quantRow seg).get f = (s.quantRow seg).get f) ∧
      ∀ n, n ≠ seg → t.quantRow n = s.quantRow n)

/-- R108, R110 to R113: under whatever tables the machine is built with (R10; that they stand in the state is the model's choice, entry
10), QDERIVE writes the six factors of its segment from the clamped index into the two tables, with the post-clamp, as exact integers, and
nothing else. `Y2DC` and `Y2AC` are exact where the spec states them: where the result fits an `i16` and the dividend is not negative
(else a free value, entry 13); the entries of R114 (general knowledge, entry 11) are such. -/
def Obligations.QderiveFactors : Prop :=
  ∀ (seg : BitVec 2) (yac : BitVec 7) (dydc dy2dc dy2ac duvdc duvac : BitVec 5) (s : State), Unfaulted s →
    (∀ d ∈ [dydc, dy2dc, dy2ac, duvdc, duvac], -15 ≤ d.toInt) →
    let base : Int :=
      if s.segctl.segEn = true ∧ (s.segReg seg).dv = true then (s.segReg seg).qlvl.toInt + yac.toNat
      else if s.segctl.segEn = true then (s.segReg seg).qlvl.toInt else yac.toNat
    let entry := fun (table : Vector (BitVec 16) 128) (i : Int) =>
      (table.toList.getD (if i < 0 then 0 else if 127 < i then 127 else i).toNat 0).toInt
    let dc := entry s.params.dcQuant
    let ac := entry s.params.acQuant
    (∃ t, exec (.qderive seg yac dydc dy2dc dy2ac duvdc duvac) s = .next t ∧ t = { s with segq := t.segq } ∧
      (t.quantRow seg).ydc.toInt = dc (base + dydc.toInt) ∧
      (t.quantRow seg).yac.toInt = ac base ∧
      (-32768 ≤ dc (base + dy2dc.toInt) * 2 → dc (base + dy2dc.toInt) * 2 ≤ 32767 →
        (t.quantRow seg).y2dc.toInt = dc (base + dy2dc.toInt) * 2) ∧
      (0 ≤ ac (base + dy2ac.toInt) → ac (base + dy2ac.toInt) * 155 / 100 ≤ 32767 →
        (t.quantRow seg).y2ac.toInt = max (ac (base + dy2ac.toInt) * 155 / 100) 8) ∧
      (t.quantRow seg).uvdc.toInt = min (dc (base + duvdc.toInt)) 132 ∧
      (t.quantRow seg).uvac.toInt = ac (base + duvac.toInt) ∧
      ∀ n, n ≠ seg → t.quantRow n = s.quantRow n) ∧
    (s.params.dcQuant = Config.dcQuantTable → ∀ i, 4 ≤ dc i ∧ dc i ≤ 157) ∧
    (s.params.acQuant = Config.acQuantTable → ∀ i, 4 ≤ ac i ∧ ac i ≤ 284)

/-- R112: after QDERIVE `Y2AC ≥ 8` and `UVDC ≤ 132`, whatever tables the machine is built with (entries 10, 13); with the tables of R114,
their default values (general knowledge, entry 11), every factor lies in 4..440 (R113). -/
def Obligations.QderiveFactorBounds : Prop :=
  ∀ (seg : BitVec 2) (yac : BitVec 7) (dydc dy2dc dy2ac duvdc duvac : BitVec 5) (s t : State), Unfaulted s →
    Instr.wellFormed (.qderive seg yac dydc dy2dc dy2ac duvdc duvac) = true →
    exec (.qderive seg yac dydc dy2dc dy2ac duvdc duvac) s = .next t →
    8 ≤ (t.quantRow seg).y2ac.toInt ∧ (t.quantRow seg).uvdc.toInt ≤ 132 ∧
    (s.params.dcQuant = Config.dcQuantTable → s.params.acQuant = Config.acQuantTable →
      ∀ f, 4 ≤ ((t.quantRow seg).get f).toInt ∧ ((t.quantRow seg).get f).toInt ≤ 440)

/-! ### Macroblocks -/

/-- R131: MB_BEGIN at the coordinates of `MBCUR` opens the macroblock: `CURMB` holds its record, its flags are clear, its
subblock modes are DC and the coefficient store is zero; nothing else changes. -/
def Obligations.MbBeginOpensMacroblock : Prop :=
  ∀ (mbx mby : BitVec 10) (lmode : LumaMode) (cmode : ChromaMode) (segid : BitVec 2) (skip : Bool) (s : State),
    Unfaulted s → s.status.frameValid = true → s.status.mbOpen = false → s.mbcur.toNat ≠ s.totalMb →
    mbx.toNat < s.mbw → mby.toNat * s.mbw + mbx.toNat = s.mbcur.toNat →
    ∃ t, exec (.mbBegin mbx mby lmode cmode segid skip) s = .next t ∧
      t = { s with
        status := { s.status with mbOpen := true }, curmb := ⟨mbx, mby, lmode, cmode, segid, skip⟩,
        mbflags := ⟨false, false, false⟩, idctDone := 0, bpred := t.bpred, coef := t.coef } ∧
      (∀ k : Fin 16, t.bpred[k] = .dc) ∧ ∀ b k, t.coefAt b k = 0

/-- R133: BPRED writes the eight subblock modes of its half and nothing else. -/
def Obligations.BpredWritesHalf : Prop :=
  ∀ (half : Bool) (m0 m1 m2 m3 m4 m5 m6 m7 : SubMode) (s : State),
    Unfaulted s → InMb s → s.curmb.lmode = .b → s.mbflags.lumaDone = false →
    ∃ t, exec (.bpred half m0 m1 m2 m3 m4 m5 m6 m7) s = .next t ∧ t = { s with bpred := t.bpred } ∧
      ∀ k : Fin 16, t.bpred[k] =
        if half = false ∧ k.val < 8 then [m0, m1, m2, m3, m4, m5, m6, m7].getD k.val .dc
        else if half = true ∧ 8 ≤ k.val then [m0, m1, m2, m3, m4, m5, m6, m7].getD (k.val - 8) .dc
        else s.bpred[k]

/-- R135, R136: MB_END stores the record of the macroblock it closes at `MBCUR`, advances the cursor, and where the macroblock
was the last of its row reseeds every byte of the left borders to 129; nothing else changes. -/
def Obligations.MbEndClosesMacroblock : Prop :=
  ∀ s : State, Unfaulted s → InMb s → s.mbflags.lumaDone = true → s.mbflags.chromaDone = true →
    s.MemoryCanonical → s.mbcur.toNat < s.totalMb →
    ∃ t, exec .mbEnd s = .next t ∧
      t = { s with
        status := { s.status with mbOpen := false }, mbcur := t.mbcur, mbinfo := t.mbinfo, mem := t.mem } ∧
      t.mbcur.toNat = s.mbcur.toNat + 1 ∧
      t.mbInfoAt s.mbcur.toNat = ⟨s.curmb.lmode, s.curmb.segid, s.curmb.skip⟩ ∧
      (∀ i, i ≠ s.mbcur.toNat → t.mbInfoAt i = s.mbInfoAt i) ∧
      (s.curmb.mbx.toNat ≠ s.mbw - 1 → t.mem = s.mem) ∧
      (s.curmb.mbx.toNat = s.mbw - 1 →
        (∀ i, t.mem.read .leftY i = 129 ∧ t.mem.read .leftU i = 129 ∧ t.mem.read .leftV i = 129) ∧
        ∀ sp, sp ≠ .leftY → sp ≠ .leftU → sp ≠ .leftV → ∀ i, t.mem.read sp i = s.mem.read sp i)

/-- R284, R285, R131, R133, R135: the state checks of MB_BEGIN, BPRED and MB_END in their order of priority. -/
def Obligations.MacroblockFaultPriority : Prop :=
  (∀ (mbx mby : BitVec 10) (lmode : LumaMode) (cmode : ChromaMode) (segid : BitVec 2) (skip : Bool) (s : State), Unfaulted s →
    let i := Instr.mbBegin mbx mby lmode cmode segid skip
    (s.status.frameValid = false → exec i s = .next (faultEntry s .noFrame (encode i))) ∧
    (s.status.frameValid = true → s.status.mbOpen = true → exec i s = .next (faultEntry s .mbOpen (encode i))) ∧
    (s.status.frameValid = true → s.status.mbOpen = false → s.mbcur.toNat = s.totalMb →
      exec i s = .next (faultEntry s .frameDone (encode i))) ∧
    (s.status.frameValid = true → s.status.mbOpen = false → s.mbcur.toNat ≠ s.totalMb →
      (s.mbw ≤ mbx.toNat ∨ mby.toNat * s.mbw + mbx.toNat ≠ s.mbcur.toNat) →
      exec i s = .next (faultEntry s .order (encode i)))) ∧
  (∀ (half : Bool) (m0 m1 m2 m3 m4 m5 m6 m7 : SubMode) (s : State), Unfaulted s →
    let i := Instr.bpred half m0 m1 m2 m3 m4 m5 m6 m7
    (s.status.frameValid = false → exec i s = .next (faultEntry s .noFrame (encode i))) ∧
    (s.status.frameValid = true → s.status.mbOpen = false → exec i s = .next (faultEntry s .noMb (encode i))) ∧
    (InMb s → s.curmb.lmode ≠ .b → exec i s = .next (faultEntry s .mode (encode i))) ∧
    (InMb s → s.curmb.lmode = .b → s.mbflags.lumaDone = true → exec i s = .next (faultEntry s .order (encode i)))) ∧
  (∀ s : State, Unfaulted s →
    (s.status.frameValid = false → exec .mbEnd s = .next (faultEntry s .noFrame (encode .mbEnd))) ∧
    (s.status.frameValid = true → s.status.mbOpen = false → exec .mbEnd s = .next (faultEntry s .noMb (encode .mbEnd))) ∧
    (InMb s → (s.mbflags.lumaDone = false ∨ s.mbflags.chromaDone = false) →
      exec .mbEnd s = .next (faultEntry s .order (encode .mbEnd))))

/-! ### Residual -/

/-- R150, R152, R153: COEF stores `wrap32(VAL * q)` at the zig-zag position of its block, with the factor the block, the position
and the open macroblock's segment select, and changes nothing else. -/
def Obligations.CoefDequantizes : Prop :=
  ∀ (blk : BitVec 5) (zz : BitVec 4) (val : BitVec 16) (s : State),
    Unfaulted s → InMb s → blk.toNat ≤ 24 → s.curmb.skip = false →
    (blk.toNat = 24 → s.curmb.lmode ≠ .b ∧ s.mbflags.whtDone = false) →
    (blk.toNat < 16 → zz.toNat = 0 → s.curmb.lmode = .b) →
    (blk.toNat < 24 → s.idctDoneAt blk.toNat = false) →
    let pos := [0, 1, 4, 8, 5, 2, 3, 6, 9, 12, 13, 10, 7, 11, 14, 15].getD zz.toNat 0
    ∃ t, exec (.coef blk zz val) s = .next t ∧ t = { s with coef := t.coef } ∧
      t.coefAt blk.toNat pos =
        BitVec.ofInt 32 (val.toInt * (factorFor (s.quantRow s.curmb.segid) blk.toNat zz.toNat).toInt) ∧
      ∀ b k, (b ≠ blk.toNat ∨ k ≠ pos) → t.coefAt b k = s.coefAt b k

/-- R155, R157: IWHT transforms the Y2 block in place, scatters output `k` to entry 0 of luma block `k`, sets `WHT_DONE`, and
changes nothing else. -/
def Obligations.IwhtScatters : Prop :=
  ∀ s : State, Unfaulted s → InMb s → s.curmb.skip = false → s.curmb.lmode ≠ .b → s.mbflags.whtDone = false →
    (∀ k, k < 16 → s.idctDoneAt k = false) →
    ∃ t, exec .iwht s = .next t ∧
      t = { s with coef := t.coef, mbflags := { s.mbflags with whtDone := true } } ∧
      t.coefBlock 24 = iwht4 (s.coefBlock 24) ∧
      (∀ k, k < 16 → t.coefAt k 0 = (iwht4 (s.coefBlock 24)).getD k 0) ∧
      (∀ b k, b < 24 → (16 ≤ b ∨ k ≠ 0) → t.coefAt b k = s.coefAt b k)

/-- R158: IDCT transforms its block in place, sets the block's `IDCT_DONE` bit, and changes nothing else. -/
def Obligations.IdctTransformsBlock : Prop :=
  ∀ (blk : BitVec 5) (s : State), Unfaulted s → InMb s → blk.toNat ≤ 23 → s.curmb.skip = false →
    s.idctDoneAt blk.toNat = false →
    (blk.toNat < 16 → s.curmb.lmode ≠ .b → s.mbflags.whtDone = true) →
    ∃ t, exec (.idct blk) s = .next t ∧ t = { s with coef := t.coef, idctDone := t.idctDone } ∧
      t.coefBlock blk.toNat = idct4 (s.coefBlock blk.toNat) ∧
      (∀ b, b ≠ blk.toNat → t.coefBlock b = s.coefBlock b) ∧
      ∀ b, t.idctDoneAt b = (decide (b = blk.toNat) || s.idctDoneAt b)

/-- R284, R285, R150, R155, R158: the state checks of COEF, IWHT and IDCT in their order of priority. -/
def Obligations.ResidualFaultPriority : Prop :=
  (∀ (i : Instr) (s : State), Unfaulted s → i.wellFormed = true →
    (i = .iwht ∨ (∃ b, i = .idct b) ∨ ∃ b z v, i = .coef b z v) →
    (s.status.frameValid = false → exec i s = .next (faultEntry s .noFrame (encode i))) ∧
    (s.status.frameValid = true → s.status.mbOpen = false → exec i s = .next (faultEntry s .noMb (encode i))) ∧
    (InMb s → s.curmb.skip = true → exec i s = .next (faultEntry s .skipped (encode i)))) ∧
  (∀ (blk : BitVec 5) (zz : BitVec 4) (val : BitVec 16) (s : State), Unfaulted s → InMb s → s.curmb.skip = false →
    blk.toNat ≤ 24 →
    let i := Instr.coef blk zz val
    let wrongMode := (blk.toNat = 24 ∧ s.curmb.lmode = .b) ∨ (blk.toNat < 16 ∧ s.curmb.lmode ≠ .b ∧ zz.toNat = 0)
    (wrongMode → exec i s = .next (faultEntry s .mode (encode i))) ∧
    (¬ wrongMode →
      ((blk.toNat = 24 ∧ s.mbflags.whtDone = true) ∨ (blk.toNat < 24 ∧ s.idctDoneAt blk.toNat = true)) →
      exec i s = .next (faultEntry s .order (encode i)))) ∧
  (∀ s : State, Unfaulted s → InMb s → s.curmb.skip = false →
    (s.curmb.lmode = .b → exec .iwht s = .next (faultEntry s .mode (encode .iwht))) ∧
    (s.curmb.lmode ≠ .b → (s.mbflags.whtDone = true ∨ ∃ k, k < 16 ∧ s.idctDoneAt k = true) →
      exec .iwht s = .next (faultEntry s .order (encode .iwht)))) ∧
  (∀ (blk : BitVec 5) (s : State), Unfaulted s → InMb s → s.curmb.skip = false → blk.toNat ≤ 23 →
    (s.idctDoneAt blk.toNat = true ∨ (blk.toNat < 16 ∧ s.curmb.lmode ≠ .b ∧ s.mbflags.whtDone = false)) →
    exec (.idct blk) s = .next (faultEntry s .order (encode (.idct blk))))

/-- R161: both transforms map the zero block to itself and a DC-only block to a constant block, for every 32-bit DC; `IDCT4` of
`(100, 20, -30, 5, 0, …)` is four copies of one row. (That each is a function of the block alone is its type.) -/
def Obligations.TransformProperties : Prop :=
  idct4 Block.zero = Block.zero ∧ iwht4 Block.zero = Block.zero ∧
  (∀ (d : BitVec 32) (k : Fin 16),
    (idct4 (Block.zero.set 0 d))[k].toInt = (d.toInt + 4) / 8 ∧ (iwht4 (Block.zero.set 0 d))[k].toInt = (d.toInt + 3) / 8) ∧
  (∀ (b : Block), b.toList.map BitVec.toInt = [100, 20, -30, 5, 0, 0, 0, 0, 0, 0, 0, 0, 0, 0, 0, 0] →
    (idct4 b).toList.map BitVec.toInt = [12, 17, 16, 5, 12, 17, 16, 5, 12, 17, 16, 5, 12, 17, 16, 5])

/-- One column or row of the in-place pseudocode: four entries replaced by `wrap32` of four values of their old contents. -/
def Sys2Proof.Machine.inPlace (f : Int → Int → Int → Int → Int × Int × Int × Int) (i0 i1 i2 i3 : Nat) (b : Nat → Int) : Nat → Int :=
  let r := f (b i0) (b i1) (b i2) (b i3)
  fun k => if k = i0 then (BitVec.ofInt 32 r.1).toInt else if k = i1 then (BitVec.ofInt 32 r.2.1).toInt
    else if k = i2 then (BitVec.ofInt 32 r.2.2.1).toInt else if k = i3 then (BitVec.ofInt 32 r.2.2.2).toInt else b k

/-- The pseudocode's two passes over one array, `for i in 0..4` each, every store seen by the next read. -/
def Sys2Proof.Machine.inPlacePasses (f g : Int → Int → Int → Int → Int × Int × Int × Int) (b : Nat → Int) : Nat → Int :=
  (List.range 4).foldl (fun b i => inPlace g (4 * i) (4 * i + 1) (4 * i + 2) (4 * i + 3) b)
    ((List.range 4).foldl (fun b i => inPlace f i (4 + i) (8 + i) (12 + i) b) b)

/-- R156, R159: the transforms compute, at every entry and for every block, what the in-place pseudocode of the spec computes. -/
def Obligations.TransformsAgreeWithPseudocode : Prop :=
  (∀ (b : Block) (k : Fin 16),
    (iwht4 b)[k].toInt =
      inPlacePasses
        (fun x0 x1 x2 x3 => ((x0 + x3) + (x1 + x2), (x1 - x2) + (x0 - x3), (x0 + x3) - (x1 + x2), (x0 - x3) - (x1 - x2)))
        (fun x0 x1 x2 x3 => (((x0 + x3) + (x1 + x2) + 3) / 8, ((x1 - x2) + (x0 - x3) + 3) / 8,
          ((x0 + x3) - (x1 + x2) + 3) / 8, ((x0 - x3) - (x1 - x2) + 3) / 8))
        b.entry k) ∧
  (∀ (b : Block) (k : Fin 16),
    let c := fun x1 x3 : Int => (x1 * 35468) / 65536 - (x3 + (x3 * 20091) / 65536)
    let d := fun x1 x3 : Int => (x1 + (x1 * 20091) / 65536) + (x3 * 35468) / 65536
    (idct4 b)[k].toInt =
      inPlacePasses
        (fun x0 x1 x2 x3 => ((x0 + x2) + d x1 x3, (x0 - x2) + c x1 x3, (x0 - x2) - c x1 x3, (x0 + x2) - d x1 x3))
        (fun x0 x1 x2 x3 => (((x0 + x2) + d x1 x3 + 4) / 8, ((x0 - x2) + c x1 x3 + 4) / 8,
          ((x0 - x2) - c x1 x3 + 4) / 8, ((x0 + x2) - d x1 x3 + 4) / 8))
        b.entry k)

/-- R158, R162: two IDCTs of different blocks that both complete give the same state in either order. -/
def Obligations.IdctOrderIsFree : Prop :=
  ∀ (a b : BitVec 5) (s s1 s2 : State), a ≠ b → Unfaulted s →
    exec (.idct a) s = .next s1 → s1.status.fault = false → exec (.idct b) s1 = .next s2 → s2.status.fault = false →
    ∃ s3, exec (.idct b) s = .next s3 ∧ s3.status.fault = false ∧ exec (.idct a) s3 = .next s2

/-! ### Prediction -/

/-- R14: the two averages, rounded as stated, for all bytes (so no result leaves 0..255). -/
def Obligations.AveragesRound : Prop :=
  (∀ a b : Byte, (avg2 a b).toNat = (a.toNat + b.toNat + 1) / 2) ∧
  (∀ a b c : Byte, (avg3 a b c).toNat = (a.toNat + 2 * b.toNat + c.toNat + 2) / 4)

/-- R180: the luma scratch before prediction: the above row with its two extensions, the corner, the left column, the phantom
above-right rows 4, 8 and 12, and 0 in every other cell. -/
def Obligations.LumaEdges : Prop :=
  ∀ (s : State) (mbx mby : Nat),
    let ws := buildLuma s mbx mby
    (∀ c, c < 21 → mby = 0 → ws.at 0 c = 127) ∧
    (mby ≠ 0 → ws.at 0 0 = if mbx = 0 then 129 else s.mem.read .leftY 0) ∧
    (mby ≠ 0 → ∀ c, 1 ≤ c → c < 17 → ws.at 0 c = s.mem.read .topY (16 * mbx + c - 1)) ∧
    (mby ≠ 0 → ∀ c, 17 ≤ c → c < 21 → mbx = s.mbw - 1 → ws.at 0 c = s.mem.read .topY (16 * mbx + 15)) ∧
    (mby ≠ 0 → ∀ c, 17 ≤ c → c < 21 → mbx ≠ s.mbw - 1 → ws.at 0 c = s.mem.read .topY (16 * mbx + c - 1)) ∧
    (∀ r, 1 ≤ r → r < 17 → ws.at r 0 = if mbx = 0 then 129 else s.mem.read .leftY r) ∧
    (∀ r ∈ [4, 8, 12], ∀ c, 17 ≤ c → c < 21 → ws.at r c = ws.at 0 c) ∧
    (∀ r c, 1 ≤ r → r < 21 → c < 21 → (c = 0 → 17 ≤ r) → (17 ≤ c → r ≠ 4 ∧ r ≠ 8 ∧ r ≠ 12) → ws.at r c = 0)

/-- R183 to R186, R199, R200: for a luma mode other than B, every pixel of the macroblock is the mode's prediction from the edges
plus its own block's residue, clipped once. For every luma mode row 0, column 0 and the phantom rows 4, 8 and 12 of the finished scratch
are those of `BUILD_LUMA` (R180). -/
def Obligations.LumaPredictionPlusResidue : Prop :=
  (∀ (s : State) (r c : Nat), r < 16 → c < 16 → s.curmb.lmode ≠ .b →
    let mbx := s.curmb.mbx.toNat
    let mby := s.curmb.mby.toNat
    let e := buildLuma s mbx mby
    let sumA := ((List.range 16).map fun k => (e.at 0 (1 + k)).toNat).sum
    let sumL := ((List.range 16).map fun k => (e.at (1 + k) 0).toNat).sum
    let predicted : Int :=
      match s.curmb.lmode with
      | .v => (e.at 0 (1 + c)).toNat
      | .h => (e.at (1 + r) 0).toNat
      | .tm => max 0 (min 255 (((e.at (1 + r) 0).toNat : Int) + (e.at 0 (1 + c)).toNat - (e.at 0 0).toNat))
      | _ =>
          if 0 < mby ∧ 0 < mbx then ((sumA + sumL + 16) / 32 : Nat)
          else if 0 < mby then ((sumA + 8) / 16 : Nat)
          else if 0 < mbx then ((sumL + 8) / 16 : Nat)
          else 128
    ((s.lumaScratch.at (1 + r) (1 + c)).toNat : Int) =
      max 0 (min 255 (predicted + (s.coefAt (4 * (r / 4) + c / 4) (4 * (r % 4) + c % 4)).toInt))) ∧
  ∀ (s : State) (r c : Nat), r < 21 → c < 21 → (r = 0 ∨ c = 0 ∨ (r ∈ [4, 8, 12] ∧ 17 ≤ c)) →
    s.lumaScratch.at r c = (buildLuma s s.curmb.mbx.toNat s.curmb.mby.toNat).at r c

/-- One pixel of a 4×4 mode as the rules give it, from the corner `P`, the above row `A`, the left column `L` and their run `E`
(R189 to R198). -/
def Sys2Proof.Machine.subModePixel (m : SubMode) (P : Nat) (A L E : Nat → Nat) (r c : Nat) : Int :=
  let avg2 := fun a b : Nat => (a + b + 1) / 2
  let avg3 := fun a b c : Nat => (a + 2 * b + c + 2) / 4
  match m with
  | .dc => ((A 0 + A 1 + A 2 + A 3 + L 0 + L 1 + L 2 + L 3 + 4) / 8 : Nat)
  | .tm => max 0 (min 255 ((L r : Int) + A c - P))
  | .ve => avg3 (if c = 0 then P else A (c - 1)) (A c) (A (c + 1))
  | .he => avg3 (if r = 0 then P else L (r - 1)) (L r) (if r = 3 then L 3 else L (r + 1))
  | .ld => avg3 (A (r + c)) (A (r + c + 1)) (if r + c = 6 then A 7 else A (r + c + 2))
  | .rd => avg3 (E (3 - r + c)) (E (4 - r + c)) (E (5 - r + c))
  | .vr =>
      match r, c with
      | 3, 0 => avg3 (E 1) (E 2) (E 3)
      | 2, 0 => avg3 (E 2) (E 3) (E 4)
      | 3, 1 | 1, 0 => avg3 (E 3) (E 4) (E 5)
      | 2, 1 | 0, 0 => avg2 (E 4) (E 5)
      | 3, 2 | 1, 1 => avg3 (E 4) (E 5) (E 6)
      | 2, 2 | 0, 1 => avg2 (E 5) (E 6)
      | 3, 3 | 1, 2 => avg3 (E 5) (E 6) (E 7)
      | 2, 3 | 0, 2 => avg2 (E 6) (E 7)
      | 1, 3 => avg3 (E 6) (E 7) (E 8)
      | _, _ => avg2 (E 7) (E 8)
  | .vl =>
      match r, c with
      | 0, 0 => avg2 (A 0) (A 1)
      | 1, 0 => avg3 (A 0) (A 1) (A 2)
      | 2, 0 | 0, 1 => avg2 (A 1) (A 2)
      | 1, 1 | 3, 0 => avg3 (A 1) (A 2) (A 3)
      | 2, 1 | 0, 2 => avg2 (A 2) (A 3)
      | 3, 1 | 1, 2 => avg3 (A 2) (A 3) (A 4)
      | 2, 2 | 0, 3 => avg2 (A 3) (A 4)
      | 3, 2 | 1, 3 => avg3 (A 3) (A 4) (A 5)
      | 2, 3 => avg3 (A 4) (A 5) (A 6)
      | _, _ => avg3 (A 5) (A 6) (A 7)
  | .hd =>
      match r, c with
      | 3, 0 => avg2 (E 0) (E 1)
      | 3, 1 => avg3 (E 0) (E 1) (E 2)
      | 2, 0 | 3, 2 => avg2 (E 1) (E 2)
      | 2, 1 | 3, 3 => avg3 (E 1) (E 2) (E 3)
      | 2, 2 | 1, 0 => avg2 (E 2) (E 3)
      | 2, 3 | 1, 1 => avg3 (E 2) (E 3) (E 4)
      | 1, 2 | 0, 0 => avg2 (E 3) (E 4)
      | 1, 3 | 0, 1 => avg3 (E 3) (E 4) (E 5)
      | 0, 2 => avg3 (E 4) (E 5) (E 6)
      | _, _ => avg3 (E 5) (E 6) (E 7)
  | .hu =>
      match r, c with
      | 0, 0 => avg2 (L 0) (L 1)
      | 0, 1 => avg3 (L 0) (L 1) (L 2)
      | 0, 2 | 1, 0 => avg2 (L 1) (L 2)
      | 0, 3 | 1, 1 => avg3 (L 1) (L 2) (L 3)
      | 1, 2 | 2, 0 => avg2 (L 2) (L 3)
      | 1, 3 | 2, 1 => avg3 (L 2) (L 3) (L 3)
      | _, _ => L 3

/-- R187, R199, R200: in a B macroblock every subblock is its 4×4 mode's prediction from the reconstructed pixels around it, plus
its residue, clipped: the finished scratch is consistent with itself at all sixteen subblocks. R189 to R198: the value of every pixel of
the ten modes (the spec marks R193 to R198 as general knowledge, entry 11). -/
def Obligations.SubblocksPredictFromReconstruction : Prop :=
  (∀ (s : State) (i r c : Nat), i < 16 → r < 4 → c < 4 → s.curmb.lmode = .b →
    let ws := s.lumaScratch
    ((ws.at (1 + 4 * (i / 4) + r) (1 + 4 * (i % 4) + c)).toNat : Int) =
      max 0 (min 255 (((pred4 (s.bpred.getD i .dc) (ws.edges (1 + 4 * (i / 4)) (1 + 4 * (i % 4))) r c).toNat : Int)
        + (s.coefAt i (4 * r + c)).toInt))) ∧
  (∀ (ws : Scratch) (y0 x0 k : Nat),
    (ws.edges y0 x0).p = ws.at (y0 - 1) (x0 - 1) ∧ (k < 8 → (ws.edges y0 x0).a k = ws.at (y0 - 1) (x0 + k)) ∧
    (k < 4 → (ws.edges y0 x0).l k = ws.at (y0 + k) (x0 - 1))) ∧
  ∀ (m : SubMode) (e : Edges) (r c : Nat), r < 4 → c < 4 →
    let run := fun k => if k < 4 then (e.l (3 - k)).toNat else if k = 4 then e.p.toNat else (e.a (k - 5)).toNat
    ((pred4 m e r c).toNat : Int) = subModePixel m e.p.toNat (fun k => (e.a k).toNat) (fun k => (e.l k).toNat) run r c

/-- R188: RD, VR, HD, HU, DC, TM and HE read no above-right pixel, and VE reads only the first. -/
def Obligations.AboveRightReaders : Prop :=
  ∀ (m : SubMode) (e e' : Edges) (r c : Nat), r < 4 → c < 4 → e.p = e'.p → (∀ k, k < 4 → e.l k = e'.l k) →
    ((m ≠ .ld ∧ m ≠ .vl ∧ m ≠ .ve ∧ ∀ k, k < 4 → e.a k = e'.a k) ∨ (m = .ve ∧ ∀ k, k < 5 → e.a k = e'.a k)) →
    pred4 m e r c = pred4 m e' r c

/-- R200: PRED_LUMA completes for an open macroblock whose luma is not yet predicted and, unless skipped, whose sixteen luma
IDCTs are done; of the registers only `LUMA_DONE` changes, and of memory only `Y`, `TOPY` and `LEFTY`. -/
def Obligations.PredLumaCompletes : Prop :=
  ∀ s : State, Unfaulted s → InMb s → s.mbflags.lumaDone = false →
    (s.curmb.skip = false → ∀ k, k < 16 → s.idctDoneAt k = true) → CurMbInFrame s →
    ∃ t, exec .predLuma s = .next t ∧
      t = { s with mem := t.mem, mbflags := { s.mbflags with lumaDone := true } } ∧
      ∀ sp, sp ≠ .y → sp ≠ .topY → sp ≠ .leftY → ∀ i, t.mem.read sp i = s.mem.read sp i

/-- R201, R202: PRED_LUMA copies the corner, the right column and the full bottom row into the borders and the macroblock's pixels,
clipped to the frame, into the plane; every other byte of the three spaces reads as before. -/
def Obligations.PredLumaWritesBack : Prop :=
  ∀ s t : State, Unfaulted s → InMb s → CurMbInFrame s → s.MemoryCanonical →
    exec .predLuma s = .next t → t.status.fault = false →
    let ws := s.lumaScratch
    let x0 := 16 * s.curmb.mbx.toNat
    let y0 := 16 * s.curmb.mby.toNat
    t.mem.read .leftY 0 = ws.at 0 16 ∧
    (∀ r, r < 16 → t.mem.read .leftY (1 + r) = ws.at (1 + r) 16) ∧
    (∀ c, c < 16 → t.mem.read .topY (x0 + c) = ws.at 16 (1 + c)) ∧
    (∀ r c, r < 16 → c < 16 → x0 + c < s.width → y0 + r < s.height →
      t.mem.read .y ((y0 + r) * s.width + (x0 + c)) = ws.at (1 + r) (1 + c)) ∧
    (∀ i, 17 ≤ i → t.mem.read .leftY i = s.mem.read .leftY i) ∧
    (∀ i, (i < x0 ∨ x0 + 16 ≤ i) → t.mem.read .topY i = s.mem.read .topY i) ∧
    (∀ i, (∀ r c, r < 16 → c < 16 → x0 + c < s.width → y0 + r < s.height → i ≠ (y0 + r) * s.width + (x0 + c)) →
      t.mem.read .y i = s.mem.read .y i)

/-- R205: PRED_CHROMA completes for an open macroblock whose chroma is not yet predicted and, unless skipped, whose eight chroma
IDCTs are done; of the registers only `CHROMA_DONE` changes, and of memory only the chroma planes and borders. -/
def Obligations.PredChromaCompletes : Prop :=
  ∀ s : State, Unfaulted s → InMb s → s.mbflags.chromaDone = false →
    (s.curmb.skip = false → ∀ k, 16 ≤ k → k < 24 → s.idctDoneAt k = true) → CurMbInFrame s →
    ∃ t, exec .predChroma s = .next t ∧
      t = { s with mem := t.mem, mbflags := { s.mbflags with chromaDone := true } } ∧
      ∀ sp, sp = .y ∨ sp = .topY ∨ sp = .leftY → ∀ i, t.mem.read sp i = s.mem.read sp i

/-- R206, R207: PRED_CHROMA writes each chroma plane and its borders back, clipped to the `CW × CH` plane; every other byte of the
six spaces reads as before. What it copies: the edges of R181, kept, and in every pixel the prediction of R183 to R186 with `N = 8` plus
the residue of block `base + j` (R205), clipped once. -/
def Obligations.PredChromaWritesBack : Prop :=
  (∀ s t : State, Unfaulted s → InMb s → CurMbInFrame s → s.MemoryCanonical →
    exec .predChroma s = .next t → t.status.fault = false →
    ∀ pl top left base, (pl = ByteSpace.u ∧ top = ByteSpace.topU ∧ left = ByteSpace.leftU ∧ base = 16) ∨
        (pl = ByteSpace.v ∧ top = ByteSpace.topV ∧ left = ByteSpace.leftV ∧ base = 20) →
    let ws := s.chromaScratch top left base
    let x0 := 8 * s.curmb.mbx.toNat
    let y0 := 8 * s.curmb.mby.toNat
    t.mem.read left 0 = ws.at 0 8 ∧
    (∀ r, r < 8 → t.mem.read left (1 + r) = ws.at (1 + r) 8) ∧
    (∀ c, c < 8 → t.mem.read top (x0 + c) = ws.at 8 (1 + c)) ∧
    (∀ r c, r < 8 → c < 8 → x0 + c < s.cw → y0 + r < s.ch →
      t.mem.read pl ((y0 + r) * s.cw + (x0 + c)) = ws.at (1 + r) (1 + c)) ∧
    (∀ i, 9 ≤ i → t.mem.read left i = s.mem.read left i) ∧
    (∀ i, (i < x0 ∨ x0 + 8 ≤ i) → t.mem.read top i = s.mem.read top i) ∧
    (∀ i, (∀ r c, r < 8 → c < 8 → x0 + c < s.cw → y0 + r < s.ch → i ≠ (y0 + r) * s.cw + (x0 + c)) →
      t.mem.read pl i = s.mem.read pl i)) ∧
  ∀ (s : State) (top left : ByteSpace) (base : Nat),
    let mbx := s.curmb.mbx.toNat
    let mby := s.curmb.mby.toNat
    let ws := s.chromaScratch top left base
    let sumA := ((List.range 8).map fun k => (ws.at 0 (1 + k)).toNat).sum
    let sumL := ((List.range 8).map fun k => (ws.at (1 + k) 0).toNat).sum
    (∀ c, c < 9 → mby = 0 → ws.at 0 c = 127) ∧
    (mby ≠ 0 → ws.at 0 0 = if mbx = 0 then 129 else s.mem.read left 0) ∧
    (mby ≠ 0 → ∀ c, 1 ≤ c → c < 9 → ws.at 0 c = s.mem.read top (8 * mbx + c - 1)) ∧
    (∀ r, 1 ≤ r → r < 9 → ws.at r 0 = if mbx = 0 then 129 else s.mem.read left r) ∧
    ∀ r c, r < 8 → c < 8 →
      let predicted : Int :=
        match s.curmb.cmode with
        | .v => (ws.at 0 (1 + c)).toNat
        | .h => (ws.at (1 + r) 0).toNat
        | .tm => max 0 (min 255 (((ws.at (1 + r) 0).toNat : Int) + (ws.at 0 (1 + c)).toNat - (ws.at 0 0).toNat))
        | .dc =>
            if 0 < mby ∧ 0 < mbx then ((sumA + sumL + 8) / 16 : Nat)
            else if 0 < mby then ((sumA + 4) / 8 : Nat)
            else if 0 < mbx then ((sumL + 4) / 8 : Nat)
            else 128
      ((ws.at (1 + r) (1 + c)).toNat : Int) =
        max 0 (min 255 (predicted + (s.coefAt (base + (2 * (r / 4) + c / 4)) (4 * (r % 4) + c % 4)).toInt))

/-- R284, R285, R200, R205: the state checks of PRED_LUMA and PRED_CHROMA in their order of priority. -/
def Obligations.PredictionFaultPriority : Prop :=
  ∀ s : State, Unfaulted s →
    (∀ i, i = Instr.predLuma ∨ i = Instr.predChroma →
      (s.status.frameValid = false → exec i s = .next (faultEntry s .noFrame (encode i))) ∧
      (s.status.frameValid = true → s.status.mbOpen = false → exec i s = .next (faultEntry s .noMb (encode i)))) ∧
    (InMb s → (s.mbflags.lumaDone = true ∨ (s.curmb.skip = false ∧ ∃ k, k < 16 ∧ s.idctDoneAt k = false)) →
      exec .predLuma s = .next (faultEntry s .order (encode .predLuma))) ∧
    (InMb s → (s.mbflags.chromaDone = true ∨ (s.curmb.skip = false ∧ ∃ k, 16 ≤ k ∧ k < 24 ∧ s.idctDoneAt k = false)) →
      exec .predChroma s = .next (faultEntry s .order (encode .predChroma)))

/-- R208, R322: a prediction never reads a plane: on two states that differ only in the contents of the planes, the prediction
commands answer alike and leave the same border arrays and the same registers; and where the command completes, the pixels it writes into
the planes are the same in both. -/
def Obligations.PredictionReadsNoPlane : Prop :=
  ∀ (s : State) (ly lu lv : List Host.Cell) (i : Instr), i = .predLuma ∨ i = .predChroma →
    let s' := { s with mem := { s.mem with y := ly, u := lu, v := lv } }
    ∀ t, exec i s = .next t →
      ∃ t', exec i s' = .next t' ∧
        t' = { t with mem := { t.mem with y := t'.mem.y, u := t'.mem.u, v := t'.mem.v } } ∧
        (Unfaulted s → t.status.fault = false → s.MemoryCanonical → s'.MemoryCanonical →
          ∀ p n, (i = .predLuma ∧ p = Plane.y ∧ n = 16) ∨ (i = .predChroma ∧ p ≠ Plane.y ∧ n = 8) →
            ∀ r c, r < n → c < n → n * s.curmb.mbx.toNat + c < s.planeWidth p → n * s.curmb.mby.toNat + r < s.planeHeight p →
              let a := (n * s.curmb.mby.toNat + r) * s.planeWidth p + (n * s.curmb.mbx.toNat + c)
              t'.mem.read p.space a = t.mem.read p.space a)

/-- R205: PRED_LUMA and PRED_CHROMA touch disjoint state: where both complete, their order does not matter. -/
def Obligations.PredictionOrderIsFree : Prop :=
  ∀ s s1 s2 : State, Unfaulted s → exec .predLuma s = .next s1 → s1.status.fault = false →
    exec .predChroma s1 = .next s2 → s2.status.fault = false →
    ∃ s3, exec .predChroma s = .next s3 ∧ s3.status.fault = false ∧ exec .predLuma s3 = .next s2

/-- R185, R200, R205 (the source's scenario 3 as C4 resolves it): the top-left macroblock of any frame, predicted DC with no
residue, is 128 in every pixel of the three planes. -/
def Obligations.TopLeftDcIsGrey : Prop :=
  ∀ s s1 s2 : State, Unfaulted s → InMb s → CurMbInFrame s → s.MemoryCanonical → s.curmb.mbx = 0 → s.curmb.mby = 0 →
    s.curmb.lmode = .dc → s.curmb.cmode = .dc → (∀ b k, s.coefAt b k = 0) →
    exec .predLuma s = .next s1 → s1.status.fault = false → exec .predChroma s1 = .next s2 → s2.status.fault = false →
    (∀ x y, x < 16 → y < 16 → x < s.width → y < s.height → s2.mem.read .y (y * s.width + x) = 128) ∧
    (∀ x y, x < 8 → y < 8 → x < s.cw → y < s.ch →
      s2.mem.read .u (y * s.cw + x) = 128 ∧ s2.mem.read .v (y * s.cw + x) = 128)

/-! ### The loop filter -/

/-- R230, R231, R234: the filter parameters of any macroblock in any state, with the threshold under either value of `HEV_RULE` (R233)
and the ranges of R232. (The commands run under the rule the machine is built with: LfMbCompletes.) -/
def Obligations.FilterLevels : Prop :=
  ∀ (cfg : Config) (s : State) (m : MbInfo),
    let base : Int :=
      if s.segctl.segEn = true then
        if (s.segReg m.segid).dv = true then s.filter.level.toNat + (s.segReg m.segid).lflvl.toInt else (s.segReg m.segid).lflvl.toInt
      else s.filter.level.toNat
    let once := max 0 (min 63 base)
    let lvl := if m.lmode = .b then max 0 (min 63 (once + s.segctl.mdelta0.toInt)) else once
    let sharp := s.filter.sharp.toNat
    let lv := levels cfg s m
    (lv.lvl : Int) = lvl ∧
    lv.ilim = max 1 (if sharp = 0 then lv.lvl else min (if 4 < sharp then lv.lvl / 4 else lv.lvl / 2) (9 - sharp)) ∧
    lv.hevT = (if 40 ≤ lv.lvl then 2 else if cfg.hevRule = .doc then 1 else if 15 ≤ lv.lvl then 1 else 0) ∧ lv.mbe = (lv.lvl + 2) * 2 + lv.ilim ∧ lv.sbe = lv.lvl * 2 + lv.ilim ∧
    lv.lvl ≤ 63 ∧ 1 ≤ lv.ilim ∧ lv.ilim ≤ 63 ∧ lv.mbe ≤ 193 ∧ lv.sbe ≤ 189

/-- R69, R245: every pixel a filter segment reads on either side, and every index it stores to, lies inside its plane, for every
macroblock of every frame. -/
def Obligations.SegmentsStayInPlane : Prop :=
  ∀ (s : State) (inner : Bool) (mbx mby : Nat) (g : Segment) (k : Nat) (l : Line) (cell : Host.Cell),
    g ∈ mbSegments s.filter.simple inner mbx mby → inBounds s s.filter.simple g = true →
    k < reach s.filter.simple →
    (k + 1) * g.step s ≤ s.pixelIndex g.plane g.x g.y ∧ g.qIndex s k < s.byteLength g.plane.space ∧
    (cell ∈ g.stores s s.filter.simple l → cell.1 < s.byteLength g.plane.space)

/-- The calls of `SEG` that `FILTER_MB` makes, in their order (R240). -/
def Sys2Proof.Machine.segCalls (simple inner : Bool) (mbx mby : Nat) : List Segment :=
  let planes := if simple then [(Plane.y, 16)] else [(Plane.y, 16), (Plane.u, 8), (Plane.v, 8)]
  let offsets := fun n : Nat => if n = 16 then [4, 8, 12] else [4]
  let vertical := fun (x : Nat → Nat) (kind : EdgeKind) (pn : Plane × Nat) =>
    (List.range pn.2).map fun k => (⟨pn.1, x pn.2, pn.2 * mby + k, .vert, kind⟩ : Segment)
  let horizontal := fun (y : Nat → Nat) (kind : EdgeKind) (pn : Plane × Nat) =>
    (List.range pn.2).map fun k => (⟨pn.1, pn.2 * mbx + k, y pn.2, .horz, kind⟩ : Segment)
  (if 0 < mbx then planes.flatMap (vertical (· * mbx) .mb) else []) ++
  (if inner then planes.flatMap fun pn => (offsets pn.2).flatMap fun e => vertical (· * mbx + e) .sb pn else []) ++
  (if 0 < mby then planes.flatMap (horizontal (· * mby) .mb) else []) ++
  (if inner then planes.flatMap fun pn => (offsets pn.2).flatMap fun e => horizontal (· * mby + e) .sb pn else [])

/-- Every pixel that the kernel of a call of `SEG` reads lies in the plane: two on each side for the simple filter, else four (R245). -/
def Sys2Proof.Machine.segInside (s : State) (g : Segment) : Bool :=
  let n := if s.filter.simple then 2 else 4
  match g.dir with
  | .vert => decide (g.y < s.planeHeight g.plane ∧ g.x + n - 1 < s.planeWidth g.plane)
  | .horz => decide (g.x < s.planeWidth g.plane ∧ g.y + n - 1 < s.planeHeight g.plane)

/-- A picture, pixel `(x, y)` of each plane, after one call of `SEG` (R240): the pixels across the edge replaced by the kernel's where
the call is in bounds, the same picture otherwise. -/
def Sys2Proof.Machine.segPicture (s : State) (lv : Levels) (v : Plane → Nat → Nat → Byte) (g : Segment) : Plane → Nat → Nat → Byte :=
  let near := fun k => match g.dir with
    | .vert => v g.plane (g.x - (k + 1)) g.y
    | .horz => v g.plane g.x (g.y - (k + 1))
  let far := fun k => match g.dir with
    | .vert => v g.plane (g.x + k) g.y
    | .horz => v g.plane g.x (g.y + k)
  let l : Line := ⟨near 3, near 2, near 1, near 0, far 0, far 1, far 2, far 3⟩
  let l' := match s.filter.simple, g.kind with
    | true, .mb => simpleSegment lv.mbe l
    | true, .sb => simpleSegment lv.sbe l
    | false, .mb => mbFilter lv.hevT lv.ilim lv.mbe l
    | false, .sb => sbFilter lv.hevT lv.ilim lv.sbe l
  let replaced := fun (pos edge : Nat) (old : Byte) =>
    if pos = edge then l'.q0 else if pos = edge + 1 then l'.q1 else if pos = edge + 2 then l'.q2
    else if pos + 1 = edge then l'.p0 else if pos + 2 = edge then l'.p1 else if pos + 3 = edge then l'.p2 else old
  fun p x y =>
    if segInside s g = true ∧ p = g.plane then
      match g.dir with
      | .vert => if y = g.y then replaced x g.x (v p x y) else v p x y
      | .horz => if x = g.x then replaced y g.y (v p x y) else v p x y
    else v p x y

/-- R250: LF_MB at the coordinates of `LFCUR` filters that macroblock and advances `LFCUR`; no register but `LFCUR` and no space
but the planes changes, and of a plane only the bytes the macroblock's segments store to; a macroblock at level 0 is passed over
with no pixel change (R235), and the simple filter leaves U and V as they are (R240). In a canonical memory the planes are those the `SEG`
calls of R240 leave, in their order. The levels are those under the `HEV_RULE` the machine is built with (R10, R233; that it stands in the
state is the model's choice, entry 10), the kernels those of R237 to R244, which the spec marks as general knowledge (entry 11). -/
def Obligations.LfMbCompletes : Prop :=
  ∀ (mbx mby : BitVec 10) (s : State), Unfaulted s → FilterReady s → mbx.toNat < s.mbw →
    mby.toNat * s.mbw + mbx.toNat = s.lfcur.toNat →
    let m := s.mbInfoAt s.lfcur.toNat
    let lv := levels s.params s m
    let calls := if lv.lvl = 0 then [] else segCalls s.filter.simple (decide (m.lmode = .b) || !m.skip) mbx.toNat mby.toNat
    ∃ t, exec (.lfMb mbx mby) s = .next t ∧ t = { s with mem := t.mem, lfcur := t.lfcur } ∧
      t.lfcur.toNat = s.lfcur.toNat + 1 ∧
      (∀ sp, (∀ p : Plane, sp ≠ p.space) → ∀ i, t.mem.read sp i = s.mem.read sp i) ∧
      (∀ (p : Plane) (i : Nat),
        (lv.lvl = 0 ∨ (s.filter.simple = true ∧ p ≠ .y) ∨
          ∀ g ∈ s.segmentsOf s.lfcur.toNat, g.plane = p → ∀ cell ∈ g.stores s s.filter.simple (g.line s), cell.1 ≠ i) →
        t.mem.read p.space i = s.mem.read p.space i) ∧
      (s.MemoryCanonical → ∀ (p : Plane) (x y : Nat), x < s.planeWidth p → y < s.planeHeight p →
        t.mem.read p.space (y * s.planeWidth p + x) =
          calls.foldl (segPicture s lv) (fun p x y => s.mem.read p.space (y * s.planeWidth p + x)) p x y)

/-- R246: filtering one macroblock never changes a pixel of a macroblock to the right or below, nor a pixel more than three columns
left of it or more than three rows above it. -/
def Obligations.FilterReach : Prop :=
  ∀ (mbx mby : BitVec 10) (s t : State), Unfaulted s → FilterReady s → mbx.toNat < s.mbw →
    mby.toNat * s.mbw + mbx.toNat = s.lfcur.toNat → exec (.lfMb mbx mby) s = .next t →
    ∀ p n, (p = Plane.y ∧ n = 16) ∨ (p ≠ Plane.y ∧ n = 8) →
      ∀ x y, x < s.planeWidth p → y < s.planeHeight p →
        (n * mbx.toNat + n ≤ x ∨ n * mby.toNat + n ≤ y ∨ x + 3 < n * mbx.toNat ∨ y + 3 < n * mby.toNat) →
        t.mem.read p.space (y * s.planeWidth p + x) = s.mem.read p.space (y * s.planeWidth p + x)

/-- R252: LF_FRAME completes wherever its checks pass: `LFCUR` reaches `TOTAL_MB`, no register but `LFCUR` and no space but the planes
changes. (What it leaves in the planes, LfFrameIsLfMbs and LfMbCompletes say.) -/
def Obligations.LfFrameCompletes : Prop :=
  ∀ s : State, Unfaulted s → FilterReady s →
    ∃ t, exec .lfFrame s = .next t ∧ t = { s with mem := t.mem, lfcur := t.lfcur } ∧ t.lfcur.toNat = s.totalMb ∧
      ∀ sp, (∀ p : Plane, sp ≠ p.space) → ∀ i, t.mem.read sp i = s.mem.read sp i

/-- LF_MB at the coordinates of `LFCUR`, `n` times, stopping where one does not answer a next state. -/
def Sys2Proof.Machine.lfMbTimes : Nat → State → Result
  | 0, s => .next s
  | n + 1, s =>
    match exec (.lfMb (BitVec.ofNat 10 (s.lfcur.toNat % s.mbw)) (BitVec.ofNat 10 (s.lfcur.toNat / s.mbw))) s with
    | .next t => lfMbTimes n t
    | r => r

/-- R252: the result of LF_FRAME is exactly that of `TOTAL_MB - LFCUR` LF_MB commands in raster order. -/
def Obligations.LfFrameIsLfMbs : Prop :=
  ∀ s : State, Unfaulted s → FilterReady s → exec .lfFrame s = lfMbTimes (s.totalMb - s.lfcur.toNat) s

/-- R284, R285, R250, R252: the state checks of LF_MB and LF_FRAME in their order of priority. -/
def Obligations.LoopFilterFaultPriority : Prop :=
  ∀ s : State, Unfaulted s →
    (∀ i, i = .lfFrame ∨ (∃ mbx mby, i = .lfMb mbx mby) →
      (s.status.frameValid = false → exec i s = .next (faultEntry s .noFrame (encode i))) ∧
      (s.status.frameValid = true → s.status.mbOpen = true → exec i s = .next (faultEntry s .mbOpen (encode i))) ∧
      (s.status.frameValid = true → s.status.mbOpen = false → s.mbcur.toNat < s.totalMb →
        exec i s = .next (faultEntry s .lfNotReady (encode i))) ∧
      (s.status.frameValid = true → s.status.mbOpen = false → s.totalMb ≤ s.mbcur.toNat → s.lfcur.toNat = s.totalMb →
        exec i s = .next (faultEntry s .frameDone (encode i)))) ∧
    (∀ mbx mby : BitVec 10, FilterReady s → (s.mbw ≤ mbx.toNat ∨ mby.toNat * s.mbw + mbx.toNat ≠ s.lfcur.toNat) →
      exec (.lfMb mbx mby) s = .next (faultEntry s .order (encode (.lfMb mbx mby))))

/-- R237 to R244: the tests and the kernels of the loop filter on every line, in integers (the spec marks them as general knowledge,
entry 11): the edge test, the interior test and the high-edge-variance test; the common adjustment; the simple segment, the sub-block
filter and the macroblock filter with its 27, 18 and 9 taps. A kernel writes only the pixels of its rule, and a line whose test fails, and a
flat line, come out unchanged. -/
def Obligations.KernelsTouchOnlyTheEdge : Prop :=
  ∀ (t i e : Nat) (l : Line),
    let c := fun v : Int => max (-128) (min 127 v)
    let d := fun a b : Byte => ((a.toNat : Int) - b.toNat).natAbs
    let P0 : Int := l.p0.toNat - 128
    let P1 : Int := l.p1.toNat - 128
    let P2 : Int := l.p2.toNat - 128
    let Q0 : Int := l.q0.toNat - 128
    let Q1 : Int := l.q1.toNat - 128
    let Q2 : Int := l.q2.toNat - 128
    let edge := d l.p0 l.q0 * 2 + d l.p1 l.q1 / 2 ≤ e
    let normal := edge ∧ d l.p3 l.p2 ≤ i ∧ d l.p2 l.p1 ≤ i ∧ d l.p1 l.p0 ≤ i ∧ d l.q3 l.q2 ≤ i ∧ d l.q2 l.q1 ≤ i ∧ d l.q1 l.q0 ≤ i
    let high := t < d l.p1 l.p0 ∨ t < d l.q1 l.q0
    let base := fun outer : Bool => c ((if outer = true then c (P1 - Q1) else 0) + 3 * (Q0 - P0))
    let adjusted := fun (outer : Bool) (r : Line) =>
      (r.q0.toNat : Int) = c (Q0 - c (base outer + 4) / 8) + 128 ∧ (r.p0.toNat : Int) = c (P0 + c (base outer + 3) / 8) + 128
    let a := (c (base false + 4) / 8 + 1) / 2
    let w := c (c (P1 - Q1) + 3 * (Q0 - P0))
    let tap := fun n : Int => c ((n * w + 63) / 128)
    let sb := sbFilter t i e l
    let mb := mbFilter t i e l
    (simpleTest e l = true ↔ edge) ∧ (normalTest i e l = true ↔ normal) ∧ (hev t l = true ↔ high) ∧
    (edge → adjusted true (simpleSegment e l)) ∧ (¬ edge → simpleSegment e l = l) ∧
    (normal → high → adjusted true sb ∧ sb.q1 = l.q1 ∧ sb.p1 = l.p1) ∧
    (normal → ¬ high → adjusted false sb ∧ (sb.q1.toNat : Int) = c (Q1 - a) + 128 ∧ (sb.p1.toNat : Int) = c (P1 + a) + 128) ∧
    (normal → high → adjusted true mb ∧ mb.q1 = l.q1 ∧ mb.p1 = l.p1 ∧ mb.q2 = l.q2 ∧ mb.p2 = l.p2) ∧
    (normal → ¬ high →
      (mb.q0.toNat : Int) = c (Q0 - tap 27) + 128 ∧ (mb.p0.toNat : Int) = c (P0 + tap 27) + 128 ∧
      (mb.q1.toNat : Int) = c (Q1 - tap 18) + 128 ∧ (mb.p1.toNat : Int) = c (P1 + tap 18) + 128 ∧
      (mb.q2.toNat : Int) = c (Q2 - tap 9) + 128 ∧ (mb.p2.toNat : Int) = c (P2 + tap 9) + 128) ∧
    (¬ normal → sb = l ∧ mb = l) ∧
    (simpleSegment e l = { l with p0 := (simpleSegment e l).p0, q0 := (simpleSegment e l).q0 }) ∧
    (sb = { l with p1 := sb.p1, p0 := sb.p0, q0 := sb.q0, q1 := sb.q1 }) ∧
    (mb.p3 = l.p3 ∧ mb.q3 = l.q3) ∧
    (∀ b : Byte, l = ⟨b, b, b, b, b, b, b, b⟩ → simpleSegment e l = l ∧ sb = l ∧ mb = l)

/-! ### The host's view -/

/-- R22, R25, R26, R34: what each register reads as, field by field, with no field cut off, and `HOST_ERR` for every unassigned
number (R68). -/
def Obligations.RegisterLayout : Prop :=
  ∀ s : State,
    (∀ n (v : HostWord), hostRead .reg n s = .data v →
      (n = 0x00 → v.toNat = s.status.fault.toNat + s.status.frameValid.toNat * 2 + s.status.mbOpen.toNat * 4
        + (if s.status.frameValid = false then 0 else if s.status.mbOpen = true then 2
            else if s.mbcur.toNat < s.totalMb then 1 else if s.lfcur.toNat < s.totalMb then 3 else 4) * 16
        + s.status.fcode.code * 256) ∧
      (n = 0x01 → v = s.fcmdLo) ∧ (n = 0x02 → v = s.fcmdHi) ∧
      (n = 0x03 → v.toNat = s.frame.h.toNat + s.frame.w.toNat * 65536) ∧
      (n = 0x04 → v.toNat = (s.frame.h.toNat + 15) / 16 + (s.frame.w.toNat + 15) / 16 * 65536) ∧
      (n = 0x05 → v.toNat = s.filter.sharp.toNat + s.filter.level.toNat * 256 + s.filter.simple.toNat * 65536) ∧
      (n = 0x06 → v.toNat = s.segctl.mdelta0.toNat + s.segctl.segEn.toNat * 65536) ∧
      (∀ k : BitVec 2, n = 0x08 + k.toNat → v.toNat =
        (s.segReg k).lflvl.toNat + (s.segReg k).qlvl.toNat * 256 + (s.segReg k).dv.toNat * 16777216) ∧
      (∀ (k : BitVec 2) (f : Factor), n = 0x10 + 6 * k.toNat + f.code → v.toInt = ((s.quantRow k).get f).toInt) ∧
      (n = 0x30 → v.toNat = s.mbcur.toNat) ∧ (n = 0x31 → v.toNat = s.lfcur.toNat) ∧
      (n = 0x32 → v.toNat = s.curmb.mbx.toNat + s.curmb.mby.toNat * 1024 + s.curmb.lmode.code * 1048576
        + s.curmb.cmode.code * 16777216 + s.curmb.segid.toNat * 268435456 + s.curmb.skip.toNat * 2147483648) ∧
      (n = 0x33 → v.toNat = s.mbflags.whtDone.toNat + s.mbflags.lumaDone.toNat * 2 + s.mbflags.chromaDone.toNat * 4) ∧
      (n = 0x34 → v.toNat = s.idctDone.toNat) ∧
      (∀ k : Fin 8, n = 0x35 → v.toNat / 16 ^ k.val % 16 = (s.bpred[k.val]).code) ∧
      (∀ k : Fin 8, n = 0x36 → v.toNat / 16 ^ k.val % 16 = (s.bpred[8 + k.val]).code)) ∧
    (∀ n, (n = 0x07 ∨ (0x0C ≤ n ∧ n ≤ 0x0F) ∨ (0x28 ≤ n ∧ n ≤ 0x2F) ∨ 0x37 ≤ n) ↔ hostRead .reg n s = .hostErr)

/-- R62, R63, R68: a host read answers the unit at its index, zero-extended, or the error response, and changes nothing but the
responses given; a host write changes one byte of a plane in range and is otherwise the error response. Neither faults. That accesses come
from a queue and that the responses are recorded in the state is the model's choice (entries 1, 4). -/
def Obligations.HostAccess : Prop :=
  ∀ (s : State) (rest : List HostAction),
    (∀ sp i, s.inbox = .read sp i :: rest →
      step s = .next { s with inbox := rest, outbox := s.outbox ++ [hostRead sp i s] }) ∧
    (∀ b i, hostRead (.byte b) i s =
      if s.status.frameValid = true ∧ i < s.byteLength b then .data (BitVec.ofNat 32 (s.mem.read b i).toNat) else .hostErr) ∧
    (∀ i, hostRead .coefs i s = if i < 400 then .data (s.coefAt (i / 16) (i % 16)) else .hostErr) ∧
    (∀ i, hostRead .mbinfo i s =
      if s.status.frameValid = true ∧ i < s.totalMb then
        .data (BitVec.ofNat 32 ((s.mbInfoAt i).lmode.code + (s.mbInfoAt i).segid.toNat * 256 + (s.mbInfoAt i).skip.toNat * 65536))
      else .hostErr) ∧
    (∀ sp i v, s.inbox = .write sp i v :: rest →
      (∀ p : Plane, sp = .byte p.space → s.status.frameValid = true → i < s.byteLength p.space →
        step s = .next { s with
          inbox := rest, outbox := s.outbox ++ [.written], mem := s.mem.write p.space i (v.extractLsb' 0 8) }) ∧
      (((∀ p : Plane, sp ≠ .byte p.space) ∨ s.status.frameValid = false ∨ s.spaceLength sp ≤ i) →
        step s = .next { s with inbox := rest, outbox := s.outbox ++ [.hostErr] }))

/-- R41: after reset, whether by the reset input, by the RESET command or as the machine starts, every assigned register and every
coefficient reads 0, and every read of any other space is the error response, since no byte of it is addressable. -/
def Obligations.ResetReadsZero : Prop :=
  ∀ r : State,
    (r = State.reset ∨ (∃ s, exec .reset s = .next r) ∨ ∃ s rest, s.inbox = HostAction.reset :: rest ∧ step s = .next r) →
    (∀ n, (n < 0x07 ∨ (0x08 ≤ n ∧ n < 0x0C) ∨ (0x10 ≤ n ∧ n < 0x28) ∨ (0x30 ≤ n ∧ n < 0x37)) → hostRead .reg n r = .data 0) ∧
    (∀ i, i < 400 → hostRead .coefs i r = .data 0) ∧
    (∀ b i, hostRead (.byte b) i r = .hostErr) ∧ (∀ i, hostRead .mbinfo i r = .hostErr)

/-! ### The whole machine -/

/-- R22 ("written by"), R42: each register and store changes only under the commands its row names; `FCMD`, `FAULT` and `FCODE` change
only by fault entry, which changes nothing else. That the host's queue and the responses given are state, which no command but takes a
word from, is the model's choice (entries 1, 4); so is that the parameters are (entry 10), which no step changes, RESET included (R10). -/
def Obligations.RegisterWriters : Prop :=
  (∀ s t : State, step s = .next t → t.params = s.params) ∧ (∀ (i : Instr) (s t : State), exec i s = .next t → t.params = s.params) ∧
  ∀ (i : Instr) (s t : State), exec i s = .next t → i ≠ .reset →
    ((t.status.fault ≠ s.status.fault ∨ t.status.fcode ≠ s.status.fcode ∨ t.fcmdLo ≠ s.fcmdLo ∨ t.fcmdHi ≠ s.fcmdHi) →
      Unfaulted s ∧ ∃ code, code ≠ FaultCode.none ∧ t = faultEntry s code (encode i)) ∧
    (t.frame ≠ s.frame → i.opcode = .cfgFrame) ∧
    (t.filter ≠ s.filter → i.opcode = .cfgFilter) ∧
    (t.segctl ≠ s.segctl → i.opcode = .cfgSegctl) ∧
    (t.seg ≠ s.seg → i.opcode = .cfgSeg) ∧
    (t.segq ≠ s.segq → i.opcode = .cfgSegq ∨ i.opcode = .qderive) ∧
    (t.mbcur ≠ s.mbcur → i.opcode = .cfgFrame ∨ i.opcode = .mbEnd) ∧
    (t.lfcur ≠ s.lfcur → i.opcode = .cfgFrame ∨ i.opcode = .lfMb ∨ i.opcode = .lfFrame) ∧
    (t.curmb ≠ s.curmb → i.opcode = .mbBegin ∨ i.opcode = .cfgFrame) ∧
    (t.mbflags ≠ s.mbflags →
      i.opcode = .mbBegin ∨ i.opcode = .iwht ∨ i.opcode = .predLuma ∨ i.opcode = .predChroma ∨ i.opcode = .cfgFrame) ∧
    (t.idctDone ≠ s.idctDone → i.opcode = .mbBegin ∨ i.opcode = .idct ∨ i.opcode = .cfgFrame) ∧
    (t.bpred ≠ s.bpred → i.opcode = .mbBegin ∨ i.opcode = .bpred ∨ i.opcode = .cfgFrame) ∧
    (t.coef ≠ s.coef → i.opcode = .mbBegin ∨ i.opcode = .coef ∨ i.opcode = .iwht ∨ i.opcode = .idct ∨ i.opcode = .cfgFrame) ∧
    (t.mbinfo ≠ s.mbinfo → i.opcode = .mbEnd ∨ i.opcode = .cfgFrame) ∧
    (t.status.frameValid ≠ s.status.frameValid → i.opcode = .cfgFrame) ∧
    (t.status.mbOpen ≠ s.status.mbOpen → i.opcode = .mbBegin ∨ i.opcode = .mbEnd ∨ i.opcode = .cfgFrame) ∧
    t.inbox = s.inbox ∧ t.outbox = s.outbox

/-- R60 ("reached by"), R208: each byte space changes only under the commands its row names. -/
def Obligations.MemoryWriters : Prop :=
  ∀ (i : Instr) (s t : State) (sp : ByteSpace), exec i s = .next t → i ≠ .reset → i.opcode ≠ .cfgFrame →
    t.mem.cells sp ≠ s.mem.cells sp →
    match sp with
    | .y => i.opcode = .predLuma ∨ i.opcode = .lfMb ∨ i.opcode = .lfFrame
    | .u | .v => i.opcode = .predChroma ∨ i.opcode = .lfMb ∨ i.opcode = .lfFrame
    | .topY => i.opcode = .predLuma
    | .leftY => i.opcode = .predLuma ∨ i.opcode = .mbEnd
    | .topU | .topV => i.opcode = .predChroma
    | .leftU | .leftV => i.opcode = .predChroma ∨ i.opcode = .mbEnd

/-- The state after reset meets the invariant, whatever parameters the machine is built with (R10, entry 10). -/
def Obligations.ResetMeetsInvariant : Prop := State.reset.Inv ∧ ∀ cfg : Config, (State.resetWith cfg).Inv

/-- Every step keeps memory and `MBINFO` in canonical form, from every state that has it. -/
def Obligations.StepKeepsMemoryCanonical : Prop :=
  ∀ s t : State, s.MemoryCanonical → step s = .next t → t.MemoryCanonical

/-- Every step, whatever the host does, keeps the whole invariant: memory canonical and inside its spaces (R60, R69), the fault
registers (R23, R24), the frame's shape (R26), the cursors (R31, R72), the field ranges (R28, R29), the left border seeds (R182), the
zero residue of a skipped macroblock (R151), and the order of the transforms (R320). -/
def Obligations.StepKeepsInvariant : Prop := ∀ s t : State, s.Inv → step s = .next t → t.Inv

/-- R69: from a state that meets the invariant no host action makes the model stop: every step answers a next state, so a command
never addresses memory outside a space. -/
def Obligations.NoStepStops : Prop := ∀ s : State, s.Inv → ∃ t, step s = .next t

/-- R60, R69 (entry 7): outside the invariant the model stops exactly where a command that passes its checks would use an index its
space does not have; the first clause says what every stop has in common with a lost cursor or a lost `CURMB`. -/
def Obligations.OutOfSpaceStops : Prop :=
  (∀ (i : Instr) (s : State) (f : Fault), exec i s = .fault f →
    (i = .mbEnd ∧ s.totalMb ≤ s.mbcur.toNat ∧ f = .outOfSpace .mbinfo s.mbcur.toNat) ∨
    ((∃ mbx mby, i = .lfMb mbx mby) ∧ s.totalMb ≤ s.lfcur.toNat ∧ f = .outOfSpace .mbinfo s.lfcur.toNat) ∨
    (i = .predLuma ∧ s.mbw ≤ s.curmb.mbx.toNat ∧ ∃ n, s.byteLength .topY ≤ n ∧ f = .outOfSpace (.byte .topY) n) ∨
    (i = .predChroma ∧ s.mbw ≤ s.curmb.mbx.toNat ∧ ∃ n, s.byteLength .topU ≤ n ∧ f = .outOfSpace (.byte .topU) n)) ∧
  ∀ (i : Instr) (s : State) (f : Fault),
    let lumaReach := 16 * s.curmb.mbx.toNat + (if s.curmb.mby.toNat = 0 ∨ s.curmb.mbx.toNat = s.mbw - 1 then 15 else 19)
    let chromaReach := 8 * s.curmb.mbx.toNat + 7
    exec i s = .fault f ↔ Unfaulted s ∧ (
      (i = .mbEnd ∧ InMb s ∧ s.mbflags.lumaDone = true ∧ s.mbflags.chromaDone = true ∧ s.totalMb ≤ s.mbcur.toNat ∧
        f = .outOfSpace .mbinfo s.mbcur.toNat) ∨
      (∃ mbx mby, i = .lfMb mbx mby ∧ s.status.frameValid = true ∧ s.status.mbOpen = false ∧ s.totalMb ≤ s.mbcur.toNat ∧
        mbx.toNat < s.mbw ∧ mby.toNat * s.mbw + mbx.toNat = s.lfcur.toNat ∧ s.totalMb < s.lfcur.toNat ∧
        f = .outOfSpace .mbinfo s.lfcur.toNat) ∨
      (i = .predLuma ∧ InMb s ∧ s.mbflags.lumaDone = false ∧ (s.curmb.skip = false → ∀ k, k < 16 → s.idctDoneAt k = true) ∧
        s.width + 20 ≤ lumaReach ∧ f = .outOfSpace (.byte .topY) lumaReach) ∨
      (i = .predChroma ∧ InMb s ∧ s.mbflags.chromaDone = false ∧
        (s.curmb.skip = false → ∀ k, 16 ≤ k → k < 24 → s.idctDoneAt k = true) ∧
        8 * s.mbw ≤ chromaReach ∧ f = .outOfSpace (.byte .topU) chromaReach))
end

