-- ==== Sys2Proof/Laws/Sparse.lean ====
section
/-! SUPPORT. The laws of the sparse stores: a read after a write, and the canonical form kept. -/

namespace Sys2Proof.Machine

variable {α : Type} {d x : α} {i j : Nat} {l : List (Nat × α)}

@[simp] theorem lookup_nil : lookup d [] i = d := rfl

theorem lookup_cons {a : Nat} {y : α} : lookup d ((a, y) :: l) i = if i = a then y else lookup d l i := rfl

/-- An index below every listed one reads as unlisted. -/
theorem lookup_of_lt (h : ∀ p ∈ l, i < p.1) : lookup d l i = d := by
  induction l with
  | nil => rfl
  | cons p rest ih =>
    obtain ⟨a, y⟩ := p
    have ha : i < a := h (a, y) (by simp)
    rw [lookup_cons, if_neg (by omega)]
    exact ih fun p hp => h p (by simp [hp])

variable [DecidableEq α]

/-- A listed cell after a write is the written one or was listed before. -/
theorem mem_store {p : Nat × α} (h : p ∈ store d i x l) : p = (i, x) ∨ p ∈ l := by
  induction l with
  | nil => simp only [store] at h; split at h <;> simp_all
  | cons q rest ih =>
    obtain ⟨a, y⟩ := q
    simp only [store] at h
    split at h
    · split at h <;> simp_all
    · split at h
      · split at h
        · exact .inr (by simp [h])
        · rcases List.mem_cons.mp h with h | h <;> simp_all
      · rcases List.mem_cons.mp h with h | h
        · exact .inr (by simp [h])
        · exact (ih h).imp_right fun h => by simp [h]

/-- A write keeps the canonical form. -/
theorem canonical_store (h : Canonical d l) : Canonical d (store d i x l) := by
  induction l with
  | nil => simp only [store]; split <;> simp_all [Canonical]
  | cons q rest ih =>
    obtain ⟨a, y⟩ := q
    obtain ⟨hs, hd⟩ := h
    rw [List.pairwise_cons] at hs
    have hrest : Canonical d rest := ⟨hs.2, fun p hp => hd p (by simp [hp])⟩
    simp only [store]
    split
    next hia =>
      split
      · exact ⟨List.pairwise_cons.mpr hs, hd⟩
      next hx =>
        refine ⟨List.pairwise_cons.mpr ⟨?_, List.pairwise_cons.mpr hs⟩, ?_⟩
        · intro p hp
          rcases List.mem_cons.mp hp with rfl | hp
          · exact hia
          · exact Nat.lt_trans hia (hs.1 p hp)
        · intro p hp
          rcases List.mem_cons.mp hp with rfl | hp
          · exact hx
          · exact hd p hp
    next hia =>
      split
      next hEq =>
        split
        · exact hrest
        next hx =>
          refine ⟨List.pairwise_cons.mpr ⟨fun p hp => hEq ▸ hs.1 p hp, hs.2⟩, ?_⟩
          intro p hp
          rcases List.mem_cons.mp hp with rfl | hp
          · exact hx
          · exact hd p (by simp [hp])
      next hne =>
        refine ⟨List.pairwise_cons.mpr ⟨?_, (ih hrest).1⟩, ?_⟩
        · intro p hp
          rcases mem_store hp with rfl | hp
          · show a < i
            omega
          · exact hs.1 p hp
        · intro p hp
          rcases List.mem_cons.mp hp with rfl | hp
          · exact hd _ (by simp)
          · exact (ih hrest).2 p hp

/-- A read after a write to the same index gives the value written. -/
theorem lookup_store_same (h : Canonical d l) : lookup d (store d i x l) i = x := by
  induction l with
  | nil => simp only [store]; split <;> simp_all [lookup]
  | cons q rest ih =>
    obtain ⟨a, y⟩ := q
    obtain ⟨hs, hd⟩ := h
    rw [List.pairwise_cons] at hs
    simp only [store]
    split
    next hia =>
      split
      next hx =>
        subst hx
        refine lookup_of_lt fun p hp => ?_
        rcases List.mem_cons.mp hp with rfl | hp
        · exact hia
        · exact Nat.lt_trans hia (hs.1 p hp)
      · simp [lookup]
    next hia =>
      split
      next hEq =>
        split
        next hx =>
          subst hx
          exact lookup_of_lt fun p hp => hEq ▸ hs.1 p hp
        · simp [lookup]
      next hne =>
        rw [lookup_cons, if_neg hne]
        exact ih ⟨hs.2, fun p hp => hd p (by simp [hp])⟩

/-- A write leaves every other index alone. -/
theorem lookup_store_other (h : j ≠ i) : lookup d (store d i x l) j = lookup d l j := by
  induction l with
  | nil => simp only [store]; split <;> simp_all [lookup]
  | cons q rest ih =>
    obtain ⟨a, y⟩ := q
    simp only [store]
    split
    · split
      · rfl
      · rw [lookup_cons, if_neg h]
    · split
      next hEq =>
        subst hEq
        split <;> simp [lookup, h]
      · simp only [lookup_cons, ih]

end Sys2Proof.Machine
end

