-- ==== Sys2Proof/Laws/Memory.lean ====
section
/-! SUPPORT. The laws of the byte spaces: reads after writes, spaces apart, the canonical form kept by every operation, and
which cells a run of writes can list. -/

namespace Sys2Proof.Machine

variable {m : Memory} {sp sp' : ByteSpace} {i j : Nat} {v : Byte}

@[simp] theorem cells_withCells_same (l : List Host.Cell) : (m.withCells sp l).cells sp = l := by cases sp <;> rfl

theorem cells_withCells_other (l : List Host.Cell) (h : sp' ≠ sp) : (m.withCells sp l).cells sp' = m.cells sp' := by
  cases sp <;> cases sp' <;> first | rfl | exact absurd rfl h

/-- Two memories with the same cells in every space are one memory. -/
theorem memory_ext {m' : Memory} (h : ∀ sp, m.cells sp = m'.cells sp) : m = m' := by
  cases m; cases m'
  simp only [Memory.mk.injEq]
  exact ⟨h .y, h .u, h .v, h .topY, h .leftY, h .topU, h .topV, h .leftU, h .leftV⟩

/-- A read sees the cells of its space alone. -/
theorem read_congr {m' : Memory} (h : m.cells sp = m'.cells sp) : m.read sp i = m'.read sp i := by
  simp only [Memory.read, h]

/-- Canonical form, space by space. -/
theorem memory_wf_iff : m.wf ↔ ∀ sp, Canonical (unlistedByte sp) (m.cells sp) := by
  constructor
  · rintro ⟨h1, h2, h3, h4, h5, h6, h7, h8, h9⟩ sp
    cases sp <;> assumption
  · intro h
    exact ⟨h .y, h .u, h .v, h .topY, h .leftY, h .topU, h .topV, h .leftU, h .leftV⟩

/-- Replacing one space by a canonical list keeps the form. -/
theorem wf_withCells {l : List Host.Cell} (h : m.wf) (hl : Canonical (unlistedByte sp) l) : (m.withCells sp l).wf := by
  rw [memory_wf_iff] at h ⊢
  intro sp'
  by_cases he : sp' = sp
  · subst he; simpa using hl
  · rw [cells_withCells_other l he]; exact h sp'

@[simp] theorem cells_empty : Memory.empty.cells sp = [] := by cases sp <;> rfl

@[simp] theorem read_empty : Memory.empty.read sp i = unlistedByte sp := by simp [Memory.read]

theorem wf_empty : Memory.empty.wf := by
  rw [memory_wf_iff]; intro sp; simp [Canonical]

@[simp] theorem cells_write_same : (m.write sp i v).cells sp = store (unlistedByte sp) i v (m.cells sp) := by
  simp [Memory.write]

theorem cells_write_other (h : sp' ≠ sp) : (m.write sp i v).cells sp' = m.cells sp' := cells_withCells_other _ h

/-- A write keeps the canonical form. -/
theorem wf_write (h : m.wf) : (m.write sp i v).wf := wf_withCells h (canonical_store (memory_wf_iff.mp h sp))

/-- A read after a write to the same byte gives the value written. -/
theorem read_write_same (h : m.wf) : (m.write sp i v).read sp i = v := by
  simp only [Memory.read, cells_write_same]; exact lookup_store_same (memory_wf_iff.mp h sp)

/-- A write leaves every other byte alone. -/
theorem read_write_other (h : sp' ≠ sp ∨ j ≠ i) : (m.write sp i v).read sp' j = m.read sp' j := by
  by_cases he : sp' = sp
  · subst he
    have hj : j ≠ i := h.resolve_left (by simp)
    simp only [Memory.read, cells_write_same]; exact lookup_store_other hj
  · simp only [Memory.read, cells_write_other he]

@[simp] theorem writeAll_nil : m.writeAll sp [] = m := rfl

theorem writeAll_cons (c : Host.Cell) (l : List Host.Cell) : m.writeAll sp (c :: l) = (m.write sp c.1 c.2).writeAll sp l := rfl

theorem writeAll_append (l l' : List Host.Cell) : m.writeAll sp (l ++ l') = (m.writeAll sp l).writeAll sp l' := by
  simp [Memory.writeAll]

/-- A run of writes keeps the canonical form. -/
theorem wf_writeAll {l : List Host.Cell} (h : m.wf) : (m.writeAll sp l).wf := by
  induction l generalizing m with
  | nil => exact h
  | cons c l ih => exact ih (wf_write h)

theorem cells_writeAll_other {l : List Host.Cell} (h : sp' ≠ sp) : (m.writeAll sp l).cells sp' = m.cells sp' := by
  induction l generalizing m with
  | nil => rfl
  | cons c l ih => rw [writeAll_cons, ih, cells_write_other h]

/-- A run of writes leaves every byte it does not name alone. -/
theorem read_writeAll_other {l : List Host.Cell} (h : sp' ≠ sp ∨ ∀ c ∈ l, c.1 ≠ j) :
    (m.writeAll sp l).read sp' j = m.read sp' j := by
  induction l generalizing m with
  | nil => rfl
  | cons c l ih =>
    rw [writeAll_cons, ih (h.imp_right fun h c hc => h c (by simp [hc])),
      read_write_other (h.imp_right fun h => (h c (by simp)).symm)]

/-- A byte named once by a run of writes reads as written. -/
theorem read_writeAll_mem {l : List Host.Cell} (h : m.wf) (hn : (l.map Prod.fst).Nodup) (hc : (j, v) ∈ l) :
    (m.writeAll sp l).read sp j = v := by
  induction l generalizing m with
  | nil => simp at hc
  | cons c l ih =>
    rw [List.map_cons, List.nodup_cons] at hn
    rw [writeAll_cons]
    rcases List.mem_cons.mp hc with rfl | hc
    · rw [read_writeAll_other (.inr fun c hc he => hn.1 (List.mem_map.mpr ⟨c, hc, he⟩))]
      exact read_write_same h
    · exact ih (wf_write h) hn.2 hc

/-- A cell listed after a run of writes was written or listed before. -/
theorem mem_cells_writeAll {l : List Host.Cell} {c : Host.Cell} (h : c ∈ (m.writeAll sp l).cells sp) :
    c ∈ l ∨ c ∈ m.cells sp := by
  induction l generalizing m with
  | nil => exact .inr h
  | cons d l ih =>
    rw [writeAll_cons] at h
    rcases ih h with h | h
    · exact .inl (by simp [h])
    · rw [cells_write_same] at h
      rcases mem_store h with rfl | h
      · exact .inl (by simp)
      · exact .inr h

@[simp] theorem cells_reseed_same : (m.reseed sp).cells sp = [] := by simp [Memory.reseed]

theorem cells_reseed_other (h : sp' ≠ sp) : (m.reseed sp).cells sp' = m.cells sp' := cells_withCells_other _ h

theorem wf_reseed (h : m.wf) : (m.reseed sp).wf := wf_withCells h (by simp [Canonical])

/-- Each address space has its own id, and an id names one space (R60). -/
theorem spaceOfId_eq_some {n : Nat} {sp : Space} : spaceOfId n = some sp ↔ sp.id = n := by
  constructor
  · unfold spaceOfId
    split <;> intro h <;> cases h <;> rfl
  · rintro rfl
    cases sp with
    | byte b => cases b <;> rfl
    | _ => rfl

end Sys2Proof.Machine
end

