-- ==== Sys2Proof/Laws/State.lean ====
section
/-! SUPPORT. One lemma per field per update of the state, and the derived quantities, which depend on `FRAME` alone. -/

namespace Sys2Proof.Machine

variable (s : State)

/-! ### setCoefBlock -/

@[simp] theorem setCoefBlock_status (b : Nat) (blk : Block) : (s.setCoefBlock b blk).status = s.status := rfl
@[simp] theorem setCoefBlock_fcmdLo (b : Nat) (blk : Block) : (s.setCoefBlock b blk).fcmdLo = s.fcmdLo := rfl
@[simp] theorem setCoefBlock_fcmdHi (b : Nat) (blk : Block) : (s.setCoefBlock b blk).fcmdHi = s.fcmdHi := rfl
@[simp] theorem setCoefBlock_frame (b : Nat) (blk : Block) : (s.setCoefBlock b blk).frame = s.frame := rfl
@[simp] theorem setCoefBlock_filter (b : Nat) (blk : Block) : (s.setCoefBlock b blk).filter = s.filter := rfl
@[simp] theorem setCoefBlock_segctl (b : Nat) (blk : Block) : (s.setCoefBlock b blk).segctl = s.segctl := rfl
@[simp] theorem setCoefBlock_seg (b : Nat) (blk : Block) : (s.setCoefBlock b blk).seg = s.seg := rfl
@[simp] theorem setCoefBlock_segq (b : Nat) (blk : Block) : (s.setCoefBlock b blk).segq = s.segq := rfl
@[simp] theorem setCoefBlock_mbcur (b : Nat) (blk : Block) : (s.setCoefBlock b blk).mbcur = s.mbcur := rfl
@[simp] theorem setCoefBlock_lfcur (b : Nat) (blk : Block) : (s.setCoefBlock b blk).lfcur = s.lfcur := rfl
@[simp] theorem setCoefBlock_curmb (b : Nat) (blk : Block) : (s.setCoefBlock b blk).curmb = s.curmb := rfl
@[simp] theorem setCoefBlock_mbflags (b : Nat) (blk : Block) : (s.setCoefBlock b blk).mbflags = s.mbflags := rfl
@[simp] theorem setCoefBlock_idctDone (b : Nat) (blk : Block) : (s.setCoefBlock b blk).idctDone = s.idctDone := rfl
@[simp] theorem setCoefBlock_bpred (b : Nat) (blk : Block) : (s.setCoefBlock b blk).bpred = s.bpred := rfl
@[simp] theorem setCoefBlock_coef (b : Nat) (blk : Block) : (s.setCoefBlock b blk).coef = s.coef.setIfInBounds b blk := rfl
@[simp] theorem setCoefBlock_mem (b : Nat) (blk : Block) : (s.setCoefBlock b blk).mem = s.mem := rfl
@[simp] theorem setCoefBlock_mbinfo (b : Nat) (blk : Block) : (s.setCoefBlock b blk).mbinfo = s.mbinfo := rfl
@[simp] theorem setCoefBlock_inbox (b : Nat) (blk : Block) : (s.setCoefBlock b blk).inbox = s.inbox := rfl
@[simp] theorem setCoefBlock_params (b : Nat) (blk : Block) : (s.setCoefBlock b blk).params = s.params := rfl
@[simp] theorem setCoefBlock_outbox (b : Nat) (blk : Block) : (s.setCoefBlock b blk).outbox = s.outbox := rfl

/-! ### setCoef -/

@[simp] theorem setCoef_status (b k : Nat) (v : Coef) : (s.setCoef b k v).status = s.status := rfl
@[simp] theorem setCoef_fcmdLo (b k : Nat) (v : Coef) : (s.setCoef b k v).fcmdLo = s.fcmdLo := rfl
@[simp] theorem setCoef_fcmdHi (b k : Nat) (v : Coef) : (s.setCoef b k v).fcmdHi = s.fcmdHi := rfl
@[simp] theorem setCoef_frame (b k : Nat) (v : Coef) : (s.setCoef b k v).frame = s.frame := rfl
@[simp] theorem setCoef_filter (b k : Nat) (v : Coef) : (s.setCoef b k v).filter = s.filter := rfl
@[simp] theorem setCoef_segctl (b k : Nat) (v : Coef) : (s.setCoef b k v).segctl = s.segctl := rfl
@[simp] theorem setCoef_seg (b k : Nat) (v : Coef) : (s.setCoef b k v).seg = s.seg := rfl
@[simp] theorem setCoef_segq (b k : Nat) (v : Coef) : (s.setCoef b k v).segq = s.segq := rfl
@[simp] theorem setCoef_mbcur (b k : Nat) (v : Coef) : (s.setCoef b k v).mbcur = s.mbcur := rfl
@[simp] theorem setCoef_lfcur (b k : Nat) (v : Coef) : (s.setCoef b k v).lfcur = s.lfcur := rfl
@[simp] theorem setCoef_curmb (b k : Nat) (v : Coef) : (s.setCoef b k v).curmb = s.curmb := rfl
@[simp] theorem setCoef_mbflags (b k : Nat) (v : Coef) : (s.setCoef b k v).mbflags = s.mbflags := rfl
@[simp] theorem setCoef_idctDone (b k : Nat) (v : Coef) : (s.setCoef b k v).idctDone = s.idctDone := rfl
@[simp] theorem setCoef_bpred (b k : Nat) (v : Coef) : (s.setCoef b k v).bpred = s.bpred := rfl
@[simp] theorem setCoef_coef (b k : Nat) (v : Coef) : (s.setCoef b k v).coef = s.coef.setIfInBounds b ((s.coefBlock b).setIfInBounds k v) := rfl
@[simp] theorem setCoef_mem (b k : Nat) (v : Coef) : (s.setCoef b k v).mem = s.mem := rfl
@[simp] theorem setCoef_mbinfo (b k : Nat) (v : Coef) : (s.setCoef b k v).mbinfo = s.mbinfo := rfl
@[simp] theorem setCoef_inbox (b k : Nat) (v : Coef) : (s.setCoef b k v).inbox = s.inbox := rfl
@[simp] theorem setCoef_params (b k : Nat) (v : Coef) : (s.setCoef b k v).params = s.params := rfl
@[simp] theorem setCoef_outbox (b k : Nat) (v : Coef) : (s.setCoef b k v).outbox = s.outbox := rfl

/-! ### setSegReg -/

@[simp] theorem setSegReg_status (n : BitVec 2) (r : SegReg) : (s.setSegReg n r).status = s.status := rfl
@[simp] theorem setSegReg_fcmdLo (n : BitVec 2) (r : SegReg) : (s.setSegReg n r).fcmdLo = s.fcmdLo := rfl
@[simp] theorem setSegReg_fcmdHi (n : BitVec 2) (r : SegReg) : (s.setSegReg n r).fcmdHi = s.fcmdHi := rfl
@[simp] theorem setSegReg_frame (n : BitVec 2) (r : SegReg) : (s.setSegReg n r).frame = s.frame := rfl
@[simp] theorem setSegReg_filter (n : BitVec 2) (r : SegReg) : (s.setSegReg n r).filter = s.filter := rfl
@[simp] theorem setSegReg_segctl (n : BitVec 2) (r : SegReg) : (s.setSegReg n r).segctl = s.segctl := rfl
@[simp] theorem setSegReg_segq (n : BitVec 2) (r : SegReg) : (s.setSegReg n r).segq = s.segq := rfl
@[simp] theorem setSegReg_mbcur (n : BitVec 2) (r : SegReg) : (s.setSegReg n r).mbcur = s.mbcur := rfl
@[simp] theorem setSegReg_lfcur (n : BitVec 2) (r : SegReg) : (s.setSegReg n r).lfcur = s.lfcur := rfl
@[simp] theorem setSegReg_curmb (n : BitVec 2) (r : SegReg) : (s.setSegReg n r).curmb = s.curmb := rfl
@[simp] theorem setSegReg_mbflags (n : BitVec 2) (r : SegReg) : (s.setSegReg n r).mbflags = s.mbflags := rfl
@[simp] theorem setSegReg_idctDone (n : BitVec 2) (r : SegReg) : (s.setSegReg n r).idctDone = s.idctDone := rfl
@[simp] theorem setSegReg_bpred (n : BitVec 2) (r : SegReg) : (s.setSegReg n r).bpred = s.bpred := rfl
@[simp] theorem setSegReg_coef (n : BitVec 2) (r : SegReg) : (s.setSegReg n r).coef = s.coef := rfl
@[simp] theorem setSegReg_mem (n : BitVec 2) (r : SegReg) : (s.setSegReg n r).mem = s.mem := rfl
@[simp] theorem setSegReg_mbinfo (n : BitVec 2) (r : SegReg) : (s.setSegReg n r).mbinfo = s.mbinfo := rfl
@[simp] theorem setSegReg_inbox (n : BitVec 2) (r : SegReg) : (s.setSegReg n r).inbox = s.inbox := rfl
@[simp] theorem setSegReg_params (n : BitVec 2) (r : SegReg) : (s.setSegReg n r).params = s.params := rfl
@[simp] theorem setSegReg_outbox (n : BitVec 2) (r : SegReg) : (s.setSegReg n r).outbox = s.outbox := rfl

/-! ### setQuantRow -/

@[simp] theorem setQuantRow_status (n : BitVec 2) (r : QuantRow) : (s.setQuantRow n r).status = s.status := rfl
@[simp] theorem setQuantRow_fcmdLo (n : BitVec 2) (r : QuantRow) : (s.setQuantRow n r).fcmdLo = s.fcmdLo := rfl
@[simp] theorem setQuantRow_fcmdHi (n : BitVec 2) (r : QuantRow) : (s.setQuantRow n r).fcmdHi = s.fcmdHi := rfl
@[simp] theorem setQuantRow_frame (n : BitVec 2) (r : QuantRow) : (s.setQuantRow n r).frame = s.frame := rfl
@[simp] theorem setQuantRow_filter (n : BitVec 2) (r : QuantRow) : (s.setQuantRow n r).filter = s.filter := rfl
@[simp] theorem setQuantRow_segctl (n : BitVec 2) (r : QuantRow) : (s.setQuantRow n r).segctl = s.segctl := rfl
@[simp] theorem setQuantRow_seg (n : BitVec 2) (r : QuantRow) : (s.setQuantRow n r).seg = s.seg := rfl
@[simp] theorem setQuantRow_mbcur (n : BitVec 2) (r : QuantRow) : (s.setQuantRow n r).mbcur = s.mbcur := rfl
@[simp] theorem setQuantRow_lfcur (n : BitVec 2) (r : QuantRow) : (s.setQuantRow n r).lfcur = s.lfcur := rfl
@[simp] theorem setQuantRow_curmb (n : BitVec 2) (r : QuantRow) : (s.setQuantRow n r).curmb = s.curmb := rfl
@[simp] theorem setQuantRow_mbflags (n : BitVec 2) (r : QuantRow) : (s.setQuantRow n r).mbflags = s.mbflags := rfl
@[simp] theorem setQuantRow_idctDone (n : BitVec 2) (r : QuantRow) : (s.setQuantRow n r).idctDone = s.idctDone := rfl
@[simp] theorem setQuantRow_bpred (n : BitVec 2) (r : QuantRow) : (s.setQuantRow n r).bpred = s.bpred := rfl
@[simp] theorem setQuantRow_coef (n : BitVec 2) (r : QuantRow) : (s.setQuantRow n r).coef = s.coef := rfl
@[simp] theorem setQuantRow_mem (n : BitVec 2) (r : QuantRow) : (s.setQuantRow n r).mem = s.mem := rfl
@[simp] theorem setQuantRow_mbinfo (n : BitVec 2) (r : QuantRow) : (s.setQuantRow n r).mbinfo = s.mbinfo := rfl
@[simp] theorem setQuantRow_inbox (n : BitVec 2) (r : QuantRow) : (s.setQuantRow n r).inbox = s.inbox := rfl
@[simp] theorem setQuantRow_params (n : BitVec 2) (r : QuantRow) : (s.setQuantRow n r).params = s.params := rfl
@[simp] theorem setQuantRow_outbox (n : BitVec 2) (r : QuantRow) : (s.setQuantRow n r).outbox = s.outbox := rfl

/-! ### setMbInfo -/

@[simp] theorem setMbInfo_status (i : Nat) (r : MbInfo) : (s.setMbInfo i r).status = s.status := rfl
@[simp] theorem setMbInfo_fcmdLo (i : Nat) (r : MbInfo) : (s.setMbInfo i r).fcmdLo = s.fcmdLo := rfl
@[simp] theorem setMbInfo_fcmdHi (i : Nat) (r : MbInfo) : (s.setMbInfo i r).fcmdHi = s.fcmdHi := rfl
@[simp] theorem setMbInfo_frame (i : Nat) (r : MbInfo) : (s.setMbInfo i r).frame = s.frame := rfl
@[simp] theorem setMbInfo_filter (i : Nat) (r : MbInfo) : (s.setMbInfo i r).filter = s.filter := rfl
@[simp] theorem setMbInfo_segctl (i : Nat) (r : MbInfo) : (s.setMbInfo i r).segctl = s.segctl := rfl
@[simp] theorem setMbInfo_seg (i : Nat) (r : MbInfo) : (s.setMbInfo i r).seg = s.seg := rfl
@[simp] theorem setMbInfo_segq (i : Nat) (r : MbInfo) : (s.setMbInfo i r).segq = s.segq := rfl
@[simp] theorem setMbInfo_mbcur (i : Nat) (r : MbInfo) : (s.setMbInfo i r).mbcur = s.mbcur := rfl
@[simp] theorem setMbInfo_lfcur (i : Nat) (r : MbInfo) : (s.setMbInfo i r).lfcur = s.lfcur := rfl
@[simp] theorem setMbInfo_curmb (i : Nat) (r : MbInfo) : (s.setMbInfo i r).curmb = s.curmb := rfl
@[simp] theorem setMbInfo_mbflags (i : Nat) (r : MbInfo) : (s.setMbInfo i r).mbflags = s.mbflags := rfl
@[simp] theorem setMbInfo_idctDone (i : Nat) (r : MbInfo) : (s.setMbInfo i r).idctDone = s.idctDone := rfl
@[simp] theorem setMbInfo_bpred (i : Nat) (r : MbInfo) : (s.setMbInfo i r).bpred = s.bpred := rfl
@[simp] theorem setMbInfo_coef (i : Nat) (r : MbInfo) : (s.setMbInfo i r).coef = s.coef := rfl
@[simp] theorem setMbInfo_mem (i : Nat) (r : MbInfo) : (s.setMbInfo i r).mem = s.mem := rfl
@[simp] theorem setMbInfo_mbinfo (i : Nat) (r : MbInfo) : (s.setMbInfo i r).mbinfo = store MbInfo.zero i r s.mbinfo := rfl
@[simp] theorem setMbInfo_inbox (i : Nat) (r : MbInfo) : (s.setMbInfo i r).inbox = s.inbox := rfl
@[simp] theorem setMbInfo_params (i : Nat) (r : MbInfo) : (s.setMbInfo i r).params = s.params := rfl
@[simp] theorem setMbInfo_outbox (i : Nat) (r : MbInfo) : (s.setMbInfo i r).outbox = s.outbox := rfl

/-! ### setIdctDone -/

@[simp] theorem setIdctDone_status (b : Nat) : (s.setIdctDone b).status = s.status := rfl
@[simp] theorem setIdctDone_fcmdLo (b : Nat) : (s.setIdctDone b).fcmdLo = s.fcmdLo := rfl
@[simp] theorem setIdctDone_fcmdHi (b : Nat) : (s.setIdctDone b).fcmdHi = s.fcmdHi := rfl
@[simp] theorem setIdctDone_frame (b : Nat) : (s.setIdctDone b).frame = s.frame := rfl
@[simp] theorem setIdctDone_filter (b : Nat) : (s.setIdctDone b).filter = s.filter := rfl
@[simp] theorem setIdctDone_segctl (b : Nat) : (s.setIdctDone b).segctl = s.segctl := rfl
@[simp] theorem setIdctDone_seg (b : Nat) : (s.setIdctDone b).seg = s.seg := rfl
@[simp] theorem setIdctDone_segq (b : Nat) : (s.setIdctDone b).segq = s.segq := rfl
@[simp] theorem setIdctDone_mbcur (b : Nat) : (s.setIdctDone b).mbcur = s.mbcur := rfl
@[simp] theorem setIdctDone_lfcur (b : Nat) : (s.setIdctDone b).lfcur = s.lfcur := rfl
@[simp] theorem setIdctDone_curmb (b : Nat) : (s.setIdctDone b).curmb = s.curmb := rfl
@[simp] theorem setIdctDone_mbflags (b : Nat) : (s.setIdctDone b).mbflags = s.mbflags := rfl
@[simp] theorem setIdctDone_idctDone (b : Nat) : (s.setIdctDone b).idctDone = s.idctDone ||| BitVec.ofNat 24 (2 ^ b) := rfl
@[simp] theorem setIdctDone_bpred (b : Nat) : (s.setIdctDone b).bpred = s.bpred := rfl
@[simp] theorem setIdctDone_coef (b : Nat) : (s.setIdctDone b).coef = s.coef := rfl
@[simp] theorem setIdctDone_mem (b : Nat) : (s.setIdctDone b).mem = s.mem := rfl
@[simp] theorem setIdctDone_mbinfo (b : Nat) : (s.setIdctDone b).mbinfo = s.mbinfo := rfl
@[simp] theorem setIdctDone_inbox (b : Nat) : (s.setIdctDone b).inbox = s.inbox := rfl
@[simp] theorem setIdctDone_params (b : Nat) : (s.setIdctDone b).params = s.params := rfl
@[simp] theorem setIdctDone_outbox (b : Nat) : (s.setIdctDone b).outbox = s.outbox := rfl

/-! ### withMem -/

@[simp] theorem withMem_status (m : Memory) : (s.withMem m).status = s.status := rfl
@[simp] theorem withMem_fcmdLo (m : Memory) : (s.withMem m).fcmdLo = s.fcmdLo := rfl
@[simp] theorem withMem_fcmdHi (m : Memory) : (s.withMem m).fcmdHi = s.fcmdHi := rfl
@[simp] theorem withMem_frame (m : Memory) : (s.withMem m).frame = s.frame := rfl
@[simp] theorem withMem_filter (m : Memory) : (s.withMem m).filter = s.filter := rfl
@[simp] theorem withMem_segctl (m : Memory) : (s.withMem m).segctl = s.segctl := rfl
@[simp] theorem withMem_seg (m : Memory) : (s.withMem m).seg = s.seg := rfl
@[simp] theorem withMem_segq (m : Memory) : (s.withMem m).segq = s.segq := rfl
@[simp] theorem withMem_mbcur (m : Memory) : (s.withMem m).mbcur = s.mbcur := rfl
@[simp] theorem withMem_lfcur (m : Memory) : (s.withMem m).lfcur = s.lfcur := rfl
@[simp] theorem withMem_curmb (m : Memory) : (s.withMem m).curmb = s.curmb := rfl
@[simp] theorem withMem_mbflags (m : Memory) : (s.withMem m).mbflags = s.mbflags := rfl
@[simp] theorem withMem_idctDone (m : Memory) : (s.withMem m).idctDone = s.idctDone := rfl
@[simp] theorem withMem_bpred (m : Memory) : (s.withMem m).bpred = s.bpred := rfl
@[simp] theorem withMem_coef (m : Memory) : (s.withMem m).coef = s.coef := rfl
@[simp] theorem withMem_mem (m : Memory) : (s.withMem m).mem = m := rfl
@[simp] theorem withMem_mbinfo (m : Memory) : (s.withMem m).mbinfo = s.mbinfo := rfl
@[simp] theorem withMem_inbox (m : Memory) : (s.withMem m).inbox = s.inbox := rfl
@[simp] theorem withMem_params (m : Memory) : (s.withMem m).params = s.params := rfl
@[simp] theorem withMem_outbox (m : Memory) : (s.withMem m).outbox = s.outbox := rfl

/-! ### respond -/

@[simp] theorem respond_status (r : HostResponse) : (s.respond r).status = s.status := rfl
@[simp] theorem respond_fcmdLo (r : HostResponse) : (s.respond r).fcmdLo = s.fcmdLo := rfl
@[simp] theorem respond_fcmdHi (r : HostResponse) : (s.respond r).fcmdHi = s.fcmdHi := rfl
@[simp] theorem respond_frame (r : HostResponse) : (s.respond r).frame = s.frame := rfl
@[simp] theorem respond_filter (r : HostResponse) : (s.respond r).filter = s.filter := rfl
@[simp] theorem respond_segctl (r : HostResponse) : (s.respond r).segctl = s.segctl := rfl
@[simp] theorem respond_seg (r : HostResponse) : (s.respond r).seg = s.seg := rfl
@[simp] theorem respond_segq (r : HostResponse) : (s.respond r).segq = s.segq := rfl
@[simp] theorem respond_mbcur (r : HostResponse) : (s.respond r).mbcur = s.mbcur := rfl
@[simp] theorem respond_lfcur (r : HostResponse) : (s.respond r).lfcur = s.lfcur := rfl
@[simp] theorem respond_curmb (r : HostResponse) : (s.respond r).curmb = s.curmb := rfl
@[simp] theorem respond_mbflags (r : HostResponse) : (s.respond r).mbflags = s.mbflags := rfl
@[simp] theorem respond_idctDone (r : HostResponse) : (s.respond r).idctDone = s.idctDone := rfl
@[simp] theorem respond_bpred (r : HostResponse) : (s.respond r).bpred = s.bpred := rfl
@[simp] theorem respond_coef (r : HostResponse) : (s.respond r).coef = s.coef := rfl
@[simp] theorem respond_mem (r : HostResponse) : (s.respond r).mem = s.mem := rfl
@[simp] theorem respond_mbinfo (r : HostResponse) : (s.respond r).mbinfo = s.mbinfo := rfl
@[simp] theorem respond_inbox (r : HostResponse) : (s.respond r).inbox = s.inbox := rfl
@[simp] theorem respond_params (r : HostResponse) : (s.respond r).params = s.params := rfl
@[simp] theorem respond_outbox (r : HostResponse) : (s.respond r).outbox = s.outbox ++ [r] := rfl

/-! ### startFrame -/

@[simp] theorem startFrame_status (w h : BitVec 14) : (s.startFrame w h).status = { s.status with frameValid := true, mbOpen := false } := rfl
@[simp] theorem startFrame_fcmdLo (w h : BitVec 14) : (s.startFrame w h).fcmdLo = s.fcmdLo := rfl
@[simp] theorem startFrame_fcmdHi (w h : BitVec 14) : (s.startFrame w h).fcmdHi = s.fcmdHi := rfl
@[simp] theorem startFrame_frame (w h : BitVec 14) : (s.startFrame w h).frame = ⟨w, h⟩ := rfl
@[simp] theorem startFrame_filter (w h : BitVec 14) : (s.startFrame w h).filter = s.filter := rfl
@[simp] theorem startFrame_segctl (w h : BitVec 14) : (s.startFrame w h).segctl = s.segctl := rfl
@[simp] theorem startFrame_seg (w h : BitVec 14) : (s.startFrame w h).seg = s.seg := rfl
@[simp] theorem startFrame_segq (w h : BitVec 14) : (s.startFrame w h).segq = s.segq := rfl
@[simp] theorem startFrame_mbcur (w h : BitVec 14) : (s.startFrame w h).mbcur = 0 := rfl
@[simp] theorem startFrame_lfcur (w h : BitVec 14) : (s.startFrame w h).lfcur = 0 := rfl
@[simp] theorem startFrame_curmb (w h : BitVec 14) : (s.startFrame w h).curmb = CurMb.zero := rfl
@[simp] theorem startFrame_mbflags (w h : BitVec 14) : (s.startFrame w h).mbflags = ⟨false, false, false⟩ := rfl
@[simp] theorem startFrame_idctDone (w h : BitVec 14) : (s.startFrame w h).idctDone = 0 := rfl
@[simp] theorem startFrame_bpred (w h : BitVec 14) : (s.startFrame w h).bpred = Vector.replicate 16 .dc := rfl
@[simp] theorem startFrame_coef (w h : BitVec 14) : (s.startFrame w h).coef = Vector.replicate 25 Block.zero := rfl
@[simp] theorem startFrame_mem (w h : BitVec 14) : (s.startFrame w h).mem = Memory.empty := rfl
@[simp] theorem startFrame_mbinfo (w h : BitVec 14) : (s.startFrame w h).mbinfo = [] := rfl
@[simp] theorem startFrame_inbox (w h : BitVec 14) : (s.startFrame w h).inbox = s.inbox := rfl
@[simp] theorem startFrame_params (w h : BitVec 14) : (s.startFrame w h).params = s.params := rfl
@[simp] theorem startFrame_outbox (w h : BitVec 14) : (s.startFrame w h).outbox = s.outbox := rfl

/-! ### openMb -/

@[simp] theorem openMb_status (mb : CurMb) : (s.openMb mb).status = { s.status with mbOpen := true } := rfl
@[simp] theorem openMb_fcmdLo (mb : CurMb) : (s.openMb mb).fcmdLo = s.fcmdLo := rfl
@[simp] theorem openMb_fcmdHi (mb : CurMb) : (s.openMb mb).fcmdHi = s.fcmdHi := rfl
@[simp] theorem openMb_frame (mb : CurMb) : (s.openMb mb).frame = s.frame := rfl
@[simp] theorem openMb_filter (mb : CurMb) : (s.openMb mb).filter = s.filter := rfl
@[simp] theorem openMb_segctl (mb : CurMb) : (s.openMb mb).segctl = s.segctl := rfl
@[simp] theorem openMb_seg (mb : CurMb) : (s.openMb mb).seg = s.seg := rfl
@[simp] theorem openMb_segq (mb : CurMb) : (s.openMb mb).segq = s.segq := rfl
@[simp] theorem openMb_mbcur (mb : CurMb) : (s.openMb mb).mbcur = s.mbcur := rfl
@[simp] theorem openMb_lfcur (mb : CurMb) : (s.openMb mb).lfcur = s.lfcur := rfl
@[simp] theorem openMb_curmb (mb : CurMb) : (s.openMb mb).curmb = mb := rfl
@[simp] theorem openMb_mbflags (mb : CurMb) : (s.openMb mb).mbflags = ⟨false, false, false⟩ := rfl
@[simp] theorem openMb_idctDone (mb : CurMb) : (s.openMb mb).idctDone = 0 := rfl
@[simp] theorem openMb_bpred (mb : CurMb) : (s.openMb mb).bpred = Vector.replicate 16 .dc := rfl
@[simp] theorem openMb_coef (mb : CurMb) : (s.openMb mb).coef = Vector.replicate 25 Block.zero := rfl
@[simp] theorem openMb_mem (mb : CurMb) : (s.openMb mb).mem = s.mem := rfl
@[simp] theorem openMb_mbinfo (mb : CurMb) : (s.openMb mb).mbinfo = s.mbinfo := rfl
@[simp] theorem openMb_inbox (mb : CurMb) : (s.openMb mb).inbox = s.inbox := rfl
@[simp] theorem openMb_params (mb : CurMb) : (s.openMb mb).params = s.params := rfl
@[simp] theorem openMb_outbox (mb : CurMb) : (s.openMb mb).outbox = s.outbox := rfl

/-! ### closeMb -/

@[simp] theorem closeMb_status : (s.closeMb).status = { s.status with mbOpen := false } := rfl
@[simp] theorem closeMb_fcmdLo : (s.closeMb).fcmdLo = s.fcmdLo := rfl
@[simp] theorem closeMb_fcmdHi : (s.closeMb).fcmdHi = s.fcmdHi := rfl
@[simp] theorem closeMb_frame : (s.closeMb).frame = s.frame := rfl
@[simp] theorem closeMb_filter : (s.closeMb).filter = s.filter := rfl
@[simp] theorem closeMb_segctl : (s.closeMb).segctl = s.segctl := rfl
@[simp] theorem closeMb_seg : (s.closeMb).seg = s.seg := rfl
@[simp] theorem closeMb_segq : (s.closeMb).segq = s.segq := rfl
@[simp] theorem closeMb_mbcur : (s.closeMb).mbcur = s.mbcur + 1 := rfl
@[simp] theorem closeMb_lfcur : (s.closeMb).lfcur = s.lfcur := rfl
@[simp] theorem closeMb_curmb : (s.closeMb).curmb = s.curmb := rfl
@[simp] theorem closeMb_mbflags : (s.closeMb).mbflags = s.mbflags := rfl
@[simp] theorem closeMb_idctDone : (s.closeMb).idctDone = s.idctDone := rfl
@[simp] theorem closeMb_bpred : (s.closeMb).bpred = s.bpred := rfl
@[simp] theorem closeMb_coef : (s.closeMb).coef = s.coef := rfl
@[simp] theorem closeMb_mem : (s.closeMb).mem = if s.curmb.mbx.toNat = s.mbw - 1 then s.mem.endRow else s.mem := rfl
@[simp] theorem closeMb_mbinfo : (s.closeMb).mbinfo = store MbInfo.zero s.mbcur.toNat ⟨s.curmb.lmode, s.curmb.segid, s.curmb.skip⟩ s.mbinfo := rfl
@[simp] theorem closeMb_inbox : (s.closeMb).inbox = s.inbox := rfl
@[simp] theorem closeMb_params : (s.closeMb).params = s.params := rfl
@[simp] theorem closeMb_outbox : (s.closeMb).outbox = s.outbox := rfl

/-! ### doIwht -/

@[simp] theorem doIwht_status : (s.doIwht).status = s.status := rfl
@[simp] theorem doIwht_fcmdLo : (s.doIwht).fcmdLo = s.fcmdLo := rfl
@[simp] theorem doIwht_fcmdHi : (s.doIwht).fcmdHi = s.fcmdHi := rfl
@[simp] theorem doIwht_frame : (s.doIwht).frame = s.frame := rfl
@[simp] theorem doIwht_filter : (s.doIwht).filter = s.filter := rfl
@[simp] theorem doIwht_segctl : (s.doIwht).segctl = s.segctl := rfl
@[simp] theorem doIwht_seg : (s.doIwht).seg = s.seg := rfl
@[simp] theorem doIwht_segq : (s.doIwht).segq = s.segq := rfl
@[simp] theorem doIwht_mbcur : (s.doIwht).mbcur = s.mbcur := rfl
@[simp] theorem doIwht_lfcur : (s.doIwht).lfcur = s.lfcur := rfl
@[simp] theorem doIwht_curmb : (s.doIwht).curmb = s.curmb := rfl
@[simp] theorem doIwht_mbflags : (s.doIwht).mbflags = { s.mbflags with whtDone := true } := rfl
@[simp] theorem doIwht_idctDone : (s.doIwht).idctDone = s.idctDone := rfl
@[simp] theorem doIwht_bpred : (s.doIwht).bpred = s.bpred := rfl
@[simp] theorem doIwht_coef : (s.doIwht).coef = scatter (iwht4 (s.coefBlock 24)) s.coef := rfl
@[simp] theorem doIwht_mem : (s.doIwht).mem = s.mem := rfl
@[simp] theorem doIwht_mbinfo : (s.doIwht).mbinfo = s.mbinfo := rfl
@[simp] theorem doIwht_inbox : (s.doIwht).inbox = s.inbox := rfl
@[simp] theorem doIwht_params : (s.doIwht).params = s.params := rfl
@[simp] theorem doIwht_outbox : (s.doIwht).outbox = s.outbox := rfl

/-! ### doPredLuma -/

@[simp] theorem doPredLuma_status : (s.doPredLuma).status = s.status := rfl
@[simp] theorem doPredLuma_fcmdLo : (s.doPredLuma).fcmdLo = s.fcmdLo := rfl
@[simp] theorem doPredLuma_fcmdHi : (s.doPredLuma).fcmdHi = s.fcmdHi := rfl
@[simp] theorem doPredLuma_frame : (s.doPredLuma).frame = s.frame := rfl
@[simp] theorem doPredLuma_filter : (s.doPredLuma).filter = s.filter := rfl
@[simp] theorem doPredLuma_segctl : (s.doPredLuma).segctl = s.segctl := rfl
@[simp] theorem doPredLuma_seg : (s.doPredLuma).seg = s.seg := rfl
@[simp] theorem doPredLuma_segq : (s.doPredLuma).segq = s.segq := rfl
@[simp] theorem doPredLuma_mbcur : (s.doPredLuma).mbcur = s.mbcur := rfl
@[simp] theorem doPredLuma_lfcur : (s.doPredLuma).lfcur = s.lfcur := rfl
@[simp] theorem doPredLuma_curmb : (s.doPredLuma).curmb = s.curmb := rfl
@[simp] theorem doPredLuma_mbflags : (s.doPredLuma).mbflags = { s.mbflags with lumaDone := true } := rfl
@[simp] theorem doPredLuma_idctDone : (s.doPredLuma).idctDone = s.idctDone := rfl
@[simp] theorem doPredLuma_bpred : (s.doPredLuma).bpred = s.bpred := rfl
@[simp] theorem doPredLuma_coef : (s.doPredLuma).coef = s.coef := rfl
@[simp] theorem doPredLuma_mem : (s.doPredLuma).mem = writeBack s .y .topY .leftY 16 s.curmb.mbx.toNat s.curmb.mby.toNat s.lumaScratch s.mem := rfl
@[simp] theorem doPredLuma_mbinfo : (s.doPredLuma).mbinfo = s.mbinfo := rfl
@[simp] theorem doPredLuma_inbox : (s.doPredLuma).inbox = s.inbox := rfl
@[simp] theorem doPredLuma_params : (s.doPredLuma).params = s.params := rfl
@[simp] theorem doPredLuma_outbox : (s.doPredLuma).outbox = s.outbox := rfl

/-! ### doPredChroma -/

@[simp] theorem doPredChroma_status : (s.doPredChroma).status = s.status := rfl
@[simp] theorem doPredChroma_fcmdLo : (s.doPredChroma).fcmdLo = s.fcmdLo := rfl
@[simp] theorem doPredChroma_fcmdHi : (s.doPredChroma).fcmdHi = s.fcmdHi := rfl
@[simp] theorem doPredChroma_frame : (s.doPredChroma).frame = s.frame := rfl
@[simp] theorem doPredChroma_filter : (s.doPredChroma).filter = s.filter := rfl
@[simp] theorem doPredChroma_segctl : (s.doPredChroma).segctl = s.segctl := rfl
@[simp] theorem doPredChroma_seg : (s.doPredChroma).seg = s.seg := rfl
@[simp] theorem doPredChroma_segq : (s.doPredChroma).segq = s.segq := rfl
@[simp] theorem doPredChroma_mbcur : (s.doPredChroma).mbcur = s.mbcur := rfl
@[simp] theorem doPredChroma_lfcur : (s.doPredChroma).lfcur = s.lfcur := rfl
@[simp] theorem doPredChroma_curmb : (s.doPredChroma).curmb = s.curmb := rfl
@[simp] theorem doPredChroma_mbflags : (s.doPredChroma).mbflags = { s.mbflags with chromaDone := true } := rfl
@[simp] theorem doPredChroma_idctDone : (s.doPredChroma).idctDone = s.idctDone := rfl
@[simp] theorem doPredChroma_bpred : (s.doPredChroma).bpred = s.bpred := rfl
@[simp] theorem doPredChroma_coef : (s.doPredChroma).coef = s.coef := rfl
@[simp] theorem doPredChroma_mem : (s.doPredChroma).mem = chromaPlane s .v .topV .leftV 20 (chromaPlane s .u .topU .leftU 16 s.mem) := rfl
@[simp] theorem doPredChroma_mbinfo : (s.doPredChroma).mbinfo = s.mbinfo := rfl
@[simp] theorem doPredChroma_inbox : (s.doPredChroma).inbox = s.inbox := rfl
@[simp] theorem doPredChroma_params : (s.doPredChroma).params = s.params := rfl
@[simp] theorem doPredChroma_outbox : (s.doPredChroma).outbox = s.outbox := rfl

/-! ### raise: only `STATUS` and `FCMD` change (R282) -/

@[simp] theorem raise_frame (c : FaultCode) (w : CmdWord) : (s.raise c w).frame = s.frame := by unfold State.raise; split <;> rfl
@[simp] theorem raise_filter (c : FaultCode) (w : CmdWord) : (s.raise c w).filter = s.filter := by unfold State.raise; split <;> rfl
@[simp] theorem raise_segctl (c : FaultCode) (w : CmdWord) : (s.raise c w).segctl = s.segctl := by unfold State.raise; split <;> rfl
@[simp] theorem raise_seg (c : FaultCode) (w : CmdWord) : (s.raise c w).seg = s.seg := by unfold State.raise; split <;> rfl
@[simp] theorem raise_segq (c : FaultCode) (w : CmdWord) : (s.raise c w).segq = s.segq := by unfold State.raise; split <;> rfl
@[simp] theorem raise_mbcur (c : FaultCode) (w : CmdWord) : (s.raise c w).mbcur = s.mbcur := by unfold State.raise; split <;> rfl
@[simp] theorem raise_lfcur (c : FaultCode) (w : CmdWord) : (s.raise c w).lfcur = s.lfcur := by unfold State.raise; split <;> rfl
@[simp] theorem raise_curmb (c : FaultCode) (w : CmdWord) : (s.raise c w).curmb = s.curmb := by unfold State.raise; split <;> rfl
@[simp] theorem raise_mbflags (c : FaultCode) (w : CmdWord) : (s.raise c w).mbflags = s.mbflags := by unfold State.raise; split <;> rfl
@[simp] theorem raise_idctDone (c : FaultCode) (w : CmdWord) : (s.raise c w).idctDone = s.idctDone := by unfold State.raise; split <;> rfl
@[simp] theorem raise_bpred (c : FaultCode) (w : CmdWord) : (s.raise c w).bpred = s.bpred := by unfold State.raise; split <;> rfl
@[simp] theorem raise_coef (c : FaultCode) (w : CmdWord) : (s.raise c w).coef = s.coef := by unfold State.raise; split <;> rfl
@[simp] theorem raise_mem (c : FaultCode) (w : CmdWord) : (s.raise c w).mem = s.mem := by unfold State.raise; split <;> rfl
@[simp] theorem raise_mbinfo (c : FaultCode) (w : CmdWord) : (s.raise c w).mbinfo = s.mbinfo := by unfold State.raise; split <;> rfl
@[simp] theorem raise_inbox (c : FaultCode) (w : CmdWord) : (s.raise c w).inbox = s.inbox := by unfold State.raise; split <;> rfl
@[simp] theorem raise_params (c : FaultCode) (w : CmdWord) : (s.raise c w).params = s.params := by unfold State.raise; split <;> rfl
@[simp] theorem raise_outbox (c : FaultCode) (w : CmdWord) : (s.raise c w).outbox = s.outbox := by unfold State.raise; split <;> rfl

@[simp] theorem raise_frameValid (c : FaultCode) (w : CmdWord) : (s.raise c w).status.frameValid = s.status.frameValid := by
  unfold State.raise; split <;> rfl

@[simp] theorem raise_mbOpen (c : FaultCode) (w : CmdWord) : (s.raise c w).status.mbOpen = s.status.mbOpen := by
  unfold State.raise; split <;> rfl

@[simp] theorem raise_fault (c : FaultCode) (w : CmdWord) : (s.raise c w).status.fault = true := by
  unfold State.raise; split <;> simp_all

/-- Fault entry in an unfaulted state (R282). -/
theorem raise_of_unfaulted (c : FaultCode) (w : CmdWord) (h : s.status.fault = false) :
    s.raise c w = { s with
      status := { s.status with fault := true, fcode := c }
      fcmdLo := BitVec.ofNat 32 (field w 31 0)
      fcmdHi := BitVec.ofNat 32 (field w 63 32) } := by
  simp [State.raise, h]

/-- A fault is kept (R283). -/
theorem raise_of_faulted (c : FaultCode) (w : CmdWord) (h : s.status.fault = true) : s.raise c w = s := by
  simp [State.raise, h]

/-! ### Derived quantities -/

variable {s} {t : State}

theorem width_congr (h : t.frame = s.frame) : t.width = s.width := by simp [State.width, h]
theorem height_congr (h : t.frame = s.frame) : t.height = s.height := by simp [State.height, h]
theorem mbw_congr (h : t.frame = s.frame) : t.mbw = s.mbw := by simp [State.mbw, width_congr h]
theorem mbh_congr (h : t.frame = s.frame) : t.mbh = s.mbh := by simp [State.mbh, height_congr h]
theorem totalMb_congr (h : t.frame = s.frame) : t.totalMb = s.totalMb := by simp [State.totalMb, mbw_congr h, mbh_congr h]
theorem cw_congr (h : t.frame = s.frame) : t.cw = s.cw := by simp [State.cw, width_congr h]
theorem ch_congr (h : t.frame = s.frame) : t.ch = s.ch := by simp [State.ch, height_congr h]

theorem planeWidth_congr (h : t.frame = s.frame) (p : Plane) : t.planeWidth p = s.planeWidth p := by
  cases p <;> simp [State.planeWidth, width_congr h, cw_congr h]

theorem planeHeight_congr (h : t.frame = s.frame) (p : Plane) : t.planeHeight p = s.planeHeight p := by
  cases p <;> simp [State.planeHeight, height_congr h, ch_congr h]

theorem pixelIndex_congr (h : t.frame = s.frame) (p : Plane) (x y : Nat) : t.pixelIndex p x y = s.pixelIndex p x y := by
  simp [State.pixelIndex, planeWidth_congr h]

theorem byteLength_congr (h : t.frame = s.frame) (sp : ByteSpace) : t.byteLength sp = s.byteLength sp := by
  cases sp <;> simp [State.byteLength, width_congr h, height_congr h, cw_congr h, ch_congr h, mbw_congr h]

/-- The length of a space depends on `FRAME` and `FRAME_VALID` alone (R60). -/
theorem spaceLength_congr (h : t.frame = s.frame) (hv : t.status.frameValid = s.status.frameValid) (sp : Space) :
    t.spaceLength sp = s.spaceLength sp := by
  cases sp <;> simp [State.spaceLength, hv, byteLength_congr h, totalMb_congr h]

/-- A frame has at most 1024 macroblocks a row (R9). -/
theorem mbw_le (s : State) : s.mbw ≤ 1024 := by
  have := s.frame.w.isLt
  simp only [State.mbw, State.width]; omega

/-- A frame has at most 1024 macroblock rows (R9). -/
theorem mbh_le (s : State) : s.mbh ≤ 1024 := by
  have := s.frame.h.isLt
  simp only [State.mbh, State.height]; omega

/-- A frame has at most 2^20 macroblocks (R9), so a cursor's 21 bits hold every index. -/
theorem totalMb_le (s : State) : s.totalMb ≤ 1048576 := Nat.mul_le_mul (mbw_le s) (mbh_le s)

/-! ### Indexed registers and the coefficient store -/

/-- Reading a vector after one entry is replaced. -/
theorem getD_setIfInBounds {α : Type} {n : Nat} (v : Vector α n) (i j : Nat) (x d : α) :
    (v.setIfInBounds i x).getD j d = if j = i ∧ i < n then x else v.getD j d := by
  simp only [Vector.getD, Vector.toArray_setIfInBounds, Array.getD_eq_getD_getElem?, Array.getElem?_setIfInBounds]
  have := v.size_toArray
  by_cases h : i = j
  · subst h; by_cases hn : i < n <;> simp [hn, this]
  · rw [if_neg h, if_neg (fun hh => h hh.1.symm)]

/-- `COEF[b']` after `COEF[b] <- blk`. -/
theorem coefBlock_setCoefBlock (s : State) (b b' : Nat) (blk : Block) :
    (s.setCoefBlock b blk).coefBlock b' = if b' = b ∧ b < 25 then blk else s.coefBlock b' := getD_setIfInBounds _ _ _ _ _

/-- A store of zero blocks reads 0 everywhere. -/
theorem coefAt_of_zero (h : s.coef = Vector.replicate 25 Block.zero) (b k : Nat) : s.coefAt b k = 0 := by
  unfold State.coefAt State.coefBlock
  rw [h]
  have h1 : (Vector.replicate 25 Block.zero).getD b Block.zero = Block.zero := by
    by_cases hb : b < 25 <;> simp [Vector.getD, Array.getD, hb]
  rw [h1]
  by_cases hk : k < 16 <;> simp [Vector.getD, Array.getD, hk, Block.zero]

/-- `SEG[m]` after `SEG[n] <- r`. -/
theorem segReg_setSegReg (s : State) (n m : BitVec 2) (r : SegReg) :
    (s.setSegReg n r).segReg m = if m = n then r else s.segReg m := by
  unfold State.segReg State.setSegReg
  simp only [Vector.getElem_set]
  by_cases h : m = n
  · simp [h]
  · have : n.toNat ≠ m.toNat := fun he => h (BitVec.eq_of_toNat_eq he.symm)
    simp [h, this]

/-- `SEGQ[m]` after `SEGQ[n] <- r`. -/
theorem quantRow_setQuantRow (s : State) (n m : BitVec 2) (r : QuantRow) :
    (s.setQuantRow n r).quantRow m = if m = n then r else s.quantRow m := by
  unfold State.quantRow State.setQuantRow
  simp only [Vector.getElem_set]
  by_cases h : m = n
  · simp [h]
  · have : n.toNat ≠ m.toNat := fun he => h (BitVec.eq_of_toNat_eq he.symm)
    simp [h, this]

end Sys2Proof.Machine
end

