-- ==== Sys2Proof/Laws/Command.lean ====
section
/-! SUPPORT. Everything the template of a command can do (R282, R283, R284), once for all commands. -/

namespace Sys2Proof.Machine

variable {i : Instr} {checks : State → List (Bool × FaultCode)} {run : State → Result} {s : State} {r : Result}
  {l : List (Bool × FaultCode)}

@[simp] theorem firstFault_nil : firstFault [] = none := rfl

theorem firstFault_cons (b : Bool) (c : FaultCode) : firstFault ((b, c) :: l) = if b then some c else firstFault l := rfl

/-- No check fails exactly where every condition is false. -/
theorem firstFault_eq_none : firstFault l = none ↔ ∀ p ∈ l, p.1 = false := by
  induction l with
  | nil => simp
  | cons p l ih =>
    obtain ⟨b, c⟩ := p
    cases b <;> simp [firstFault_cons, ih]

/-- The first fault is one of the checks'. -/
theorem firstFault_mem {c : FaultCode} (h : firstFault l = some c) : (true, c) ∈ l := by
  induction l with
  | nil => simp at h
  | cons p l ih =>
    obtain ⟨b, d⟩ := p
    cases b
    · simp only [firstFault_cons, Bool.false_eq_true, if_false] at h
      exact List.mem_cons_of_mem _ (ih h)
    · simp only [firstFault_cons, if_true, Option.some.injEq] at h
      simp [h]

/-- A faulted state discards the command (R283). -/
theorem command_faulted (h : s.status.fault = true) : command i checks run s = .next s := by simp [command, h]

/-- A field outside its static range (R284). -/
theorem command_badField (h : s.status.fault = false) (hw : i.wellFormed = false) :
    command i checks run s = .next (s.raise .badField (encode i)) := by simp [command, h, hw]

/-- A state check that fails (R284). -/
theorem command_check {c : FaultCode} (h : s.status.fault = false) (hw : i.wellFormed = true) (hc : firstFault (checks s) = some c) :
    command i checks run s = .next (s.raise c (encode i)) := by simp [command, h, hw, hc]

/-- A command that passes its checks runs. -/
theorem command_run (h : s.status.fault = false) (hw : i.wellFormed = true) (hc : firstFault (checks s) = none) :
    command i checks run s = run s := by simp [command, h, hw, hc]

/-- The four ways a command can go: discarded, refused for a field, refused by a check, run. -/
theorem command_cases (h : command i checks run s = r) :
    (s.status.fault = true ∧ r = .next s) ∨
    (s.status.fault = false ∧ i.wellFormed = false ∧ r = .next (s.raise .badField (encode i))) ∨
    (s.status.fault = false ∧ i.wellFormed = true ∧ ∃ c, (true, c) ∈ checks s ∧ r = .next (s.raise c (encode i))) ∨
    (s.status.fault = false ∧ i.wellFormed = true ∧ (∀ p ∈ checks s, p.1 = false) ∧ r = run s) := by
  subst h
  by_cases hf : s.status.fault = true
  · exact .inl ⟨hf, command_faulted hf⟩
  rw [Bool.not_eq_true] at hf
  by_cases hw : i.wellFormed = true
  · cases hc : firstFault (checks s) with
    | some c => exact .inr (.inr (.inl ⟨hf, hw, c, firstFault_mem hc, command_check hf hw hc⟩))
    | none => exact .inr (.inr (.inr ⟨hf, hw, firstFault_eq_none.mp hc, command_run hf hw hc⟩))
  · rw [Bool.not_eq_true] at hw
    exact .inr (.inl ⟨hf, hw, command_badField hf hw⟩)

/-- A command that leaves no fault recorded has run. -/
theorem command_ran {t : State} (h : command i checks run s = .next t) (hs : s.status.fault = false) (ht : t.status.fault = false) :
    i.wellFormed = true ∧ (∀ p ∈ checks s, p.1 = false) ∧ run s = .next t := by
  rcases command_cases h with ⟨hf, -⟩ | ⟨-, -, hr⟩ | ⟨-, -, c, -, hr⟩ | ⟨-, hw, hc, hr⟩
  · simp [hf] at hs
  · cases hr; simp at ht
  · cases hr; simp at ht
  · exact ⟨hw, hc, hr.symm⟩

/-! ### Every command but RESET follows the template -/

/-- The state checks of each command, in order (R285). -/
def checksOf : Instr → State → List (Bool × FaultCode)
  | .mbBegin mbx mby _ _ _ _ => mbBeginChecks mbx mby
  | .bpred _ _ _ _ _ _ _ _ _ => bpredChecks
  | .coef blk zz _ => coefChecks blk.toNat zz.toNat
  | .iwht => iwhtChecks
  | .idct blk => idctChecks blk.toNat
  | .predLuma => predLumaChecks
  | .predChroma => predChromaChecks
  | .mbEnd => mbEndChecks
  | .lfMb mbx mby => lfMbChecks mbx mby
  | .lfFrame => lfFrameChecks
  | .nop | .reset | .cfgFrame _ _ | .cfgFilter _ _ _ | .cfgSegctl _ _ | .cfgSeg _ _ _ _ | .cfgSegq _ _ _
  | .qderive _ _ _ _ _ _ _ => noChecks

/-- What each command does once its checks have passed. -/
def runOf : Instr → State → Result
  | .nop, s => .next s
  | .reset, s => .next s.resetRegs
  | .cfgFrame w h, s => .next (s.startFrame w h)
  | .cfgFilter type level sharp, s => .next { s with filter := ⟨type, level, sharp⟩ }
  | .cfgSegctl segEn mdelta, s => .next { s with segctl := ⟨segEn, mdelta.signExtend 8⟩ }
  | .cfgSeg seg dv qlvl lflvl, s => .next (s.setSegReg seg ⟨dv, qlvl, lflvl⟩)
  | .cfgSegq seg fsel qval, s => .next (s.setQuantRow seg ((s.quantRow seg).put fsel qval))
  | .qderive seg yac dydc dy2dc dy2ac duvdc duvac, s =>
      .next (s.setQuantRow seg
        (deriveFactors s.params (quantBase s seg yac) dydc.toInt dy2dc.toInt dy2ac.toInt duvdc.toInt duvac.toInt))
  | .mbBegin mbx mby lmode cmode segid skip, s => .next (s.openMb ⟨mbx, mby, lmode, cmode, segid, skip⟩)
  | .bpred half m0 m1 m2 m3 m4 m5 m6 m7, s =>
      .next { s with bpred := putHalf half [m0, m1, m2, m3, m4, m5, m6, m7] s.bpred }
  | .coef blk zz val, s =>
      .next (s.setCoef blk.toNat (zigzag zz.toNat) (dequantized s blk.toNat zz.toNat val))
  | .iwht, s => .next s.doIwht
  | .idct blk, s => .next ((s.setCoefBlock blk.toNat (idct4 (s.coefBlock blk.toNat))).setIdctDone blk.toNat)
  | .predLuma, s =>
      if s.lumaTopReach < s.byteLength .topY then .next s.doPredLuma else .fault (.outOfSpace (.byte .topY) s.lumaTopReach)
  | .predChroma, s =>
      if s.chromaTopReach < s.byteLength .topU then .next s.doPredChroma
      else .fault (.outOfSpace (.byte .topU) s.chromaTopReach)
  | .mbEnd, s => if s.mbcur.toNat < s.totalMb then .next s.closeMb else .fault (.outOfSpace .mbinfo s.mbcur.toNat)
  | .lfMb _ _, s =>
      if s.lfcur.toNat < s.totalMb then .next (filterNext s.params s) else .fault (.outOfSpace .mbinfo s.lfcur.toNat)
  | .lfFrame, s => .next (filterMany s.params (s.totalMb - s.lfcur.toNat) s)

/-- Every command but RESET is the template over its checks and its effect. -/
theorem exec_eq_command (h : i ≠ .reset) : exec i s = command i (checksOf i) (runOf i) s := by
  cases i <;> first | exact absurd rfl h | rfl

/-- No check raises the code that says "no fault". -/
theorem checksOf_code {c : FaultCode} (h : (true, c) ∈ checksOf i s) : c ≠ .none := by
  have h' : c ∈ (checksOf i s).map Prod.snd := List.mem_map.mpr ⟨_, h, rfl⟩
  rintro rfl
  revert h'
  cases i <;> simp [checksOf, noChecks, mbBeginChecks, bpredChecks, coefChecks, iwhtChecks, idctChecks, predLumaChecks,
    predChromaChecks, mbEndChecks, lfMbChecks, lfFrameChecks]

/-- The ways a command can end, for all commands at once: RESET; discarded; a fault recorded; run. -/
theorem exec_cases (h : exec i s = r) :
    (i = .reset ∧ r = .next s.resetRegs) ∨
    (i ≠ .reset ∧ s.status.fault = true ∧ r = .next s) ∨
    (i ≠ .reset ∧ s.status.fault = false ∧ ∃ c, c ≠ .none ∧ r = .next (s.raise c (encode i))) ∨
    (i ≠ .reset ∧ s.status.fault = false ∧ i.wellFormed = true ∧ (∀ p ∈ checksOf i s, p.1 = false) ∧ r = runOf i s) := by
  by_cases hi : i = .reset
  · subst hi; exact .inl ⟨rfl, h.symm⟩
  rw [exec_eq_command hi] at h
  rcases command_cases h with ⟨hf, hr⟩ | ⟨hf, -, hr⟩ | ⟨hf, -, c, hc, hr⟩ | ⟨hf, hw, hc, hr⟩
  · exact .inr (.inl ⟨hi, hf, hr⟩)
  · exact .inr (.inr (.inl ⟨hi, hf, _, by decide, hr⟩))
  · exact .inr (.inr (.inl ⟨hi, hf, c, checksOf_code hc, hr⟩))
  · exact .inr (.inr (.inr ⟨hi, hf, hw, hc, hr⟩))

/-- A command that passes its checks has its effect. -/
theorem exec_run (hi : i ≠ .reset) (hf : s.status.fault = false) (hw : i.wellFormed = true)
    (hc : ∀ p ∈ checksOf i s, p.1 = false) : exec i s = runOf i s := by
  rw [exec_eq_command hi, command_run hf hw (firstFault_eq_none.mpr hc)]

/-- A command whose first failing check is `c` records `c`. -/
theorem exec_check {c : FaultCode} (hi : i ≠ .reset) (hf : s.status.fault = false) (hw : i.wellFormed = true)
    (hc : firstFault (checksOf i s) = some c) : exec i s = .next (s.raise c (encode i)) := by
  rw [exec_eq_command hi, command_check hf hw hc]

/-- A command that leaves no fault recorded has run. -/
theorem exec_ran {t : State} (h : exec i s = .next t) (hi : i ≠ .reset) (hs : s.status.fault = false) (ht : t.status.fault = false) :
    i.wellFormed = true ∧ (∀ p ∈ checksOf i s, p.1 = false) ∧ runOf i s = .next t :=
  command_ran (by rwa [exec_eq_command hi] at h) hs ht

/-! ### The tables and the factors of QDERIVE -/

/-- A table entry is an `i16` (R114). -/
theorem quantAt_bounds (table : Vector (BitVec 16) 128) (i : Int) : -32768 ≤ quantAt table i ∧ quantAt table i ≤ 32767 :=
  ⟨BitVec.le_toInt table[qclamp i], Int.le_of_lt_add_one (BitVec.toInt_lt (x := table[qclamp i]))⟩

/-- A factor that fits an `i16` is exact (R30, R111). -/
theorem factor16_toInt {v : Int} (h : -32768 ≤ v ∧ v ≤ 32767) : (factor16 v).toInt = v := by
  unfold factor16
  rw [if_pos h, BitVec.toInt_ofInt, Int.bmod_eq_of_le] <;> norm_num <;> omega

/-- The division of R111 where the spec states it (R13). -/
theorem hundredth_eq {v : Int} (h : 0 ≤ v) : hundredth v = v / 100 := if_pos h

end Sys2Proof.Machine
end

