-- ==== Sys2Proof/Laws/Encoding.lean ====
section
/-! SUPPORT. The words the encoder writes, as sums, and the fields the decoder reads back from them (R82). Rewrite `field` and
`bits` with `simp only`, not `rw`: two fields of one word that do not match are else compared by unfolding powers of two. -/

namespace Sys2Proof

theorem code_luma_lt (m : LumaMode) : m.code < 8 := by cases m <;> decide
theorem code_chroma_lt (m : ChromaMode) : m.code < 4 := by cases m <;> decide
theorem code_sub_lt (m : SubMode) : m.code < 16 := by cases m <;> decide
theorem code_factor_lt (f : Factor) : f.code < 8 := by cases f <;> decide

@[simp] theorem lumaModeOf_code (m : LumaMode) : lumaModeOf m.code = some m := by cases m <;> rfl
@[simp] theorem chromaModeOf_code (m : ChromaMode) : chromaModeOf m.code = some m := by cases m <;> rfl
@[simp] theorem subModeOf_code (m : SubMode) : subModeOf m.code = some m := by cases m <;> rfl
@[simp] theorem factorOf_code (f : Factor) : factorOf f.code = some f := by cases f <;> rfl
@[simp] theorem opcodeOf_byte (op : Opcode) : opcodeOf op.byte = some op := by cases op <;> rfl

/-- The digit `v` of a number split as `low + v * 2^lo + high * 2^(lo+n)`. -/
theorem digit_split {S v lo n : Nat} (low high : Nat) (h : S = low + v * 2 ^ lo + high * 2 ^ (lo + n)) (hl : low < 2 ^ lo)
    (hv : v < 2 ^ n) : S / 2 ^ lo % 2 ^ n = v := by
  have hS : S = low + 2 ^ lo * (v + 2 ^ n * high) := by rw [h, Nat.pow_add]; ring
  rw [hS, Nat.add_mul_div_left _ _ (Nat.two_pow_pos lo), Nat.div_eq_of_lt hl, Nat.zero_add, Nat.add_mul_mod_self_left,
    Nat.mod_eq_of_lt hv]

/-- A field of a word from the word's number, split around it: `n` bits from `lo`, the rest from bit `m` up; `P`, `Q` and `N` are
the powers of two. -/
theorem field_split {w : CmdWord} {v hi lo : Nat} (low high n m P Q N : Nat) (hn : hi + 1 - lo = n) (hm : lo + n = m)
    (hP : 2 ^ lo = P) (hQ : 2 ^ m = Q) (hN : 2 ^ n = N) (h : w.toNat = low + v * P + high * Q) (hl : low < P) (hv : v < N) :
    field w hi lo = v := by
  subst hn hm hP hQ hN
  exact digit_split low high h hl hv

theorem sum_place_nil : (([] : List (Nat × Nat)).map fun f => f.2 * 2 ^ f.1).sum = 0 := rfl

theorem sum_place_cons {lo v P n : Nat} {fs : List (Nat × Nat)} (hP : 2 ^ lo = P) (h : (fs.map fun f => f.2 * 2 ^ f.1).sum = n) :
    (((lo, v) :: fs).map fun f => f.2 * 2 ^ f.1).sum = v * P + n := by
  rw [List.map_cons, List.sum_cons, h, hP]

/-- The number of an encoded word, from its opcode byte and the sum of its placed fields. -/
theorem place_toNat {op : Opcode} {fs : List (Nat × Nat)} {b B n N : Nat} (hb : op.byte = b) (hB : b * 2 ^ 56 = B)
    (h : (fs.map fun f => f.2 * 2 ^ f.1).sum = n) (hN : B + n = N) (hlt : N < 18446744073709551616) : (place op fs).toNat = N := by
  rw [place, BitVec.toNat_ofNat, hb, hB, h, hN]
  exact Nat.mod_eq_of_lt hlt

/-- A field read as bits is the field read as a number. -/
theorem bits_of_field {w : CmdWord} {n hi lo : Nat} {x : BitVec n} (h : field w hi lo = x.toNat) (hn : hi + 1 - lo = n) :
    bits w lo n = x := by
  apply BitVec.eq_of_toNat_eq
  rw [bits, BitVec.toNat_ofNat, ← h, field, hn]

/-- A one-bit field read as a truth value. -/
theorem flag_of_field {w : CmdWord} {n : Nat} {b : Bool} (h : field w n n = b.toNat) : flag w n = b := by
  rw [flag, h]; cases b <;> rfl

theorem encode_cfgFrame_toNat (w h : BitVec 14) :
    (encode (.cfgFrame w h)).toNat = 72057594037927936 + w.toNat * 4294967296 + h.toNat := by
  have := w.isLt
  have := h.isLt
  refine place_toNat (b := 1) (B := 72057594037927936) rfl rfl (sum_place_cons (P := 4294967296) rfl (sum_place_cons (P := 1) rfl sum_place_nil)) ?_ ?_ <;> omega

/-- The opcode byte and the fields of the word of `cfgFrame` (R82). -/
theorem fields_cfgFrame (w h : BitVec 14) :
    field (encode (.cfgFrame w h)) 63 56 = 1 ∧
    field (encode (.cfgFrame w h)) 45 32 = w.toNat ∧
    field (encode (.cfgFrame w h)) 13 0 = h.toNat := by
  have := w.isLt
  have := h.isLt
  have hw := encode_cfgFrame_toNat w h
  exact ⟨field_split (w.toNat * 4294967296 + h.toNat) (0) 8 64 72057594037927936 18446744073709551616 256 rfl rfl rfl rfl rfl (by omega) (by omega) (by omega),
    field_split (h.toNat) (1024) 14 46 4294967296 70368744177664 16384 rfl rfl rfl rfl rfl (by omega) (by omega) (by omega),
    field_split (0) (4398046511104 + w.toNat * 262144) 14 14 1 16384 16384 rfl rfl rfl rfl rfl (by omega) (by omega) (by omega)⟩

/-- The reserved bits of the word of `cfgFrame` are 0 (R82). -/
theorem reserved_cfgFrame (w h : BitVec 14) : reservedClear (Instr.cfgFrame w h).opcode.format (encode (.cfgFrame w h)) = true := by
  have := w.isLt
  have := h.isLt
  have hw := encode_cfgFrame_toNat w h
  simp only [reservedClear, Instr.opcode, Opcode.format, Format.reserved, List.all_cons, List.all_nil, Bool.and_true, Bool.and_eq_true,
    decide_eq_true_eq]
  exact ⟨field_split (w.toNat * 4294967296 + h.toNat) (1) 10 56 70368744177664 72057594037927936 1024 rfl rfl rfl rfl rfl (by omega) (by omega) (by omega),
    field_split (h.toNat) (16777216 + w.toNat) 18 32 16384 4294967296 262144 rfl rfl rfl rfl rfl (by omega) (by omega) (by omega)⟩

theorem encode_cfgFilter_toNat (type : Bool) (level : BitVec 6) (sharp : BitVec 3) :
    (encode (.cfgFilter type level sharp)).toNat = 144115188075855872 + type.toNat * 4294967296 + level.toNat * 256 + sharp.toNat := by
  have := type.toNat_lt
  have := level.isLt
  have := sharp.isLt
  refine place_toNat (b := 2) (B := 144115188075855872) rfl rfl (sum_place_cons (P := 4294967296) rfl (sum_place_cons (P := 256) rfl (sum_place_cons (P := 1) rfl sum_place_nil))) ?_ ?_ <;> omega

/-- The opcode byte and the fields of the word of `cfgFilter` (R82). -/
theorem fields_cfgFilter (type : Bool) (level : BitVec 6) (sharp : BitVec 3) :
    field (encode (.cfgFilter type level sharp)) 63 56 = 2 ∧
    field (encode (.cfgFilter type level sharp)) 32 32 = type.toNat ∧
    field (encode (.cfgFilter type level sharp)) 13 8 = level.toNat ∧
    field (encode (.cfgFilter type level sharp)) 2 0 = sharp.toNat := by
  have := type.toNat_lt
  have := level.isLt
  have := sharp.isLt
  have hw := encode_cfgFilter_toNat type level sharp
  exact ⟨field_split (type.toNat * 4294967296 + level.toNat * 256 + sharp.toNat) (0) 8 64 72057594037927936 18446744073709551616 256 rfl rfl rfl rfl rfl (by omega) (by omega) (by omega),
    field_split (level.toNat * 256 + sharp.toNat) (16777216) 1 33 4294967296 8589934592 2 rfl rfl rfl rfl rfl (by omega) (by omega) (by omega),
    field_split (sharp.toNat) (8796093022208 + type.toNat * 262144) 6 14 256 16384 64 rfl rfl rfl rfl rfl (by omega) (by omega) (by omega),
    field_split (0) (18014398509481984 + type.toNat * 536870912 + level.toNat * 32) 3 3 1 8 8 rfl rfl rfl rfl rfl (by omega) (by omega) (by omega)⟩

/-- The reserved bits of the word of `cfgFilter` are 0 (R82). -/
theorem reserved_cfgFilter (type : Bool) (level : BitVec 6) (sharp : BitVec 3) : reservedClear (Instr.cfgFilter type level sharp).opcode.format (encode (.cfgFilter type level sharp)) = true := by
  have := type.toNat_lt
  have := level.isLt
  have := sharp.isLt
  have hw := encode_cfgFilter_toNat type level sharp
  simp only [reservedClear, Instr.opcode, Opcode.format, Format.reserved, List.all_cons, List.all_nil, Bool.and_true, Bool.and_eq_true,
    decide_eq_true_eq]
  exact ⟨field_split (type.toNat * 4294967296 + level.toNat * 256 + sharp.toNat) (2) 23 56 8589934592 72057594037927936 8388608 rfl rfl rfl rfl rfl (by omega) (by omega) (by omega),
    field_split (level.toNat * 256 + sharp.toNat) (33554432 + type.toNat) 18 32 16384 4294967296 262144 rfl rfl rfl rfl rfl (by omega) (by omega) (by omega),
    field_split (sharp.toNat) (562949953421312 + type.toNat * 16777216 + level.toNat) 5 8 8 256 32 rfl rfl rfl rfl rfl (by omega) (by omega) (by omega)⟩

theorem encode_cfgSegctl_toNat (segEn : Bool) (mdelta : BitVec 7) :
    (encode (.cfgSegctl segEn mdelta)).toNat = 216172782113783808 + segEn.toNat * 4294967296 + mdelta.toNat := by
  have := segEn.toNat_lt
  have := mdelta.isLt
  refine place_toNat (b := 3) (B := 216172782113783808) rfl rfl (sum_place_cons (P := 4294967296) rfl (sum_place_cons (P := 1) rfl sum_place_nil)) ?_ ?_ <;> omega

/-- The opcode byte and the fields of the word of `cfgSegctl` (R82). -/
theorem fields_cfgSegctl (segEn : Bool) (mdelta : BitVec 7) :
    field (encode (.cfgSegctl segEn mdelta)) 63 56 = 3 ∧
    field (encode (.cfgSegctl segEn mdelta)) 32 32 = segEn.toNat ∧
    field (encode (.cfgSegctl segEn mdelta)) 6 0 = mdelta.toNat := by
  have := segEn.toNat_lt
  have := mdelta.isLt
  have hw := encode_cfgSegctl_toNat segEn mdelta
  exact ⟨field_split (segEn.toNat * 4294967296 + mdelta.toNat) (0) 8 64 72057594037927936 18446744073709551616 256 rfl rfl rfl rfl rfl (by omega) (by omega) (by omega),
    field_split (mdelta.toNat) (25165824) 1 33 4294967296 8589934592 2 rfl rfl rfl rfl rfl (by omega) (by omega) (by omega),
    field_split (0) (1688849860263936 + segEn.toNat * 33554432) 7 7 1 128 128 rfl rfl rfl rfl rfl (by omega) (by omega) (by omega)⟩

/-- The reserved bits of the word of `cfgSegctl` are 0 (R82). -/
theorem reserved_cfgSegctl (segEn : Bool) (mdelta : BitVec 7) : reservedClear (Instr.cfgSegctl segEn mdelta).opcode.format (encode (.cfgSegctl segEn mdelta)) = true := by
  have := segEn.toNat_lt
  have := mdelta.isLt
  have hw := encode_cfgSegctl_toNat segEn mdelta
  simp only [reservedClear, Instr.opcode, Opcode.format, Format.reserved, List.all_cons, List.all_nil, Bool.and_true, Bool.and_eq_true,
    decide_eq_true_eq]
  exact ⟨field_split (segEn.toNat * 4294967296 + mdelta.toNat) (3) 23 56 8589934592 72057594037927936 8388608 rfl rfl rfl rfl rfl (by omega) (by omega) (by omega),
    field_split (mdelta.toNat) (50331648 + segEn.toNat) 25 32 128 4294967296 33554432 rfl rfl rfl rfl rfl (by omega) (by omega) (by omega)⟩

theorem encode_cfgSeg_toNat (seg : BitVec 2) (dv : Bool) (qlvl : BitVec 8) (lflvl : BitVec 7) :
    (encode (.cfgSeg seg dv qlvl lflvl)).toNat = 288230376151711744 + seg.toNat * 281474976710656 + dv.toNat * 1099511627776 + qlvl.toNat * 256 + lflvl.toNat := by
  have := seg.isLt
  have := dv.toNat_lt
  have := qlvl.isLt
  have := lflvl.isLt
  refine place_toNat (b := 4) (B := 288230376151711744) rfl rfl (sum_place_cons (P := 281474976710656) rfl (sum_place_cons (P := 1099511627776) rfl (sum_place_cons (P := 256) rfl (sum_place_cons (P := 1) rfl sum_place_nil)))) ?_ ?_ <;> omega

/-- The opcode byte and the fields of the word of `cfgSeg` (R82). -/
theorem fields_cfgSeg (seg : BitVec 2) (dv : Bool) (qlvl : BitVec 8) (lflvl : BitVec 7) :
    field (encode (.cfgSeg seg dv qlvl lflvl)) 63 56 = 4 ∧
    field (encode (.cfgSeg seg dv qlvl lflvl)) 49 48 = seg.toNat ∧
    field (encode (.cfgSeg seg dv qlvl lflvl)) 40 40 = dv.toNat ∧
    field (encode (.cfgSeg seg dv qlvl lflvl)) 15 8 = qlvl.toNat ∧
    field (encode (.cfgSeg seg dv qlvl lflvl)) 6 0 = lflvl.toNat := by
  have := seg.isLt
  have := dv.toNat_lt
  have := qlvl.isLt
  have := lflvl.isLt
  have hw := encode_cfgSeg_toNat seg dv qlvl lflvl
  exact ⟨field_split (seg.toNat * 281474976710656 + dv.toNat * 1099511627776 + qlvl.toNat * 256 + lflvl.toNat) (0) 8 64 72057594037927936 18446744073709551616 256 rfl rfl rfl rfl rfl (by omega) (by omega) (by omega),
    field_split (dv.toNat * 1099511627776 + qlvl.toNat * 256 + lflvl.toNat) (256) 2 50 281474976710656 1125899906842624 4 rfl rfl rfl rfl rfl (by omega) (by omega) (by omega),
    field_split (qlvl.toNat * 256 + lflvl.toNat) (131072 + seg.toNat * 128) 1 41 1099511627776 2199023255552 2 rfl rfl rfl rfl rfl (by omega) (by omega) (by omega),
    field_split (lflvl.toNat) (4398046511104 + seg.toNat * 4294967296 + dv.toNat * 16777216) 8 16 256 65536 256 rfl rfl rfl rfl rfl (by omega) (by omega) (by omega),
    field_split (0) (2251799813685248 + seg.toNat * 2199023255552 + dv.toNat * 8589934592 + qlvl.toNat * 2) 7 7 1 128 128 rfl rfl rfl rfl rfl (by omega) (by omega) (by omega)⟩

/-- The reserved bits of the word of `cfgSeg` are 0 (R82). -/
theorem reserved_cfgSeg (seg : BitVec 2) (dv : Bool) (qlvl : BitVec 8) (lflvl : BitVec 7) : reservedClear (Instr.cfgSeg seg dv qlvl lflvl).opcode.format (encode (.cfgSeg seg dv qlvl lflvl)) = true := by
  have := seg.isLt
  have := dv.toNat_lt
  have := qlvl.isLt
  have := lflvl.isLt
  have hw := encode_cfgSeg_toNat seg dv qlvl lflvl
  simp only [reservedClear, Instr.opcode, Opcode.format, Format.reserved, List.all_cons, List.all_nil, Bool.and_true, Bool.and_eq_true,
    decide_eq_true_eq]
  exact ⟨field_split (seg.toNat * 281474976710656 + dv.toNat * 1099511627776 + qlvl.toNat * 256 + lflvl.toNat) (4) 6 56 1125899906842624 72057594037927936 64 rfl rfl rfl rfl rfl (by omega) (by omega) (by omega),
    field_split (dv.toNat * 1099511627776 + qlvl.toNat * 256 + lflvl.toNat) (1024 + seg.toNat) 7 48 2199023255552 281474976710656 128 rfl rfl rfl rfl rfl (by omega) (by omega) (by omega),
    field_split (qlvl.toNat * 256 + lflvl.toNat) (262144 + seg.toNat * 256 + dv.toNat) 24 40 65536 1099511627776 16777216 rfl rfl rfl rfl rfl (by omega) (by omega) (by omega),
    field_split (lflvl.toNat) (1125899906842624 + seg.toNat * 1099511627776 + dv.toNat * 4294967296 + qlvl.toNat) 1 8 128 256 2 rfl rfl rfl rfl rfl (by omega) (by omega) (by omega)⟩

theorem encode_cfgSegq_toNat (seg : BitVec 2) (fsel : Factor) (qval : BitVec 16) :
    (encode (.cfgSegq seg fsel qval)).toNat = 360287970189639680 + seg.toNat * 281474976710656 + fsel.code * 1099511627776 + qval.toNat := by
  have := seg.isLt
  have := code_factor_lt fsel
  have := qval.isLt
  refine place_toNat (b := 5) (B := 360287970189639680) rfl rfl (sum_place_cons (P := 281474976710656) rfl (sum_place_cons (P := 1099511627776) rfl (sum_place_cons (P := 1) rfl sum_place_nil))) ?_ ?_ <;> omega

/-- The opcode byte and the fields of the word of `cfgSegq` (R82). -/
theorem fields_cfgSegq (seg : BitVec 2) (fsel : Factor) (qval : BitVec 16) :
    field (encode (.cfgSegq seg fsel qval)) 63 56 = 5 ∧
    field (encode (.cfgSegq seg fsel qval)) 49 48 = seg.toNat ∧
    field (encode (.cfgSegq seg fsel qval)) 42 40 = fsel.code ∧
    field (encode (.cfgSegq seg fsel qval)) 15 0 = qval.toNat := by
  have := seg.isLt
  have := code_factor_lt fsel
  have := qval.isLt
  have hw := encode_cfgSegq_toNat seg fsel qval
  exact ⟨field_split (seg.toNat * 281474976710656 + fsel.code * 1099511627776 + qval.toNat) (0) 8 64 72057594037927936 18446744073709551616 256 rfl rfl rfl rfl rfl (by omega) (by omega) (by omega),
    field_split (fsel.code * 1099511627776 + qval.toNat) (320) 2 50 281474976710656 1125899906842624 4 rfl rfl rfl rfl rfl (by omega) (by omega) (by omega),
    field_split (qval.toNat) (40960 + seg.toNat * 32) 3 43 1099511627776 8796093022208 8 rfl rfl rfl rfl rfl (by omega) (by omega) (by omega),
    field_split (0) (5497558138880 + seg.toNat * 4294967296 + fsel.code * 16777216) 16 16 1 65536 65536 rfl rfl rfl rfl rfl (by omega) (by omega) (by omega)⟩

/-- The reserved bits of the word of `cfgSegq` are 0 (R82). -/
theorem reserved_cfgSegq (seg : BitVec 2) (fsel : Factor) (qval : BitVec 16) : reservedClear (Instr.cfgSegq seg fsel qval).opcode.format (encode (.cfgSegq seg fsel qval)) = true := by
  have := seg.isLt
  have := code_factor_lt fsel
  have := qval.isLt
  have hw := encode_cfgSegq_toNat seg fsel qval
  simp only [reservedClear, Instr.opcode, Opcode.format, Format.reserved, List.all_cons, List.all_nil, Bool.and_true, Bool.and_eq_true,
    decide_eq_true_eq]
  exact ⟨field_split (seg.toNat * 281474976710656 + fsel.code * 1099511627776 + qval.toNat) (5) 6 56 1125899906842624 72057594037927936 64 rfl rfl rfl rfl rfl (by omega) (by omega) (by omega),
    field_split (fsel.code * 1099511627776 + qval.toNat) (1280 + seg.toNat) 5 48 8796093022208 281474976710656 32 rfl rfl rfl rfl rfl (by omega) (by omega) (by omega),
    field_split (qval.toNat) (327680 + seg.toNat * 256 + fsel.code) 24 40 65536 1099511627776 16777216 rfl rfl rfl rfl rfl (by omega) (by omega) (by omega)⟩

theorem encode_qderive_toNat (seg : BitVec 2) (yac : BitVec 7) (dydc dy2dc dy2ac duvdc duvac : BitVec 5) :
    (encode (.qderive seg yac dydc dy2dc dy2ac duvdc duvac)).toNat = 432345564227567616 + seg.toNat * 281474976710656 + yac.toNat * 1099511627776 + dydc.toNat * 1048576 + dy2dc.toNat * 32768 + dy2ac.toNat * 1024 + duvdc.toNat * 32 + duvac.toNat := by
  have := seg.isLt
  have := yac.isLt
  have := dydc.isLt
  have := dy2dc.isLt
  have := dy2ac.isLt
  have := duvdc.isLt
  have := duvac.isLt
  refine place_toNat (b := 6) (B := 432345564227567616) rfl rfl (sum_place_cons (P := 281474976710656) rfl (sum_place_cons (P := 1099511627776) rfl (sum_place_cons (P := 1048576) rfl (sum_place_cons (P := 32768) rfl (sum_place_cons (P := 1024) rfl (sum_place_cons (P := 32) rfl (sum_place_cons (P := 1) rfl sum_place_nil))))))) ?_ ?_ <;> omega

/-- The opcode byte and the fields of the word of `qderive` (R82). -/
theorem fields_qderive (seg : BitVec 2) (yac : BitVec 7) (dydc dy2dc dy2ac duvdc duvac : BitVec 5) :
    field (encode (.qderive seg yac dydc dy2dc dy2ac duvdc duvac)) 63 56 = 6 ∧
    field (encode (.qderive seg yac dydc dy2dc dy2ac duvdc duvac)) 49 48 = seg.toNat ∧
    field (encode (.qderive seg yac dydc dy2dc dy2ac duvdc duvac)) 46 40 = yac.toNat ∧
    field (encode (.qderive seg yac dydc dy2dc dy2ac duvdc duvac)) 24 20 = dydc.toNat ∧
    field (encode (.qderive seg yac dydc dy2dc dy2ac duvdc duvac)) 19 15 = dy2dc.toNat ∧
    field (encode (.qderive seg yac dydc dy2dc dy2ac duvdc duvac)) 14 10 = dy2ac.toNat ∧
    field (encode (.qderive seg yac dydc dy2dc dy2ac duvdc duvac)) 9 5 = duvdc.toNat ∧
    field (encode (.qderive seg yac dydc dy2dc dy2ac duvdc duvac)) 4 0 = duvac.toNat := by
  have := seg.isLt
  have := yac.isLt
  have := dydc.isLt
  have := dy2dc.isLt
  have := dy2ac.isLt
  have := duvdc.isLt
  have := duvac.isLt
  have hw := encode_qderive_toNat seg yac dydc dy2dc dy2ac duvdc duvac
  exact ⟨field_split (seg.toNat * 281474976710656 + yac.toNat * 1099511627776 + dydc.toNat * 1048576 + dy2dc.toNat * 32768 + dy2ac.toNat * 1024 + duvdc.toNat * 32 + duvac.toNat) (0) 8 64 72057594037927936 18446744073709551616 256 rfl rfl rfl rfl rfl (by omega) (by omega) (by omega),
    field_split (yac.toNat * 1099511627776 + dydc.toNat * 1048576 + dy2dc.toNat * 32768 + dy2ac.toNat * 1024 + duvdc.toNat * 32 + duvac.toNat) (384) 2 50 281474976710656 1125899906842624 4 rfl rfl rfl rfl rfl (by omega) (by omega) (by omega),
    field_split (dydc.toNat * 1048576 + dy2dc.toNat * 32768 + dy2ac.toNat * 1024 + duvdc.toNat * 32 + duvac.toNat) (3072 + seg.toNat * 2) 7 47 1099511627776 140737488355328 128 rfl rfl rfl rfl rfl (by omega) (by omega) (by omega),
    field_split (dy2dc.toNat * 32768 + dy2ac.toNat * 1024 + duvdc.toNat * 32 + duvac.toNat) (12884901888 + seg.toNat * 8388608 + yac.toNat * 32768) 5 25 1048576 33554432 32 rfl rfl rfl rfl rfl (by omega) (by omega) (by omega),
    field_split (dy2ac.toNat * 1024 + duvdc.toNat * 32 + duvac.toNat) (412316860416 + seg.toNat * 268435456 + yac.toNat * 1048576 + dydc.toNat) 5 20 32768 1048576 32 rfl rfl rfl rfl rfl (by omega) (by omega) (by omega),
    field_split (duvdc.toNat * 32 + duvac.toNat) (13194139533312 + seg.toNat * 8589934592 + yac.toNat * 33554432 + dydc.toNat * 32 + dy2dc.toNat) 5 15 1024 32768 32 rfl rfl rfl rfl rfl (by omega) (by omega) (by omega),
    field_split (duvac.toNat) (422212465065984 + seg.toNat * 274877906944 + yac.toNat * 1073741824 + dydc.toNat * 1024 + dy2dc.toNat * 32 + dy2ac.toNat) 5 10 32 1024 32 rfl rfl rfl rfl rfl (by omega) (by omega) (by omega),
    field_split (0) (13510798882111488 + seg.toNat * 8796093022208 + yac.toNat * 34359738368 + dydc.toNat * 32768 + dy2dc.toNat * 1024 + dy2ac.toNat * 32 + duvdc.toNat) 5 5 1 32 32 rfl rfl rfl rfl rfl (by omega) (by omega) (by omega)⟩

/-- The reserved bits of the word of `qderive` are 0 (R82). -/
theorem reserved_qderive (seg : BitVec 2) (yac : BitVec 7) (dydc dy2dc dy2ac duvdc duvac : BitVec 5) : reservedClear (Instr.qderive seg yac dydc dy2dc dy2ac duvdc duvac).opcode.format (encode (.qderive seg yac dydc dy2dc dy2ac duvdc duvac)) = true := by
  have := seg.isLt
  have := yac.isLt
  have := dydc.isLt
  have := dy2dc.isLt
  have := dy2ac.isLt
  have := duvdc.isLt
  have := duvac.isLt
  have hw := encode_qderive_toNat seg yac dydc dy2dc dy2ac duvdc duvac
  simp only [reservedClear, Instr.opcode, Opcode.format, Format.reserved, List.all_cons, List.all_nil, Bool.and_true, Bool.and_eq_true,
    decide_eq_true_eq]
  exact ⟨field_split (seg.toNat * 281474976710656 + yac.toNat * 1099511627776 + dydc.toNat * 1048576 + dy2dc.toNat * 32768 + dy2ac.toNat * 1024 + duvdc.toNat * 32 + duvac.toNat) (6) 6 56 1125899906842624 72057594037927936 64 rfl rfl rfl rfl rfl (by omega) (by omega) (by omega),
    field_split (yac.toNat * 1099511627776 + dydc.toNat * 1048576 + dy2dc.toNat * 32768 + dy2ac.toNat * 1024 + duvdc.toNat * 32 + duvac.toNat) (1536 + seg.toNat) 1 48 140737488355328 281474976710656 2 rfl rfl rfl rfl rfl (by omega) (by omega) (by omega),
    field_split (dydc.toNat * 1048576 + dy2dc.toNat * 32768 + dy2ac.toNat * 1024 + duvdc.toNat * 32 + duvac.toNat) (393216 + seg.toNat * 256 + yac.toNat) 15 40 33554432 1099511627776 32768 rfl rfl rfl rfl rfl (by omega) (by omega) (by omega)⟩

theorem encode_mbBegin_toNat (mbx mby : BitVec 10) (lmode : LumaMode) (cmode : ChromaMode) (segid : BitVec 2) (skip : Bool) :
    (encode (.mbBegin mbx mby lmode cmode segid skip)).toNat = 1152921504606846976 + mbx.toNat * 4294967296 + mby.toNat * 1048576 + lmode.code * 65536 + cmode.code * 4096 + segid.toNat * 256 + skip.toNat := by
  have := mbx.isLt
  have := mby.isLt
  have := code_luma_lt lmode
  have := code_chroma_lt cmode
  have := segid.isLt
  have := skip.toNat_lt
  refine place_toNat (b := 16) (B := 1152921504606846976) rfl rfl (sum_place_cons (P := 4294967296) rfl (sum_place_cons (P := 1048576) rfl (sum_place_cons (P := 65536) rfl (sum_place_cons (P := 4096) rfl (sum_place_cons (P := 256) rfl (sum_place_cons (P := 1) rfl sum_place_nil)))))) ?_ ?_ <;> omega

/-- The opcode byte and the fields of the word of `mbBegin` (R82). -/
theorem fields_mbBegin (mbx mby : BitVec 10) (lmode : LumaMode) (cmode : ChromaMode) (segid : BitVec 2) (skip : Bool) :
    field (encode (.mbBegin mbx mby lmode cmode segid skip)) 63 56 = 16 ∧
    field (encode (.mbBegin mbx mby lmode cmode segid skip)) 41 32 = mbx.toNat ∧
    field (encode (.mbBegin mbx mby lmode cmode segid skip)) 29 20 = mby.toNat ∧
    field (encode (.mbBegin mbx mby lmode cmode segid skip)) 18 16 = lmode.code ∧
    field (encode (.mbBegin mbx mby lmode cmode segid skip)) 13 12 = cmode.code ∧
    field (encode (.mbBegin mbx mby lmode cmode segid skip)) 9 8 = segid.toNat ∧
    field (encode (.mbBegin mbx mby lmode cmode segid skip)) 0 0 = skip.toNat := by
  have := mbx.isLt
  have := mby.isLt
  have := code_luma_lt lmode
  have := code_chroma_lt cmode
  have := segid.isLt
  have := skip.toNat_lt
  have hw := encode_mbBegin_toNat mbx mby lmode cmode segid skip
  exact ⟨field_split (mbx.toNat * 4294967296 + mby.toNat * 1048576 + lmode.code * 65536 + cmode.code * 4096 + segid.toNat * 256 + skip.toNat) (0) 8 64 72057594037927936 18446744073709551616 256 rfl rfl rfl rfl rfl (by omega) (by omega) (by omega),
    field_split (mby.toNat * 1048576 + lmode.code * 65536 + cmode.code * 4096 + segid.toNat * 256 + skip.toNat) (262144) 10 42 4294967296 4398046511104 1024 rfl rfl rfl rfl rfl (by omega) (by omega) (by omega),
    field_split (lmode.code * 65536 + cmode.code * 4096 + segid.toNat * 256 + skip.toNat) (1073741824 + mbx.toNat * 4) 10 30 1048576 1073741824 1024 rfl rfl rfl rfl rfl (by omega) (by omega) (by omega),
    field_split (cmode.code * 4096 + segid.toNat * 256 + skip.toNat) (2199023255552 + mbx.toNat * 8192 + mby.toNat * 2) 3 19 65536 524288 8 rfl rfl rfl rfl rfl (by omega) (by omega) (by omega),
    field_split (segid.toNat * 256 + skip.toNat) (70368744177664 + mbx.toNat * 262144 + mby.toNat * 64 + lmode.code * 4) 2 14 4096 16384 4 rfl rfl rfl rfl rfl (by omega) (by omega) (by omega),
    field_split (skip.toNat) (1125899906842624 + mbx.toNat * 4194304 + mby.toNat * 1024 + lmode.code * 64 + cmode.code * 4) 2 10 256 1024 4 rfl rfl rfl rfl rfl (by omega) (by omega) (by omega),
    field_split (0) (576460752303423488 + mbx.toNat * 2147483648 + mby.toNat * 524288 + lmode.code * 32768 + cmode.code * 2048 + segid.toNat * 128) 1 1 1 2 2 rfl rfl rfl rfl rfl (by omega) (by omega) (by omega)⟩

/-- The reserved bits of the word of `mbBegin` are 0 (R82). -/
theorem reserved_mbBegin (mbx mby : BitVec 10) (lmode : LumaMode) (cmode : ChromaMode) (segid : BitVec 2) (skip : Bool) : reservedClear (Instr.mbBegin mbx mby lmode cmode segid skip).opcode.format (encode (.mbBegin mbx mby lmode cmode segid skip)) = true := by
  have := mbx.isLt
  have := mby.isLt
  have := code_luma_lt lmode
  have := code_chroma_lt cmode
  have := segid.isLt
  have := skip.toNat_lt
  have hw := encode_mbBegin_toNat mbx mby lmode cmode segid skip
  simp only [reservedClear, Instr.opcode, Opcode.format, Format.reserved, List.all_cons, List.all_nil, Bool.and_true, Bool.and_eq_true,
    decide_eq_true_eq]
  exact ⟨field_split (mbx.toNat * 4294967296 + mby.toNat * 1048576 + lmode.code * 65536 + cmode.code * 4096 + segid.toNat * 256 + skip.toNat) (16) 14 56 4398046511104 72057594037927936 16384 rfl rfl rfl rfl rfl (by omega) (by omega) (by omega),
    field_split (mby.toNat * 1048576 + lmode.code * 65536 + cmode.code * 4096 + segid.toNat * 256 + skip.toNat) (268435456 + mbx.toNat) 2 32 1073741824 4294967296 4 rfl rfl rfl rfl rfl (by omega) (by omega) (by omega),
    field_split (lmode.code * 65536 + cmode.code * 4096 + segid.toNat * 256 + skip.toNat) (1099511627776 + mbx.toNat * 4096 + mby.toNat) 1 20 524288 1048576 2 rfl rfl rfl rfl rfl (by omega) (by omega) (by omega),
    field_split (cmode.code * 4096 + segid.toNat * 256 + skip.toNat) (17592186044416 + mbx.toNat * 65536 + mby.toNat * 16 + lmode.code) 2 16 16384 65536 4 rfl rfl rfl rfl rfl (by omega) (by omega) (by omega),
    field_split (segid.toNat * 256 + skip.toNat) (281474976710656 + mbx.toNat * 1048576 + mby.toNat * 256 + lmode.code * 16 + cmode.code) 2 12 1024 4096 4 rfl rfl rfl rfl rfl (by omega) (by omega) (by omega),
    field_split (skip.toNat) (4503599627370496 + mbx.toNat * 16777216 + mby.toNat * 4096 + lmode.code * 256 + cmode.code * 16 + segid.toNat) 7 8 2 256 128 rfl rfl rfl rfl rfl (by omega) (by omega) (by omega)⟩

theorem encode_bpred_toNat (half : Bool) (m0 m1 m2 m3 m4 m5 m6 m7 : SubMode) :
    (encode (.bpred half m0 m1 m2 m3 m4 m5 m6 m7)).toNat = 1224979098644774912 + half.toNat * 281474976710656 + m0.code + m1.code * 16 + m2.code * 256 + m3.code * 4096 + m4.code * 65536 + m5.code * 1048576 + m6.code * 16777216 + m7.code * 268435456 := by
  have := half.toNat_lt
  have := code_sub_lt m0
  have := code_sub_lt m1
  have := code_sub_lt m2
  have := code_sub_lt m3
  have := code_sub_lt m4
  have := code_sub_lt m5
  have := code_sub_lt m6
  have := code_sub_lt m7
  refine place_toNat (b := 17) (B := 1224979098644774912) rfl rfl (sum_place_cons (P := 281474976710656) rfl (sum_place_cons (P := 1) rfl (sum_place_cons (P := 16) rfl (sum_place_cons (P := 256) rfl (sum_place_cons (P := 4096) rfl (sum_place_cons (P := 65536) rfl (sum_place_cons (P := 1048576) rfl (sum_place_cons (P := 16777216) rfl (sum_place_cons (P := 268435456) rfl sum_place_nil))))))))) ?_ ?_ <;> omega

/-- The opcode byte and the fields of the word of `bpred` (R82). -/
theorem fields_bpred (half : Bool) (m0 m1 m2 m3 m4 m5 m6 m7 : SubMode) :
    field (encode (.bpred half m0 m1 m2 m3 m4 m5 m6 m7)) 63 56 = 17 ∧
    field (encode (.bpred half m0 m1 m2 m3 m4 m5 m6 m7)) 48 48 = half.toNat ∧
    field (encode (.bpred half m0 m1 m2 m3 m4 m5 m6 m7)) 3 0 = m0.code ∧
    field (encode (.bpred half m0 m1 m2 m3 m4 m5 m6 m7)) 7 4 = m1.code ∧
    field (encode (.bpred half m0 m1 m2 m3 m4 m5 m6 m7)) 11 8 = m2.code ∧
    field (encode (.bpred half m0 m1 m2 m3 m4 m5 m6 m7)) 15 12 = m3.code ∧
    field (encode (.bpred half m0 m1 m2 m3 m4 m5 m6 m7)) 19 16 = m4.code ∧
    field (encode (.bpred half m0 m1 m2 m3 m4 m5 m6 m7)) 23 20 = m5.code ∧
    field (encode (.bpred half m0 m1 m2 m3 m4 m5 m6 m7)) 27 24 = m6.code ∧
    field (encode (.bpred half m0 m1 m2 m3 m4 m5 m6 m7)) 31 28 = m7.code := by
  have := half.toNat_lt
  have := code_sub_lt m0
  have := code_sub_lt m1
  have := code_sub_lt m2
  have := code_sub_lt m3
  have := code_sub_lt m4
  have := code_sub_lt m5
  have := code_sub_lt m6
  have := code_sub_lt m7
  have hw := encode_bpred_toNat half m0 m1 m2 m3 m4 m5 m6 m7
  exact ⟨field_split (half.toNat * 281474976710656 + m0.code + m1.code * 16 + m2.code * 256 + m3.code * 4096 + m4.code * 65536 + m5.code * 1048576 + m6.code * 16777216 + m7.code * 268435456) (0) 8 64 72057594037927936 18446744073709551616 256 rfl rfl rfl rfl rfl (by omega) (by omega) (by omega),
    field_split (m0.code + m1.code * 16 + m2.code * 256 + m3.code * 4096 + m4.code * 65536 + m5.code * 1048576 + m6.code * 16777216 + m7.code * 268435456) (2176) 1 49 281474976710656 562949953421312 2 rfl rfl rfl rfl rfl (by omega) (by omega) (by omega),
    field_split (0) (76561193665298432 + half.toNat * 17592186044416 + m1.code + m2.code * 16 + m3.code * 256 + m4.code * 4096 + m5.code * 65536 + m6.code * 1048576 + m7.code * 16777216) 4 4 1 16 16 rfl rfl rfl rfl rfl (by omega) (by omega) (by omega),
    field_split (m0.code) (4785074604081152 + half.toNat * 1099511627776 + m2.code + m3.code * 16 + m4.code * 256 + m5.code * 4096 + m6.code * 65536 + m7.code * 1048576) 4 8 16 256 16 rfl rfl rfl rfl rfl (by omega) (by omega) (by omega),
    field_split (m0.code + m1.code * 16) (299067162755072 + half.toNat * 68719476736 + m3.code + m4.code * 16 + m5.code * 256 + m6.code * 4096 + m7.code * 65536) 4 12 256 4096 16 rfl rfl rfl rfl rfl (by omega) (by omega) (by omega),
    field_split (m0.code + m1.code * 16 + m2.code * 256) (18691697672192 + half.toNat * 4294967296 + m4.code + m5.code * 16 + m6.code * 256 + m7.code * 4096) 4 16 4096 65536 16 rfl rfl rfl rfl rfl (by omega) (by omega) (by omega),
    field_split (m0.code + m1.code * 16 + m2.code * 256 + m3.code * 4096) (1168231104512 + half.toNat * 268435456 + m5.code + m6.code * 16 + m7.code * 256) 4 20 65536 1048576 16 rfl rfl rfl rfl rfl (by omega) (by omega) (by omega),
    field_split (m0.code + m1.code * 16 + m2.code * 256 + m3.code * 4096 + m4.code * 65536) (73014444032 + half.toNat * 16777216 + m6.code + m7.code * 16) 4 24 1048576 16777216 16 rfl rfl rfl rfl rfl (by omega) (by omega) (by omega),
    field_split (m0.code + m1.code * 16 + m2.code * 256 + m3.code * 4096 + m4.code * 65536 + m5.code * 1048576) (4563402752 + half.toNat * 1048576 + m7.code) 4 28 16777216 268435456 16 rfl rfl rfl rfl rfl (by omega) (by omega) (by omega),
    field_split (m0.code + m1.code * 16 + m2.code * 256 + m3.code * 4096 + m4.code * 65536 + m5.code * 1048576 + m6.code * 16777216) (285212672 + half.toNat * 65536) 4 32 268435456 4294967296 16 rfl rfl rfl rfl rfl (by omega) (by omega) (by omega)⟩

/-- The reserved bits of the word of `bpred` are 0 (R82). -/
theorem reserved_bpred (half : Bool) (m0 m1 m2 m3 m4 m5 m6 m7 : SubMode) : reservedClear (Instr.bpred half m0 m1 m2 m3 m4 m5 m6 m7).opcode.format (encode (.bpred half m0 m1 m2 m3 m4 m5 m6 m7)) = true := by
  have := half.toNat_lt
  have := code_sub_lt m0
  have := code_sub_lt m1
  have := code_sub_lt m2
  have := code_sub_lt m3
  have := code_sub_lt m4
  have := code_sub_lt m5
  have := code_sub_lt m6
  have := code_sub_lt m7
  have hw := encode_bpred_toNat half m0 m1 m2 m3 m4 m5 m6 m7
  simp only [reservedClear, Instr.opcode, Opcode.format, Format.reserved, List.all_cons, List.all_nil, Bool.and_true, Bool.and_eq_true,
    decide_eq_true_eq]
  exact ⟨field_split (half.toNat * 281474976710656 + m0.code + m1.code * 16 + m2.code * 256 + m3.code * 4096 + m4.code * 65536 + m5.code * 1048576 + m6.code * 16777216 + m7.code * 268435456) (17) 7 56 562949953421312 72057594037927936 128 rfl rfl rfl rfl rfl (by omega) (by omega) (by omega),
    field_split (m0.code + m1.code * 16 + m2.code * 256 + m3.code * 4096 + m4.code * 65536 + m5.code * 1048576 + m6.code * 16777216 + m7.code * 268435456) (4352 + half.toNat) 16 48 4294967296 281474976710656 65536 rfl rfl rfl rfl rfl (by omega) (by omega) (by omega)⟩

theorem encode_coef_toNat (blk : BitVec 5) (zz : BitVec 4) (val : BitVec 16) :
    (encode (.coef blk zz val)).toNat = 1297036692682702848 + blk.toNat * 281474976710656 + zz.toNat * 1099511627776 + val.toNat := by
  have := blk.isLt
  have := zz.isLt
  have := val.isLt
  refine place_toNat (b := 18) (B := 1297036692682702848) rfl rfl (sum_place_cons (P := 281474976710656) rfl (sum_place_cons (P := 1099511627776) rfl (sum_place_cons (P := 1) rfl sum_place_nil))) ?_ ?_ <;> omega

/-- The opcode byte and the fields of the word of `coef` (R82). -/
theorem fields_coef (blk : BitVec 5) (zz : BitVec 4) (val : BitVec 16) :
    field (encode (.coef blk zz val)) 63 56 = 18 ∧
    field (encode (.coef blk zz val)) 52 48 = blk.toNat ∧
    field (encode (.coef blk zz val)) 43 40 = zz.toNat ∧
    field (encode (.coef blk zz val)) 15 0 = val.toNat := by
  have := blk.isLt
  have := zz.isLt
  have := val.isLt
  have hw := encode_coef_toNat blk zz val
  exact ⟨field_split (blk.toNat * 281474976710656 + zz.toNat * 1099511627776 + val.toNat) (0) 8 64 72057594037927936 18446744073709551616 256 rfl rfl rfl rfl rfl (by omega) (by omega) (by omega),
    field_split (zz.toNat * 1099511627776 + val.toNat) (144) 5 53 281474976710656 9007199254740992 32 rfl rfl rfl rfl rfl (by omega) (by omega) (by omega),
    field_split (val.toNat) (73728 + blk.toNat * 16) 4 44 1099511627776 17592186044416 16 rfl rfl rfl rfl rfl (by omega) (by omega) (by omega),
    field_split (0) (19791209299968 + blk.toNat * 4294967296 + zz.toNat * 16777216) 16 16 1 65536 65536 rfl rfl rfl rfl rfl (by omega) (by omega) (by omega)⟩

/-- The reserved bits of the word of `coef` are 0 (R82). -/
theorem reserved_coef (blk : BitVec 5) (zz : BitVec 4) (val : BitVec 16) : reservedClear (Instr.coef blk zz val).opcode.format (encode (.coef blk zz val)) = true := by
  have := blk.isLt
  have := zz.isLt
  have := val.isLt
  have hw := encode_coef_toNat blk zz val
  simp only [reservedClear, Instr.opcode, Opcode.format, Format.reserved, List.all_cons, List.all_nil, Bool.and_true, Bool.and_eq_true,
    decide_eq_true_eq]
  exact ⟨field_split (blk.toNat * 281474976710656 + zz.toNat * 1099511627776 + val.toNat) (18) 3 56 9007199254740992 72057594037927936 8 rfl rfl rfl rfl rfl (by omega) (by omega) (by omega),
    field_split (zz.toNat * 1099511627776 + val.toNat) (4608 + blk.toNat) 4 48 17592186044416 281474976710656 16 rfl rfl rfl rfl rfl (by omega) (by omega) (by omega),
    field_split (val.toNat) (1179648 + blk.toNat * 256 + zz.toNat) 24 40 65536 1099511627776 16777216 rfl rfl rfl rfl rfl (by omega) (by omega) (by omega)⟩

theorem encode_idct_toNat (blk : BitVec 5) :
    (encode (.idct blk)).toNat = 1441151880758558720 + blk.toNat * 281474976710656 := by
  have := blk.isLt
  refine place_toNat (b := 20) (B := 1441151880758558720) rfl rfl (sum_place_cons (P := 281474976710656) rfl sum_place_nil) ?_ ?_ <;> omega

/-- The opcode byte and the fields of the word of `idct` (R82). -/
theorem fields_idct (blk : BitVec 5) :
    field (encode (.idct blk)) 63 56 = 20 ∧
    field (encode (.idct blk)) 52 48 = blk.toNat := by
  have := blk.isLt
  have hw := encode_idct_toNat blk
  exact ⟨field_split (blk.toNat * 281474976710656) (0) 8 64 72057594037927936 18446744073709551616 256 rfl rfl rfl rfl rfl (by omega) (by omega) (by omega),
    field_split (0) (160) 5 53 281474976710656 9007199254740992 32 rfl rfl rfl rfl rfl (by omega) (by omega) (by omega)⟩

/-- The reserved bits of the word of `idct` are 0 (R82). -/
theorem reserved_idct (blk : BitVec 5) : reservedClear (Instr.idct blk).opcode.format (encode (.idct blk)) = true := by
  have := blk.isLt
  have hw := encode_idct_toNat blk
  simp only [reservedClear, Instr.opcode, Opcode.format, Format.reserved, List.all_cons, List.all_nil, Bool.and_true, Bool.and_eq_true,
    decide_eq_true_eq]
  exact ⟨field_split (blk.toNat * 281474976710656) (20) 3 56 9007199254740992 72057594037927936 8 rfl rfl rfl rfl rfl (by omega) (by omega) (by omega),
    field_split (0) (5120 + blk.toNat) 48 48 1 281474976710656 281474976710656 rfl rfl rfl rfl rfl (by omega) (by omega) (by omega)⟩

theorem encode_lfMb_toNat (mbx mby : BitVec 10) :
    (encode (.lfMb mbx mby)).toNat = 2305843009213693952 + mbx.toNat * 4294967296 + mby.toNat * 1048576 := by
  have := mbx.isLt
  have := mby.isLt
  refine place_toNat (b := 32) (B := 2305843009213693952) rfl rfl (sum_place_cons (P := 4294967296) rfl (sum_place_cons (P := 1048576) rfl sum_place_nil)) ?_ ?_ <;> omega

/-- The opcode byte and the fields of the word of `lfMb` (R82). -/
theorem fields_lfMb (mbx mby : BitVec 10) :
    field (encode (.lfMb mbx mby)) 63 56 = 32 ∧
    field (encode (.lfMb mbx mby)) 41 32 = mbx.toNat ∧
    field (encode (.lfMb mbx mby)) 29 20 = mby.toNat := by
  have := mbx.isLt
  have := mby.isLt
  have hw := encode_lfMb_toNat mbx mby
  exact ⟨field_split (mbx.toNat * 4294967296 + mby.toNat * 1048576) (0) 8 64 72057594037927936 18446744073709551616 256 rfl rfl rfl rfl rfl (by omega) (by omega) (by omega),
    field_split (mby.toNat * 1048576) (524288) 10 42 4294967296 4398046511104 1024 rfl rfl rfl rfl rfl (by omega) (by omega) (by omega),
    field_split (0) (2147483648 + mbx.toNat * 4) 10 30 1048576 1073741824 1024 rfl rfl rfl rfl rfl (by omega) (by omega) (by omega)⟩

/-- The reserved bits of the word of `lfMb` are 0 (R82). -/
theorem reserved_lfMb (mbx mby : BitVec 10) : reservedClear (Instr.lfMb mbx mby).opcode.format (encode (.lfMb mbx mby)) = true := by
  have := mbx.isLt
  have := mby.isLt
  have hw := encode_lfMb_toNat mbx mby
  simp only [reservedClear, Instr.opcode, Opcode.format, Format.reserved, List.all_cons, List.all_nil, Bool.and_true, Bool.and_eq_true,
    decide_eq_true_eq]
  exact ⟨field_split (mbx.toNat * 4294967296 + mby.toNat * 1048576) (32) 14 56 4398046511104 72057594037927936 16384 rfl rfl rfl rfl rfl (by omega) (by omega) (by omega),
    field_split (mby.toNat * 1048576) (536870912 + mbx.toNat) 2 32 1073741824 4294967296 4 rfl rfl rfl rfl rfl (by omega) (by omega) (by omega),
    field_split (0) (2199023255552 + mbx.toNat * 4096 + mby.toNat) 20 20 1 1048576 1048576 rfl rfl rfl rfl rfl (by omega) (by omega) (by omega)⟩

/-- The command read from the fields of a word of `cfgFrame` (R82). -/
theorem fieldsOf_cfgFrame {word : CmdWord} (w h : BitVec 14)
    (h0 : field word 45 32 = w.toNat) (h1 : field word 13 0 = h.toNat) :
    fieldsOf .cfgFrame word = some (.cfgFrame w h) := by
  rw [fieldsOf]
  simp only [bits_of_field h0 rfl, bits_of_field h1 rfl]

/-- The command read from the fields of a word of `cfgFilter` (R82). -/
theorem fieldsOf_cfgFilter {word : CmdWord} (type : Bool) (level : BitVec 6) (sharp : BitVec 3)
    (h0 : field word 32 32 = type.toNat) (h1 : field word 13 8 = level.toNat) (h2 : field word 2 0 = sharp.toNat) :
    fieldsOf .cfgFilter word = some (.cfgFilter type level sharp) := by
  rw [fieldsOf]
  simp only [flag_of_field h0, bits_of_field h1 rfl, bits_of_field h2 rfl]

/-- The command read from the fields of a word of `cfgSegctl` (R82). -/
theorem fieldsOf_cfgSegctl {word : CmdWord} (segEn : Bool) (mdelta : BitVec 7)
    (h0 : field word 32 32 = segEn.toNat) (h1 : field word 6 0 = mdelta.toNat) :
    fieldsOf .cfgSegctl word = some (.cfgSegctl segEn mdelta) := by
  rw [fieldsOf]
  simp only [flag_of_field h0, bits_of_field h1 rfl]

/-- The command read from the fields of a word of `cfgSeg` (R82). -/
theorem fieldsOf_cfgSeg {word : CmdWord} (seg : BitVec 2) (dv : Bool) (qlvl : BitVec 8) (lflvl : BitVec 7)
    (h0 : field word 49 48 = seg.toNat) (h1 : field word 40 40 = dv.toNat) (h2 : field word 15 8 = qlvl.toNat) (h3 : field word 6 0 = lflvl.toNat) :
    fieldsOf .cfgSeg word = some (.cfgSeg seg dv qlvl lflvl) := by
  rw [fieldsOf]
  simp only [bits_of_field h0 rfl, flag_of_field h1, bits_of_field h2 rfl, bits_of_field h3 rfl]

/-- The command read from the fields of a word of `cfgSegq` (R82). -/
theorem fieldsOf_cfgSegq {word : CmdWord} (seg : BitVec 2) (fsel : Factor) (qval : BitVec 16)
    (h0 : field word 49 48 = seg.toNat) (h1 : field word 42 40 = fsel.code) (h2 : field word 15 0 = qval.toNat) :
    fieldsOf .cfgSegq word = some (.cfgSegq seg fsel qval) := by
  rw [fieldsOf]
  simp only [h1, factorOf_code, Option.map_some, bits_of_field h0 rfl, bits_of_field h2 rfl]

/-- The command read from the fields of a word of `qderive` (R82). -/
theorem fieldsOf_qderive {word : CmdWord} (seg : BitVec 2) (yac : BitVec 7) (dydc dy2dc dy2ac duvdc duvac : BitVec 5)
    (h0 : field word 49 48 = seg.toNat) (h1 : field word 46 40 = yac.toNat) (h2 : field word 24 20 = dydc.toNat) (h3 : field word 19 15 = dy2dc.toNat) (h4 : field word 14 10 = dy2ac.toNat) (h5 : field word 9 5 = duvdc.toNat) (h6 : field word 4 0 = duvac.toNat) :
    fieldsOf .qderive word = some (.qderive seg yac dydc dy2dc dy2ac duvdc duvac) := by
  rw [fieldsOf]
  simp only [bits_of_field h0 rfl, bits_of_field h1 rfl, bits_of_field h2 rfl, bits_of_field h3 rfl, bits_of_field h4 rfl, bits_of_field h5 rfl, bits_of_field h6 rfl]

/-- The command read from the fields of a word of `mbBegin` (R82). -/
theorem fieldsOf_mbBegin {word : CmdWord} (mbx mby : BitVec 10) (lmode : LumaMode) (cmode : ChromaMode) (segid : BitVec 2) (skip : Bool)
    (h0 : field word 41 32 = mbx.toNat) (h1 : field word 29 20 = mby.toNat) (h2 : field word 18 16 = lmode.code) (h3 : field word 13 12 = cmode.code) (h4 : field word 9 8 = segid.toNat) (h5 : field word 0 0 = skip.toNat) :
    fieldsOf .mbBegin word = some (.mbBegin mbx mby lmode cmode segid skip) := by
  rw [fieldsOf]
  simp only [h2, lumaModeOf_code, h3, chromaModeOf_code, bits_of_field h0 rfl, bits_of_field h1 rfl, bits_of_field h4 rfl, flag_of_field h5]

/-- The command read from the fields of a word of `bpred` (R82). -/
theorem fieldsOf_bpred {word : CmdWord} (half : Bool) (m0 m1 m2 m3 m4 m5 m6 m7 : SubMode)
    (h0 : field word 48 48 = half.toNat) (h1 : field word 3 0 = m0.code) (h2 : field word 7 4 = m1.code) (h3 : field word 11 8 = m2.code) (h4 : field word 15 12 = m3.code) (h5 : field word 19 16 = m4.code) (h6 : field word 23 20 = m5.code) (h7 : field word 27 24 = m6.code) (h8 : field word 31 28 = m7.code) :
    fieldsOf .bpred word = some (.bpred half m0 m1 m2 m3 m4 m5 m6 m7) := by
  rw [fieldsOf]
  simp only [subModeField, Nat.reduceMul, Nat.reduceAdd, h1, h2, h3, h4, h5, h6, h7, h8, subModeOf_code, flag_of_field h0]

/-- The command read from the fields of a word of `coef` (R82). -/
theorem fieldsOf_coef {word : CmdWord} (blk : BitVec 5) (zz : BitVec 4) (val : BitVec 16)
    (h0 : field word 52 48 = blk.toNat) (h1 : field word 43 40 = zz.toNat) (h2 : field word 15 0 = val.toNat) :
    fieldsOf .coef word = some (.coef blk zz val) := by
  rw [fieldsOf]
  simp only [bits_of_field h0 rfl, bits_of_field h1 rfl, bits_of_field h2 rfl]

/-- The command read from the fields of a word of `idct` (R82). -/
theorem fieldsOf_idct {word : CmdWord} (blk : BitVec 5)
    (h0 : field word 52 48 = blk.toNat) :
    fieldsOf .idct word = some (.idct blk) := by
  rw [fieldsOf]
  simp only [bits_of_field h0 rfl]

/-- The command read from the fields of a word of `lfMb` (R82). -/
theorem fieldsOf_lfMb {word : CmdWord} (mbx mby : BitVec 10)
    (h0 : field word 41 32 = mbx.toNat) (h1 : field word 29 20 = mby.toNat) :
    fieldsOf .lfMb word = some (.lfMb mbx mby) := by
  rw [fieldsOf]
  simp only [bits_of_field h0 rfl, bits_of_field h1 rfl]

/-- The three checks of R81 passed in order, for a word read through its fields. -/
theorem decode_of_fields {w : CmdWord} {op : Opcode} {i : Instr} (ho : opcodeOf (field w 63 56) = some op)
    (hr : reservedClear op.format w = true) (hf : fieldsOf op w = some i) :
    decode w = if i.wellFormed then .ok i else .error .badField := by
  unfold decode
  simp only [ho, hr, hf, if_true]

/-- What a successful decode says: the opcode is legal, the reserved bits are clear, and the fields read are in range. -/
theorem decode_ok {w : CmdWord} {i : Instr} (h : decode w = .ok i) :
    ∃ op, opcodeOf (field w 63 56) = some op ∧ reservedClear op.format w = true ∧ fieldsOf op w = some i ∧ i.wellFormed = true := by
  unfold decode at h
  split at h
  · cases h
  next op ho =>
    split at h
    next hr =>
      split at h
      · cases h
      next j hf =>
        split at h
        next hw => cases h; exact ⟨op, ho, hr, hf, hw⟩
        · cases h
    · cases h

end Sys2Proof
end

