-- ==== Sys2Proof/Laws/Filter.lean ====
section
/-! SUPPORT. What the loop filter can change: the planes alone, and of a plane only what the segments store to (R240, R245,
R246). -/

namespace Sys2Proof.Machine

variable {s t : State} {g : Segment} {l : List Segment} {simple : Bool} {lv : Levels} {cfg : Config} {i j n : Nat} {sp : ByteSpace}

/-! ### Replacing memory -/

@[simp] theorem withMem_withMem (m m' : Memory) : (s.withMem m).withMem m' = s.withMem m' := rfl
@[simp] theorem withMem_self : s.withMem s.mem = s := rfl

/-! ### Segments -/

/-- Where a segment stores does not depend on the pixels stored. -/
theorem stores_fst (a b : Line) : (g.stores s simple a).map Prod.fst = (g.stores s simple b).map Prod.fst := by
  unfold Segment.stores
  split <;> rfl

/-- A segment stores to an index whatever the pixels. -/
theorem stores_index {a : Line} (b : Line) {c : Host.Cell} (h : c ∈ g.stores s simple a) :
    ∃ d ∈ g.stores s simple b, d.1 = c.1 := by
  have : c.1 ∈ (g.stores s simple b).map Prod.fst := stores_fst a b ▸ List.mem_map_of_mem h
  obtain ⟨d, hd, he⟩ := List.mem_map.mp this
  exact ⟨d, hd, he⟩

theorem step_congr (h : t.frame = s.frame) : g.step t = g.step s := by
  simp [Segment.step, planeWidth_congr h]

theorem qIndex_congr (h : t.frame = s.frame) (k : Nat) : g.qIndex t k = g.qIndex s k := by
  simp [Segment.qIndex, pixelIndex_congr h, step_congr h]

theorem pIndex_congr (h : t.frame = s.frame) (k : Nat) : g.pIndex t k = g.pIndex s k := by
  simp [Segment.pIndex, pixelIndex_congr h, step_congr h]

theorem stores_congr (h : t.frame = s.frame) (a : Line) : g.stores t simple a = g.stores s simple a := by
  simp [Segment.stores, qIndex_congr h, pIndex_congr h]

theorem inBounds_congr (h : t.frame = s.frame) : inBounds t simple g = inBounds s simple g := by
  simp [inBounds, planeWidth_congr h, planeHeight_congr h]

/-- A segment changes memory alone. -/
theorem filterSegment_withMem : filterSegment simple lv s g = s.withMem (filterSegment simple lv s g).mem := by
  unfold filterSegment
  split <;> rfl

@[simp] theorem filterSegment_frame : (filterSegment simple lv s g).frame = s.frame := by
  rw [filterSegment_withMem]; rfl

/-- A segment keeps the canonical form. -/
theorem filterSegment_wf (h : s.mem.wf) : (filterSegment simple lv s g).mem.wf := by
  unfold filterSegment
  split
  · exact wf_writeAll h
  · exact h

/-- A segment leaves every space but its plane as it is. -/
theorem filterSegment_cells (h : sp ≠ g.plane.space) : (filterSegment simple lv s g).mem.cells sp = s.mem.cells sp := by
  unfold filterSegment
  split
  · exact cells_writeAll_other h
  · rfl

/-- A byte the segment does not store to reads as before. -/
theorem filterSegment_read
    (h : g.plane.space = sp → inBounds s simple g = true → ∀ c ∈ g.stores s simple (g.line s), c.1 ≠ j) :
    (filterSegment simple lv s g).mem.read sp j = s.mem.read sp j := by
  unfold filterSegment
  split
  next hb =>
    refine read_writeAll_other ?_
    by_cases hp : g.plane.space = sp
    · refine .inr fun c hc => ?_
      obtain ⟨d, hd, he⟩ := stores_index (g.line s) hc
      exact he ▸ h hp hb d hd
    · exact .inl (Ne.symm hp)
  · rfl

/-- A cell listed after a segment was stored in bounds or was listed before. -/
theorem filterSegment_mem_cells {c : Host.Cell} (h : c ∈ (filterSegment simple lv s g).mem.cells sp) :
    (g.plane.space = sp ∧ inBounds s simple g = true ∧ ∃ l : Line, c ∈ g.stores s simple l) ∨ c ∈ s.mem.cells sp := by
  unfold filterSegment at h
  split at h
  next hb =>
    by_cases hp : g.plane.space = sp
    · subst hp
      exact (mem_cells_writeAll h).imp_left fun h => ⟨rfl, hb, _, h⟩
    · rw [withMem_mem, cells_writeAll_other (Ne.symm hp)] at h
      exact .inr h
  · exact .inr h

/-! ### Runs of segments -/

/-- A run of segments changes memory alone. -/
theorem segments_withMem : l.foldl (filterSegment simple lv) s = s.withMem (l.foldl (filterSegment simple lv) s).mem := by
  induction l generalizing s with
  | nil => rfl
  | cons g l ih =>
    rw [List.foldl_cons, ih, filterSegment_withMem]
    rfl

@[simp] theorem segments_frame : (l.foldl (filterSegment simple lv) s).frame = s.frame := by
  rw [segments_withMem]; rfl

/-- A run of segments keeps the canonical form. -/
theorem segments_wf (h : s.mem.wf) : (l.foldl (filterSegment simple lv) s).mem.wf := by
  induction l generalizing s with
  | nil => exact h
  | cons g l ih => exact ih (filterSegment_wf h)

/-- A byte no segment of the run stores to reads as before. -/
theorem segments_read
    (h : ∀ g ∈ l, g.plane.space = sp → inBounds s simple g = true → ∀ c ∈ g.stores s simple (g.line s), c.1 ≠ j) :
    (l.foldl (filterSegment simple lv) s).mem.read sp j = s.mem.read sp j := by
  induction l generalizing s with
  | nil => rfl
  | cons g l ih =>
    rw [List.foldl_cons, ih, filterSegment_read (h g (by simp))]
    intro g' hg' hp hb c hc
    rw [inBounds_congr filterSegment_frame] at hb
    rw [stores_congr filterSegment_frame] at hc
    obtain ⟨d, hd, he⟩ := stores_index (g'.line s) hc
    exact he ▸ h g' (by simp [hg']) hp hb d hd

/-- A run of segments leaves every space but the planes of its segments as it is. -/
theorem segments_cells (h : ∀ g ∈ l, sp ≠ g.plane.space) : (l.foldl (filterSegment simple lv) s).mem.cells sp = s.mem.cells sp := by
  induction l generalizing s with
  | nil => rfl
  | cons g l ih => rw [List.foldl_cons, ih (fun g hg => h g (by simp [hg])), filterSegment_cells (h g (by simp))]

/-- A cell listed after a run of segments was stored in bounds or was listed before. -/
theorem segments_mem_cells {c : Host.Cell} (h : c ∈ (l.foldl (filterSegment simple lv) s).mem.cells sp) :
    (∃ g ∈ l, g.plane.space = sp ∧ inBounds s simple g = true ∧ ∃ k : Line, c ∈ g.stores s simple k) ∨ c ∈ s.mem.cells sp := by
  induction l generalizing s with
  | nil => exact .inr h
  | cons g l ih =>
    rcases ih h with ⟨g', hg', hp, hb, k, hc⟩ | h
    · rw [inBounds_congr filterSegment_frame] at hb
      rw [stores_congr filterSegment_frame] at hc
      exact .inl ⟨g', by simp [hg'], hp, hb, k, hc⟩
    · exact (filterSegment_mem_cells h).imp_left fun h => ⟨g, by simp, h⟩

/-! ### Macroblocks -/

/-- Filtering a macroblock: nothing at level 0, else the run of its segments (R235, R240). -/
theorem filterMb_eq : filterMb cfg i s =
    if (levels cfg s (s.mbInfoAt i)).lvl = 0 then s
    else (s.segmentsOf i).foldl (filterSegment s.filter.simple (levels cfg s (s.mbInfoAt i))) s := rfl

/-- Filtering a macroblock changes memory alone. -/
theorem filterMb_withMem : filterMb cfg i s = s.withMem (filterMb cfg i s).mem := by
  rw [filterMb_eq]
  split
  · rfl
  · exact segments_withMem

/-- Filtering a macroblock keeps the canonical form. -/
theorem filterMb_wf (h : s.mem.wf) : (filterMb cfg i s).mem.wf := by
  rw [filterMb_eq]
  split
  · exact h
  · exact segments_wf h

/-- Filtering a macroblock leaves every space but the planes as it is. -/
theorem filterMb_cells (h : ∀ p : Plane, sp ≠ p.space) : (filterMb cfg i s).mem.cells sp = s.mem.cells sp := by
  rw [filterMb_eq]
  split
  · rfl
  · exact segments_cells fun g _ => h g.plane

/-- A byte no segment of the macroblock stores to reads as before. -/
theorem filterMb_read
    (h : (levels cfg s (s.mbInfoAt i)).lvl ≠ 0 → ∀ g ∈ s.segmentsOf i, g.plane.space = sp → inBounds s s.filter.simple g = true →
      ∀ c ∈ g.stores s s.filter.simple (g.line s), c.1 ≠ j) :
    (filterMb cfg i s).mem.read sp j = s.mem.read sp j := by
  rw [filterMb_eq]
  split
  · rfl
  next hl => exact segments_read (h hl)

/-- A cell listed after filtering a macroblock was stored in bounds or was listed before. -/
theorem filterMb_mem_cells {c : Host.Cell} (h : c ∈ (filterMb cfg i s).mem.cells sp) :
    (∃ g ∈ s.segmentsOf i, g.plane.space = sp ∧ inBounds s s.filter.simple g = true ∧ ∃ k : Line, c ∈ g.stores s s.filter.simple k) ∨
    c ∈ s.mem.cells sp := by
  rw [filterMb_eq] at h
  split at h
  · exact .inr h
  · exact segments_mem_cells h

/-- One macroblock filtered and the cursor advanced: `LFCUR` and memory alone change. -/
theorem filterNext_eq : filterNext cfg s = { s with mem := (filterMb cfg s.lfcur.toNat s).mem, lfcur := s.lfcur + 1 } := by
  unfold filterNext
  rw [filterMb_withMem]
  rfl

@[simp] theorem filterNext_frame : (filterNext cfg s).frame = s.frame := by rw [filterNext_eq]

/-- Filtering a macroblock keeps the parameters it is done under (R10). -/
@[simp] theorem filterNext_params : (filterNext cfg s).params = s.params := by rw [filterNext_eq]

/-- `n` macroblocks filtered: `LFCUR` and memory alone change. -/
theorem filterMany_eq : filterMany cfg n s = { s with mem := (filterMany cfg n s).mem, lfcur := (filterMany cfg n s).lfcur } := by
  induction n generalizing s with
  | zero => rfl
  | succ n ih => rw [filterMany, ih, filterNext_eq]

/-- `n` macroblocks filtered advance the cursor by `n`, within the frame. -/
theorem filterMany_lfcur (h : s.lfcur.toNat + n ≤ s.totalMb) : (filterMany cfg n s).lfcur.toNat = s.lfcur.toNat + n := by
  induction n generalizing s with
  | zero => rfl
  | succ n ih =>
    have hb := totalMb_le s
    have hn : (filterNext cfg s).lfcur.toNat = s.lfcur.toNat + 1 := by
      rw [filterNext_eq, BitVec.toNat_add]
      have h1 : (1 : BitVec 21).toNat = 1 := rfl
      rw [h1]
      omega
    rw [filterMany, ih (by rw [totalMb_congr filterNext_frame, hn]; omega), hn]
    omega

/-- Filtering `n` macroblocks keeps the canonical form. -/
theorem filterMany_wf (h : s.mem.wf) : (filterMany cfg n s).mem.wf := by
  induction n generalizing s with
  | zero => exact h
  | succ n ih =>
    refine ih ?_
    rw [filterNext_eq]
    exact filterMb_wf h

/-- Filtering `n` macroblocks leaves every space but the planes as it is. -/
theorem filterMany_cells (h : ∀ p : Plane, sp ≠ p.space) : (filterMany cfg n s).mem.cells sp = s.mem.cells sp := by
  induction n generalizing s with
  | zero => rfl
  | succ n ih =>
    rw [filterMany, ih, filterNext_eq]
    exact filterMb_cells h

/-! ### In bounds -/

/-- What a segment in bounds may store to lies in its plane (R69, R245), where its edge is at least a kernel's reach from the
plane's left or upper border. -/
theorem qIndex_lt (hb : inBounds s simple g = true) {k : Nat} (hk : k < reach simple) :
    g.qIndex s k < s.byteLength g.plane.space := by
  have hbl : s.byteLength g.plane.space = s.planeWidth g.plane * s.planeHeight g.plane := by
    cases g.plane <;> rfl
  rw [hbl, Segment.qIndex, State.pixelIndex, Segment.step]
  unfold inBounds at hb
  split at hb
  all_goals
    simp only [Bool.and_eq_true, decide_eq_true_eq] at hb
    obtain ⟨h1, h2⟩ := hb
  next =>
    show g.y * _ + g.x + k * 1 < _
    calc g.y * s.planeWidth g.plane + g.x + k * 1 < g.y * s.planeWidth g.plane + s.planeWidth g.plane := by omega
      _ = s.planeWidth g.plane * (g.y + 1) := by ring
      _ ≤ _ := Nat.mul_le_mul_left _ h1
  next =>
    show g.y * _ + g.x + k * s.planeWidth g.plane < _
    calc g.y * s.planeWidth g.plane + g.x + k * s.planeWidth g.plane
        < g.y * s.planeWidth g.plane + s.planeWidth g.plane + k * s.planeWidth g.plane := by omega
      _ = s.planeWidth g.plane * (g.y + k + 1) := by ring
      _ ≤ _ := Nat.mul_le_mul_left _ (by omega)

theorem pIndex_le_qIndex {k : Nat} : g.pIndex s k ≤ g.qIndex s 0 := by
  simp only [Segment.pIndex, Segment.qIndex]; omega

/-- Every cell a segment in bounds stores lies in its plane (R69, R245). -/
theorem stores_lt (hb : inBounds s simple g = true) {k : Line} {c : Host.Cell} (hc : c ∈ g.stores s simple k) :
    c.1 < s.byteLength g.plane.space := by
  have h0 : g.qIndex s 0 < s.byteLength g.plane.space := qIndex_lt hb (by unfold reach; split <;> decide)
  have hp : ∀ k, g.pIndex s k < s.byteLength g.plane.space := fun k => Nat.lt_of_le_of_lt pIndex_le_qIndex h0
  cases simple
  · have h1 : g.qIndex s 1 < s.byteLength g.plane.space := qIndex_lt hb (by decide)
    have h2 : g.qIndex s 2 < s.byteLength g.plane.space := qIndex_lt hb (by decide)
    unfold Segment.stores at hc
    split at hc <;> simp only [List.mem_append, List.mem_cons, List.not_mem_nil, or_false] at hc
    · cases ‹false = true›
    · rcases hc with (rfl | rfl) | rfl | rfl
      exacts [hp 0, h0, hp 1, h1]
    · rcases hc with ((rfl | rfl) | rfl | rfl) | rfl | rfl
      exacts [hp 0, h0, hp 1, h1, hp 2, h2]
  · unfold Segment.stores at hc
    simp only [List.mem_cons, List.not_mem_nil, or_false] at hc
    rcases hc with rfl | rfl
    exacts [hp 0, h0]

/-! ### The driver's segments -/

/-- The side of a macroblock in a plane (R240). -/
def Plane.side : Plane → Nat
  | .y => 16
  | .u => 8
  | .v => 8

/-- Every segment of a macroblock lies on one of its edges: the coordinate across the edge is the macroblock's own (only where a
macroblock stands before it) or an interior offset, the one along it runs over the macroblock's side (R240). -/
theorem mem_mbSegments {inner : Bool} {mbx mby : Nat} (h : g ∈ mbSegments simple inner mbx mby) :
    (simple = true → g.plane = .y) ∧
    ∃ e k, e < g.plane.side ∧ e % 4 = 0 ∧ k < g.plane.side ∧
      match g.dir with
      | .vert => g.x = g.plane.side * mbx + e ∧ g.y = g.plane.side * mby + k ∧ (e = 0 → 0 < mbx)
      | .horz => g.y = g.plane.side * mby + e ∧ g.x = g.plane.side * mbx + k ∧ (e = 0 → 0 < mby) := by
  have hpl : ∀ q ∈ filterPlanes simple, q.2 = q.1.side ∧ (simple = true → q.1 = .y) := by
    intro q hq
    cases simple <;> simp only [filterPlanes, Bool.false_eq_true, if_false, if_true, List.mem_cons, List.not_mem_nil, or_false] at hq
    · rcases hq with rfl | rfl | rfl <;> simp [Plane.side]
    · subst hq; simp [Plane.side]
  have hin : ∀ n e, e ∈ interiorOffsets n → e < n ∧ e % 4 = 0 ∧ e ≠ 0 := by
    intro n e he
    simp only [interiorOffsets, List.mem_filter, decide_eq_true_eq] at he
    obtain ⟨he, hn⟩ := he
    simp only [List.mem_cons, List.not_mem_nil, or_false] at he
    omega
  have hside : ∀ q : Plane, 0 < q.side := by intro q; cases q <;> decide
  simp only [mbSegments, List.mem_append] at h
  rcases h with ((h | h) | h) | h
  · split at h
    next hm =>
      simp only [List.mem_flatMap, vertLines, List.mem_map, List.mem_range] at h
      obtain ⟨q, hq, k, hk, rfl⟩ := h
      obtain ⟨h1, h2⟩ := hpl q hq
      exact ⟨h2, 0, k, hside _, rfl, h1 ▸ hk, by simp only [h1, Nat.add_zero], by simp only [h1], fun _ => hm⟩
    · simp at h
  · split at h
    next hm =>
      simp only [List.mem_flatMap, vertLines, List.mem_map, List.mem_range] at h
      obtain ⟨q, hq, e, he, k, hk, rfl⟩ := h
      obtain ⟨h1, h2⟩ := hpl q hq
      obtain ⟨h3, h4, h5⟩ := hin _ _ he
      exact ⟨h2, e, k, h1 ▸ h3, h4, h1 ▸ hk, by simp only [h1], by simp only [h1], fun h => absurd h h5⟩
    · simp at h
  · split at h
    next hm =>
      simp only [List.mem_flatMap, horzLines, List.mem_map, List.mem_range] at h
      obtain ⟨q, hq, k, hk, rfl⟩ := h
      obtain ⟨h1, h2⟩ := hpl q hq
      exact ⟨h2, 0, k, hside _, rfl, h1 ▸ hk, by simp only [h1, Nat.add_zero], by simp only [h1], fun _ => hm⟩
    · simp at h
  · split at h
    next hm =>
      simp only [List.mem_flatMap, horzLines, List.mem_map, List.mem_range] at h
      obtain ⟨q, hq, e, he, k, hk, rfl⟩ := h
      obtain ⟨h1, h2⟩ := hpl q hq
      obtain ⟨h3, h4, h5⟩ := hin _ _ he
      exact ⟨h2, e, k, h1 ▸ h3, h4, h1 ▸ hk, by simp only [h1], by simp only [h1], fun h => absurd h h5⟩
    · simp at h

/-- A store of a segment is to `q_k` or `p_k` with `k ≤ 2`, within the kernel's reach. -/
theorem stores_qp {a : Line} {c : Host.Cell} (h : c ∈ g.stores s simple a) :
    ∃ k, k < 3 ∧ k < reach simple ∧ (c.1 = g.qIndex s k ∨ c.1 = g.pIndex s k) := by
  cases simple
  · unfold Segment.stores at h
    split at h <;> simp only [List.mem_append, List.mem_cons, List.not_mem_nil, or_false] at h
    · cases ‹false = true›
    · rcases h with (rfl | rfl) | rfl | rfl
      exacts [⟨0, by decide, by decide, .inr rfl⟩, ⟨0, by decide, by decide, .inl rfl⟩, ⟨1, by decide, by decide, .inr rfl⟩,
        ⟨1, by decide, by decide, .inl rfl⟩]
    · rcases h with ((rfl | rfl) | rfl | rfl) | rfl | rfl
      exacts [⟨0, by decide, by decide, .inr rfl⟩, ⟨0, by decide, by decide, .inl rfl⟩, ⟨1, by decide, by decide, .inr rfl⟩,
        ⟨1, by decide, by decide, .inl rfl⟩, ⟨2, by decide, by decide, .inr rfl⟩, ⟨2, by decide, by decide, .inl rfl⟩]
  · unfold Segment.stores at h
    simp only [List.mem_cons, List.not_mem_nil, or_false] at h
    rcases h with rfl | rfl
    exacts [⟨0, by decide, by decide, .inr rfl⟩, ⟨0, by decide, by decide, .inl rfl⟩]

/-- What a segment of a macroblock stores to lies inside the macroblock, or at most three pixels before its edge (R246). -/
theorem stores_reach {inner : Bool} {mbx mby : Nat} {a : Line} {c : Host.Cell} (hg : g ∈ mbSegments simple inner mbx mby)
    (hb : inBounds s simple g = true) (hc : c ∈ g.stores s simple a) :
    ∃ X Y, X < s.planeWidth g.plane ∧ c.1 = Y * s.planeWidth g.plane + X ∧ X < g.plane.side * mbx + g.plane.side ∧
      Y < g.plane.side * mby + g.plane.side ∧ g.plane.side * mbx ≤ X + 3 ∧ g.plane.side * mby ≤ Y + 3 := by
  obtain ⟨-, e, j, he, he4, hj, hd⟩ := mem_mbSegments hg
  have hs : 8 ≤ g.plane.side := by cases g.plane <;> decide
  have hs4 : g.plane.side % 4 = 0 := by cases g.plane <;> decide
  obtain ⟨k, hk, hkr, hc⟩ := stores_qp hc
  have h24 : reach simple ≤ 4 := by unfold reach; split <;> omega
  unfold inBounds at hb
  cases hdir : g.dir
  · rw [hdir] at hd hb
    simp only [Bool.and_eq_true, decide_eq_true_eq] at hb hd
    obtain ⟨h1, h2, h3⟩ := hd
    have hx4 : 4 ≤ g.x := by
      by_cases h0 : e = 0
      · have := Nat.mul_le_mul hs (h3 h0); omega
      · omega
    have : g.plane.side * mbx ≥ 0 := Nat.zero_le _
    rcases hc with hc | hc
    · refine ⟨g.x + k, g.y, by omega, ?_, by omega, by omega, by omega, by omega⟩
      rw [hc]; simp only [Segment.qIndex, State.pixelIndex, Segment.step, hdir]; omega
    · refine ⟨g.x - (k + 1), g.y, by omega, ?_, by omega, by omega, by omega, by omega⟩
      rw [hc]; simp only [Segment.pIndex, State.pixelIndex, Segment.step, hdir]; omega
  · rw [hdir] at hd hb
    simp only [Bool.and_eq_true, decide_eq_true_eq] at hb hd
    obtain ⟨h1, h2, h3⟩ := hd
    have hx4 : 4 ≤ g.y := by
      by_cases h0 : e = 0
      · have := Nat.mul_le_mul hs (h3 h0); omega
      · omega
    rcases hc with hc | hc
    · refine ⟨g.x, g.y + k, by omega, ?_, by omega, by omega, by omega, by omega⟩
      rw [hc]; simp only [Segment.qIndex, State.pixelIndex, Segment.step, hdir]; ring
    · refine ⟨g.x, g.y - (k + 1), by omega, ?_, by omega, by omega, by omega, by omega⟩
      rw [hc]; simp only [Segment.pIndex, State.pixelIndex, Segment.step, hdir]
      rw [Nat.sub_mul]
      have := Nat.mul_le_mul_right (s.planeWidth g.plane) (show k + 1 ≤ g.y by omega)
      omega

/-! ### What one segment leaves -/

theorem c127_eq (v : Int) : c127 v = max (-128) (min 127 v) := by
  unfold c127 clamp; split
  · omega
  · split <;> omega

theorem s2u_toNat (v : Int) : ((s2u v).toNat : Int) = max (-128) (min 127 v) + 128 := by
  unfold s2u
  rw [BitVec.toNat_ofInt, c127_eq]
  omega

/-- The simple filter writes `p0` and `q0` alone (R242). -/
theorem simpleSegment_frame (e : Nat) (l : Line) : (simpleSegment e l).p1 = l.p1 ∧ (simpleSegment e l).q1 = l.q1 ∧
    (simpleSegment e l).p2 = l.p2 ∧ (simpleSegment e l).q2 = l.q2 := by
  unfold simpleSegment commonAdjust; split <;> exact ⟨rfl, rfl, rfl, rfl⟩

/-- The sub-block filter leaves `p2` and `q2` (R243). -/
theorem sbFilter_frame (t i e : Nat) (l : Line) : (sbFilter t i e l).p2 = l.p2 ∧ (sbFilter t i e l).q2 = l.q2 := by
  unfold sbFilter commonAdjust; dsimp only; (repeat' split) <;> exact ⟨rfl, rfl⟩

/-- What the simple filter writes is a function of the four pixels it reads (R242). -/
theorem simpleSegment_congr (e : Nat) {a b : Line} (h1 : a.p1 = b.p1) (h2 : a.p0 = b.p0) (h3 : a.q0 = b.q0) (h4 : a.q1 = b.q1) :
    (simpleSegment e a).p0 = (simpleSegment e b).p0 ∧ (simpleSegment e a).q0 = (simpleSegment e b).q0 := by
  cases a; cases b; simp only at h1 h2 h3 h4; subst h1 h2 h3 h4
  unfold simpleSegment; 
  have : ∀ a b c d a' b' c' d' p1 p0 q0 q1, simpleTest e ⟨a, b, p1, p0, q0, q1, c, d⟩ = simpleTest e ⟨a', b', p1, p0, q0, q1, c', d'⟩ := by intros; rfl
  split
  next h => rw [if_pos (this _ _ _ _ _ _ _ _ _ _ _ _ ▸ h)]; exact ⟨rfl, rfl⟩
  next h => rw [if_neg (this _ _ _ _ _ _ _ _ _ _ _ _ ▸ h)]; exact ⟨rfl, rfl⟩

/-- The stored indices of a segment in their order, where its edge is at least four pixels from the border of the plane. -/
theorem index_order (h1 : 1 ≤ g.step s) (h4 : 4 * g.step s ≤ s.pixelIndex g.plane g.x g.y) :
    g.pIndex s 2 < g.pIndex s 1 ∧ g.pIndex s 1 < g.pIndex s 0 ∧ g.pIndex s 0 < g.qIndex s 0 ∧ g.qIndex s 0 < g.qIndex s 1 ∧
      g.qIndex s 1 < g.qIndex s 2 := by
  unfold Segment.pIndex Segment.qIndex
  generalize g.step s = st at *
  generalize s.pixelIndex g.plane g.x g.y = pos at *
  omega

/-- Every byte of its plane after a segment of the simple filter. -/
theorem read_filterSegment_simple (hw : s.mem.wf) (hb : inBounds s true g = true) (h1 : 1 ≤ g.step s)
    (h4 : 4 * g.step s ≤ s.pixelIndex g.plane g.x g.y) (a : Nat) :
   (filterSegment true lv s g).mem.read g.plane.space a =
     if a = g.qIndex s 0 then (kernel true lv g.kind (g.line s)).q0 else if a = g.pIndex s 0 then (kernel true lv g.kind (g.line s)).p0
     else s.mem.read g.plane.space a := by
  obtain ⟨o1, o2, o3, o4, o5⟩ := index_order h1 h4
  unfold filterSegment; rw [if_pos hb, withMem_mem]
  generalize kernel true lv g.kind (g.line s) = k
  have hn : ((g.stores s true k).map Prod.fst).Nodup := by simp [Segment.stores]; omega
  split
  next h => subst h; exact read_writeAll_mem hw hn (by simp [Segment.stores])
  next h =>
    split
    next h => subst h; exact read_writeAll_mem hw hn (by simp [Segment.stores])
    next h' => exact read_writeAll_other (.inr fun c hc => by simp [Segment.stores] at hc; rcases hc with rfl | rfl <;> simp <;> omega)

/-- Every byte of its plane after a segment of the normal filter. -/
theorem read_filterSegment_normal (hw : s.mem.wf) (hb : inBounds s false g = true) (h1 : 1 ≤ g.step s)
    (h4 : 4 * g.step s ≤ s.pixelIndex g.plane g.x g.y) (a : Nat) :
   (filterSegment false lv s g).mem.read g.plane.space a =
     let l := kernel false lv g.kind (g.line s)
     if a = g.qIndex s 0 then l.q0 else if a = g.qIndex s 1 then l.q1 else if a = g.qIndex s 2 then l.q2
     else if a = g.pIndex s 0 then l.p0 else if a = g.pIndex s 1 then l.p1 else if a = g.pIndex s 2 then l.p2
     else s.mem.read g.plane.space a := by
  obtain ⟨o1, o2, o3, o4, o5⟩ := index_order h1 h4
  unfold filterSegment; rw [if_pos hb, withMem_mem]
  have hk : g.kind = .sb → (kernel false lv g.kind (g.line s)).q2 = (g.line s).q2 ∧ (kernel false lv g.kind (g.line s)).p2 = (g.line s).p2 := by
    intro h; rw [h]; exact ⟨(sbFilter_frame _ _ _ _).2, (sbFilter_frame _ _ _ _).1⟩
  have e1 : (g.line s).q2 = s.mem.read g.plane.space (g.qIndex s 2) := rfl
  have e2 : (g.line s).p2 = s.mem.read g.plane.space (g.pIndex s 2) := rfl
  rw [e1, e2] at hk
  generalize kernel false lv g.kind (g.line s) = k at *
  dsimp only
  have hn : ((g.stores s false k).map Prod.fst).Nodup := by
    unfold Segment.stores; cases g.kind <;> simp <;> omega
  cases hkind : g.kind with
  | mb =>
    have hst : g.stores s false k = [(g.pIndex s 0, k.p0), (g.qIndex s 0, k.q0), (g.pIndex s 1, k.p1), (g.qIndex s 1, k.q1),
        (g.pIndex s 2, k.p2), (g.qIndex s 2, k.q2)] := by
      simp [Segment.stores, hkind]
    repeat' split
    all_goals first
      | (subst a; exact read_writeAll_mem hw hn (by rw [hst]; simp))
      | (refine read_writeAll_other (.inr fun c hc => ?_)
         rw [hst] at hc
         simp at hc
         rcases hc with rfl | rfl | rfl | rfl | rfl | rfl <;> simp <;> omega)
  | sb =>
    have hst : g.stores s false k = [(g.pIndex s 0, k.p0), (g.qIndex s 0, k.q0), (g.pIndex s 1, k.p1), (g.qIndex s 1, k.q1)] := by
      simp [Segment.stores, hkind]
    have hoth : ∀ b, b ≠ g.pIndex s 0 → b ≠ g.qIndex s 0 → b ≠ g.pIndex s 1 → b ≠ g.qIndex s 1 →
        (s.mem.writeAll g.plane.space (g.stores s false k)).read g.plane.space b = s.mem.read g.plane.space b := by
      intro b _ _ _ _
      refine read_writeAll_other (.inr fun c hc => ?_); rw [hst] at hc; simp at hc; rcases hc with rfl | rfl | rfl | rfl <;> simp <;> omega
    obtain ⟨k1, k2⟩ := hk hkind
    by_cases a0 : a = g.qIndex s 0
    · rw [if_pos a0, a0]; exact read_writeAll_mem hw hn (by rw [hst]; simp)
    rw [if_neg a0]
    by_cases a1 : a = g.qIndex s 1
    · rw [if_pos a1, a1]; exact read_writeAll_mem hw hn (by rw [hst]; simp)
    rw [if_neg a1]
    by_cases a2 : a = g.qIndex s 2
    · rw [if_pos a2, a2, k1]; refine hoth _ ?_ ?_ ?_ ?_ <;> omega
    rw [if_neg a2]
    by_cases a3 : a = g.pIndex s 0
    · rw [if_pos a3, a3]; exact read_writeAll_mem hw hn (by rw [hst]; simp)
    rw [if_neg a3]
    by_cases a4 : a = g.pIndex s 1
    · rw [if_pos a4, a4]; exact read_writeAll_mem hw hn (by rw [hst]; simp)
    rw [if_neg a4]
    by_cases a5 : a = g.pIndex s 2
    · rw [if_pos a5, a5, k2]; refine hoth _ ?_ ?_ ?_ ?_ <;> omega
    rw [if_neg a5]
    refine hoth _ ?_ ?_ ?_ ?_ <;> omega

end Sys2Proof.Machine
end

