-- ==== Sys2Proof/Laws/PerInstr.lean ====
section
/-! SUPPORT. Statements made per command: the encoded word carries the command's opcode byte and no reserved bit (R80 to R84). -/

namespace Sys2Proof.Laws.EncodedWord

/-- The word of a command has the command's opcode byte (R84), and every reserved bit of its format is 0 (R82). -/
def Statement (i : Instr) : Prop :=
  field (encode i) 63 56 = i.opcode.byte ∧ reservedClear i.opcode.format (encode i) = true

theorem nop : Statement .nop := by unfold Statement; decide

theorem cfgFrame (w h : BitVec 14) :
    Statement (.cfgFrame w h) :=
  ⟨(fields_cfgFrame w h).1, reserved_cfgFrame w h⟩

theorem cfgFilter (type : Bool) (level : BitVec 6) (sharp : BitVec 3) :
    Statement (.cfgFilter type level sharp) :=
  ⟨(fields_cfgFilter type level sharp).1, reserved_cfgFilter type level sharp⟩

theorem cfgSegctl (segEn : Bool) (mdelta : BitVec 7) :
    Statement (.cfgSegctl segEn mdelta) :=
  ⟨(fields_cfgSegctl segEn mdelta).1, reserved_cfgSegctl segEn mdelta⟩

theorem cfgSeg (seg : BitVec 2) (dv : Bool) (qlvl : BitVec 8) (lflvl : BitVec 7) :
    Statement (.cfgSeg seg dv qlvl lflvl) :=
  ⟨(fields_cfgSeg seg dv qlvl lflvl).1, reserved_cfgSeg seg dv qlvl lflvl⟩

theorem cfgSegq (seg : BitVec 2) (fsel : Factor) (qval : BitVec 16) :
    Statement (.cfgSegq seg fsel qval) :=
  ⟨(fields_cfgSegq seg fsel qval).1, reserved_cfgSegq seg fsel qval⟩

theorem qderive (seg : BitVec 2) (yac : BitVec 7) (dydc dy2dc dy2ac duvdc duvac : BitVec 5) :
    Statement (.qderive seg yac dydc dy2dc dy2ac duvdc duvac) :=
  ⟨(fields_qderive seg yac dydc dy2dc dy2ac duvdc duvac).1, reserved_qderive seg yac dydc dy2dc dy2ac duvdc duvac⟩

theorem mbBegin (mbx mby : BitVec 10) (lmode : LumaMode) (cmode : ChromaMode) (segid : BitVec 2) (skip : Bool) :
    Statement (.mbBegin mbx mby lmode cmode segid skip) :=
  ⟨(fields_mbBegin mbx mby lmode cmode segid skip).1, reserved_mbBegin mbx mby lmode cmode segid skip⟩

theorem bpred (half : Bool) (m0 m1 m2 m3 m4 m5 m6 m7 : SubMode) :
    Statement (.bpred half m0 m1 m2 m3 m4 m5 m6 m7) :=
  ⟨(fields_bpred half m0 m1 m2 m3 m4 m5 m6 m7).1, reserved_bpred half m0 m1 m2 m3 m4 m5 m6 m7⟩

theorem coef (blk : BitVec 5) (zz : BitVec 4) (val : BitVec 16) :
    Statement (.coef blk zz val) :=
  ⟨(fields_coef blk zz val).1, reserved_coef blk zz val⟩

theorem iwht : Statement .iwht := by unfold Statement; decide

theorem idct (blk : BitVec 5) :
    Statement (.idct blk) :=
  ⟨(fields_idct blk).1, reserved_idct blk⟩

theorem predLuma : Statement .predLuma := by unfold Statement; decide

theorem predChroma : Statement .predChroma := by unfold Statement; decide

theorem mbEnd : Statement .mbEnd := by unfold Statement; decide

theorem lfMb (mbx mby : BitVec 10) :
    Statement (.lfMb mbx mby) :=
  ⟨(fields_lfMb mbx mby).1, reserved_lfMb mbx mby⟩

theorem lfFrame : Statement .lfFrame := by unfold Statement; decide

theorem reset : Statement .reset := by unfold Statement; decide

end Sys2Proof.Laws.EncodedWord
end

