-- ==== Sys2Proof/Laws/Port.lean ====
section
/-! SUPPORT. What the ports do: one step by the oldest pending action, and the numbers the packed registers read as (R22, R61 to
R63). The sums are taken with `sum_place_cons`: unfolding them by `simp` compares powers of two. -/

namespace Sys2Proof.Machine

variable {s : State} {rest : List HostAction}

/-! ### Steps -/

/-- A step with nothing pending (R294). -/
theorem step_idle (h : s.inbox = []) : step s = .next s := by simp [step, takeNext, h]

/-- A step takes the oldest pending action. -/
theorem step_cons {a : HostAction} (h : s.inbox = a :: rest) : step s = serve a { s with inbox := rest } := by
  simp [step, takeNext, h]

/-- A step whose oldest action is a command word. -/
theorem step_command {w : CmdWord} (h : s.inbox = .command w :: rest) : step s = takeWord w { s with inbox := rest } := step_cons h

/-- A word that is not RESET's is discarded while a fault is recorded (R283). -/
theorem takeWord_discard {w : CmdWord} (hf : s.status.fault = true) (h : field w 63 56 ≠ 0xFF) : takeWord w s = .next s := by
  simp [takeWord, hf, h]

/-- A word that does not decode records its decode fault, where none is recorded (R282). -/
theorem takeWord_error {w : CmdWord} {e : DecodeError} (h : decode w = .error e) :
    takeWord w s = .next (s.raise (decodeFault e) w) := by
  unfold takeWord
  split
  next hf =>
    simp only [Bool.and_eq_true] at hf
    rw [raise_of_faulted _ _ _ hf.1]
  · simp only [h]

/-- The word `0xFF` of the opcode byte is RESET's alone (R84). -/
theorem opcodeOf_reset {n : Nat} (h : opcodeOf n = some .reset) : n = 0xFF := by
  unfold opcodeOf at h
  split at h <;> simp_all

/-- Only the RESET opcode reads as RESET. -/
theorem fieldsOf_reset {op : Opcode} {w : CmdWord} (h : fieldsOf op w = some .reset) : op = .reset := by
  unfold fieldsOf at h
  split at h <;> try simp at h
  all_goals first | rfl | (split at h <;> simp at h)

/-- A word that decodes is run, faulted or not: while a fault is recorded, every command but RESET leaves the state as it is
(R283). -/
theorem takeWord_ok {w : CmdWord} {i : Instr} (h : decode w = .ok i) : takeWord w s = exec i s := by
  unfold takeWord
  split
  next hf =>
    simp only [Bool.and_eq_true, decide_eq_true_eq] at hf
    have hi : i ≠ .reset := by
      rintro rfl
      obtain ⟨op, ho, -, hr, -⟩ := decode_ok h
      exact hf.2 (opcodeOf_reset (fieldsOf_reset hr ▸ ho))
    rw [exec_eq_command hi, command_faulted hf.1]
  · simp only [h]

/-! ### Packed words -/

/-- A packed host word as the sum of its placed fields, where the sum fits 32 bits. -/
theorem hostWord_toNat {fs : List (Nat × Nat)} {n : Nat} (h : (fs.map fun f => f.2 * 2 ^ f.1).sum = n) (hlt : n < 4294967296) :
    (hostWord fs).toNat = n := by
  rw [hostWord, h, BitVec.toNat_ofNat]
  exact Nat.mod_eq_of_lt hlt

theorem code_fault_lt (c : FaultCode) : c.code < 12 := by cases c <;> decide
theorem code_phase_lt (p : Phase) : p.code < 5 := by cases p <;> decide

theorem statusWord_toNat : s.statusWord.toNat =
    s.status.fault.toNat + s.status.frameValid.toNat * 2 + s.status.mbOpen.toNat * 4 + s.phase.code * 16 + s.status.fcode.code * 256 := by
  have := s.status.fault.toNat_lt
  have := s.status.frameValid.toNat_lt
  have := s.status.mbOpen.toNat_lt
  have := code_phase_lt s.phase
  have := code_fault_lt s.status.fcode
  unfold State.statusWord
  rw [hostWord_toNat (sum_place_cons (P := 1) rfl (sum_place_cons (P := 2) rfl (sum_place_cons (P := 4) rfl
    (sum_place_cons (P := 16) rfl (sum_place_cons (P := 256) rfl sum_place_nil)))))] <;> omega

theorem segWord_toNat {n : BitVec 2} : (s.segWord n).toNat =
    (s.segReg n).lflvl.toNat + (s.segReg n).qlvl.toNat * 256 + (s.segReg n).dv.toNat * 16777216 := by
  have := (s.segReg n).lflvl.isLt
  have := (s.segReg n).qlvl.isLt
  have := (s.segReg n).dv.toNat_lt
  unfold State.segWord
  rw [hostWord_toNat (sum_place_cons (P := 1) rfl (sum_place_cons (P := 256) rfl (sum_place_cons (P := 16777216) rfl
    sum_place_nil)))] <;> omega

theorem curmbWord_toNat : s.curmbWord.toNat =
    s.curmb.mbx.toNat + s.curmb.mby.toNat * 1024 + s.curmb.lmode.code * 1048576 + s.curmb.cmode.code * 16777216
      + s.curmb.segid.toNat * 268435456 + s.curmb.skip.toNat * 2147483648 := by
  have := s.curmb.mbx.isLt
  have := s.curmb.mby.isLt
  have := code_luma_lt s.curmb.lmode
  have := code_chroma_lt s.curmb.cmode
  have := s.curmb.segid.isLt
  have := s.curmb.skip.toNat_lt
  unfold State.curmbWord
  rw [hostWord_toNat (sum_place_cons (P := 1) rfl (sum_place_cons (P := 1024) rfl (sum_place_cons (P := 1048576) rfl
    (sum_place_cons (P := 16777216) rfl (sum_place_cons (P := 268435456) rfl (sum_place_cons (P := 2147483648) rfl
      sum_place_nil))))))] <;> omega

/-- Eight four-bit codes packed into a word (R34). -/
theorem packed8_toNat (a : Nat → Nat) (h : ∀ k, a k < 16) :
    (hostWord ((List.range 8).map fun k => (4 * k, a k))).toNat =
      a 0 + a 1 * 16 + a 2 * 256 + a 3 * 4096 + a 4 * 65536 + a 5 * 1048576 + a 6 * 16777216 + a 7 * 268435456 := by
  have h0 := h 0
  have h1 := h 1
  have h2 := h 2
  have h3 := h 3
  have h4 := h 4
  have h5 := h 5
  have h6 := h 6
  have h7 := h 7
  have hl : ((List.range 8).map fun k => (4 * k, a k)) =
      [(0, a 0), (4, a 1), (8, a 2), (12, a 3), (16, a 4), (20, a 5), (24, a 6), (28, a 7)] := rfl
  rw [hl, hostWord_toNat (sum_place_cons (P := 1) rfl (sum_place_cons (P := 16) rfl (sum_place_cons (P := 256) rfl
    (sum_place_cons (P := 4096) rfl (sum_place_cons (P := 65536) rfl (sum_place_cons (P := 1048576) rfl
      (sum_place_cons (P := 16777216) rfl (sum_place_cons (P := 268435456) rfl sum_place_nil))))))))] <;> omega

/-- `BPRED_LO` and `BPRED_HI` as the sum of their eight modes (R34). -/
theorem bpredWord_toNat {half : Nat} (a : Nat → Nat) (ha : ∀ k, a k = (s.bpred.getD (8 * half + k) .dc).code) :
    (s.bpredWord half).toNat =
      a 0 + a 1 * 16 + a 2 * 256 + a 3 * 4096 + a 4 * 65536 + a 5 * 1048576 + a 6 * 16777216 + a 7 * 268435456 := by
  have hw : s.bpredWord half = hostWord ((List.range 8).map fun k => (4 * k, a k)) := by
    unfold State.bpredWord
    congr 2
    funext k
    rw [ha]
  rw [hw, packed8_toNat a fun k => by rw [ha]; exact code_sub_lt _]

end Sys2Proof.Machine
end

