-- ==== Sys2Proof/Laws/Scratch.lean ====
section
/-! SUPPORT. Reading a scratch array after it is built and after a region of it is rewritten (R180, R199). -/

namespace Sys2Proof.Machine

variable {ws : Scratch} {n m y0 x0 r c : Nat} {f : Nat → Nat → Byte} {g : Nat → Nat → Byte → Byte}

/-- An `n × n` scratch. -/
def Scratch.Square (ws : Scratch) (n : Nat) : Prop := ws.length = n ∧ ∀ r, r < n → (ws.getD r []).length = n

theorem square_build : (Scratch.build n f).Square n := by
  refine ⟨by simp [Scratch.build], fun r hr => ?_⟩
  simp [Scratch.build, List.getD_eq_getElem?_getD, hr]

theorem at_build (hr : r < n) (hc : c < n) : (Scratch.build n f).at r c = f r c := by
  simp [Scratch.at, Scratch.build, List.getD_eq_getElem?_getD, hr, hc]

theorem square_region (h : ws.Square n) : (ws.region y0 x0 m g).Square n := by
  obtain ⟨h1, h2⟩ := h
  refine ⟨by simp [Scratch.region, h1], fun r hr => ?_⟩
  have := h2 r hr
  simp only [List.getD_eq_getElem?_getD] at this
  have hr' : r < List.length ws := h1 ▸ hr
  simp only [List.getElem?_eq_getElem hr', Option.getD_some] at this
  simp [Scratch.region, List.getD_eq_getElem?_getD, List.getElem?_eq_getElem hr', this]

/-- A cell of a scratch after a region is rewritten. -/
theorem at_region (h : ws.Square n) (hr : r < n) (hc : c < n) :
    (ws.region y0 x0 m g).at r c =
      if y0 ≤ r ∧ r < y0 + m ∧ x0 ≤ c ∧ c < x0 + m then g (r - y0) (c - x0) (ws.at r c) else ws.at r c := by
  obtain ⟨h1, h2⟩ := h
  have hl := h2 r hr
  have hr' : r < List.length ws := h1 ▸ hr
  simp only [List.getD_eq_getElem?_getD, List.getElem?_eq_getElem hr', Option.getD_some] at hl
  have hc' : c < (ws[r]'hr').length := hl ▸ hc
  simp [Scratch.at, Scratch.region, List.getD_eq_getElem?_getD, List.getElem?_eq_getElem hr', List.getElem?_eq_getElem hc']

/-! ### The operations on a scratch keep its shape -/

theorem square_addResidue {res : Block} (h : ws.Square n) : (addResidue y0 x0 res ws).Square n := by
  unfold addResidue; exact square_region h

theorem square_predSub {k : SubMode} (h : ws.Square n) : (predSub k y0 x0 ws).Square n := by
  unfold predSub; exact square_region h

theorem square_predN {k : BigMode} {sh mbx mby : Nat} (h : ws.Square n) : (predN k sh mbx mby ws).Square n := by
  cases k <;> (unfold predN; exact square_region h)

/-- A fold of steps that keep the shape keeps it. -/
theorem square_foldl {α : Type} {step : Scratch → α → Scratch} {l : List α} (hs : ∀ ws a, Scratch.Square ws n → (step ws a).Square n)
    (h : ws.Square n) : (l.foldl step ws).Square n := by
  induction l generalizing ws with
  | nil => exact h
  | cons a l ih => exact ih (hs ws a h)

theorem square_buildLuma {s : State} {mbx mby : Nat} : (buildLuma s mbx mby).Square 21 := square_build

theorem square_buildChroma {s : State} {top left : ByteSpace} {mbx mby : Nat} : (buildChroma s top left mbx mby).Square 9 :=
  square_build

theorem square_addLumaResidue {s : State} {i : Nat} (h : ws.Square n) : (addLumaResidue s ws i).Square n := square_addResidue h

theorem square_reconSub {s : State} {i : Nat} (h : ws.Square n) : (reconSub s ws i).Square n :=
  square_addLumaResidue (square_predSub h)

theorem square_lumaScratch {s : State} : s.lumaScratch.Square 21 := by
  unfold State.lumaScratch reconLuma
  split
  · exact square_foldl (fun _ _ => square_reconSub) square_buildLuma
  · exact square_foldl (fun _ _ => square_addLumaResidue) (square_predN square_buildLuma)

theorem square_chromaScratch {s : State} {top left : ByteSpace} {base : Nat} : (s.chromaScratch top left base).Square 9 :=
  square_foldl (fun _ _ => square_addResidue) (square_predN square_buildChroma)

/-- A cell after a residue is added: inside the 4×4 block clipped once, elsewhere as before (R199). -/
theorem at_addResidue {res : Block} (h : ws.Square n) (hr : r < n) (hc : c < n) :
    (addResidue y0 x0 res ws).at r c =
      if y0 ≤ r ∧ r < y0 + 4 ∧ x0 ≤ c ∧ c < x0 + 4 then clip255 (px (ws.at r c) + res.entry (4 * (r - y0) + (c - x0))) else ws.at r c :=
  at_region h hr hc

/-- A cell after a 4×4 prediction: inside the block the mode's value on the edges as they stood, elsewhere as before (R187). -/
theorem at_predSub {k : SubMode} (h : ws.Square n) (hr : r < n) (hc : c < n) :
    (predSub k y0 x0 ws).at r c =
      if y0 ≤ r ∧ r < y0 + 4 ∧ x0 ≤ c ∧ c < x0 + 4 then pred4 k (ws.edges y0 x0) (r - y0) (c - x0) else ws.at r c := by
  unfold predSub; exact at_region h hr hc

/-- `clip255` as the number it is (R12). -/
theorem clip255_toNat (v : Int) : ((clip255 v).toNat : Int) = max 0 (min 255 v) := by
  unfold clip255 clamp
  rw [BitVec.toNat_ofInt]
  split
  · omega
  · split <;> omega

/-! ### Runs of residue additions -/

theorem square_addChromaResidue {s : State} {base i : Nat} (h : ws.Square n) : (addChromaResidue s base ws i).Square n :=
  square_addResidue h

/-- A cell that no step of a run rewrites is as it was. -/
theorem at_foldl_other {step : Scratch → Nat → Scratch} (hs : ∀ ws a, Scratch.Square ws n → (step ws a).Square n) (l : List Nat)
    (ho : ∀ j ∈ l, ∀ ws : Scratch, ws.Square n → (step ws j).at r c = ws.at r c) (h : ws.Square n) :
    (l.foldl step ws).at r c = ws.at r c := by
  induction l generalizing ws with
  | nil => rfl
  | cons j l ih => rw [List.foldl_cons, ih (fun j hj => ho j (by simp [hj])) (hs _ _ h), ho j (by simp) _ h]

/-- A pixel after the residues of the first `k` luma blocks: its own block's, once (R199, R200). -/
theorem at_foldl_addLumaResidue {s : State} (h : ws.Square 21) (k : Nat) (hk : k ≤ 16) (hr : r < 16) (hc : c < 16) :
    ((List.range k).foldl (addLumaResidue s) ws).at (1 + r) (1 + c) =
      if 4 * (r / 4) + c / 4 < k then
        clip255 (px (ws.at (1 + r) (1 + c)) + (s.coefBlock (4 * (r / 4) + c / 4)).entry (4 * (r % 4) + c % 4))
      else ws.at (1 + r) (1 + c) := by
  induction k with
  | zero => simp
  | succ k ih =>
    rw [List.range_succ, List.foldl_append]
    show (addLumaResidue s _ k).at _ _ = _
    rw [addLumaResidue, at_addResidue (square_foldl (fun _ _ => square_addLumaResidue) h) (by omega) (by omega), ih (by omega)]
    unfold lumaRow lumaCol
    by_cases hh : 4 * (r / 4) + c / 4 = k
    · rw [if_pos (by omega), if_neg (by omega), if_pos (by omega)]
      subst hh
      congr 3
      omega
    · rw [if_neg (by omega)]
      by_cases h2 : 4 * (r / 4) + c / 4 < k
      · rw [if_pos h2, if_pos (by omega)]
      · rw [if_neg h2, if_neg (by omega)]

/-- A pixel after the residues of the first `k` blocks of a chroma plane: its own block's, once (R199, R205). -/
theorem at_foldl_addChromaResidue {s : State} (base : Nat) (h : ws.Square 9) (k : Nat) (hk : k ≤ 4) (hr : r < 8) (hc : c < 8) :
    ((List.range k).foldl (addChromaResidue s base) ws).at (1 + r) (1 + c) =
      if 2 * (r / 4) + c / 4 < k then
        clip255 (px (ws.at (1 + r) (1 + c)) + (s.coefBlock (base + (2 * (r / 4) + c / 4))).entry (4 * (r % 4) + c % 4))
      else ws.at (1 + r) (1 + c) := by
  induction k with
  | zero => simp
  | succ k ih =>
    rw [List.range_succ, List.foldl_append]
    show (addChromaResidue s base _ k).at _ _ = _
    rw [addChromaResidue, at_addResidue (square_foldl (fun _ _ => square_addChromaResidue) h) (by omega) (by omega), ih (by omega)]
    unfold chromaRow chromaCol
    by_cases hh : 2 * (r / 4) + c / 4 = k
    · rw [if_pos (by omega), if_neg (by omega), if_pos (by omega)]
      subst hh
      congr 3
      omega
    · rw [if_neg (by omega)]
      by_cases h2 : 2 * (r / 4) + c / 4 < k
      · rw [if_pos h2, if_pos (by omega)]
      · rw [if_neg h2, if_neg (by omega)]

end Sys2Proof.Machine
end

