-- ==== Sys2Proof/Laws/Predict.lean ====
section
/-! SUPPORT. What a prediction's write-back stores, and what every byte reads as after it (R201, R202, R206, R207). -/

namespace Sys2Proof.Machine

variable {s : State} {p : Plane} {top left sp : ByteSpace} {n mbx mby i : Nat} {ws : Scratch} {m : Memory} {c : Host.Cell}

/-! ### The stored cells -/

theorem mem_leftStores (h : c ∈ leftStores n ws) : c = (0, ws.at 0 n) ∨ ∃ r, r < n ∧ c = (1 + r, ws.at (1 + r) n) := by
  simp only [leftStores, List.mem_cons, List.mem_map, List.mem_range] at h
  exact h.imp_right fun ⟨r, hr, he⟩ => ⟨r, hr, he.symm⟩

theorem leftStores_lt (h : c ∈ leftStores n ws) : c.1 < n + 1 := by
  rcases mem_leftStores h with rfl | ⟨r, hr, rfl⟩
  · simp
  · simp only; omega

theorem leftStores_nodup : ((leftStores n ws).map Prod.fst).Nodup := by
  simp only [leftStores, List.map_cons, List.map_map, List.nodup_cons]
  refine ⟨by simp, ?_⟩
  exact List.Nodup.map_on (fun a _ b _ h => by simp only [Function.comp] at h; omega) List.nodup_range

theorem mem_topStores (h : c ∈ topStores n mbx ws) : ∃ k, k < n ∧ c = (n * mbx + k, ws.at n (1 + k)) := by
  simp only [topStores, List.mem_map, List.mem_range] at h
  obtain ⟨k, hk, he⟩ := h
  exact ⟨k, hk, he.symm⟩

theorem topStores_nodup : ((topStores n mbx ws).map Prod.fst).Nodup := by
  simp only [topStores, List.map_map]
  exact List.Nodup.map_on (fun a _ b _ h => by simp only [Function.comp] at h; omega) List.nodup_range

/-- The pixels a write-back stores: those of the macroblock inside the plane (R202, R207). -/
theorem mem_planeStores : c ∈ planeStores s p n mbx mby ws ↔
    ∃ r k, r < n ∧ k < n ∧ n * mbx + k < s.planeWidth p ∧ n * mby + r < s.planeHeight p ∧
      c = ((n * mby + r) * s.planeWidth p + (n * mbx + k), ws.at (1 + r) (1 + k)) := by
  simp only [planeStores, List.mem_flatMap, List.mem_map, List.mem_range, State.pixelIndex]
  constructor
  · rintro ⟨r, hr, k, hk, rfl⟩
    exact ⟨r, k, by omega, by omega, by omega, by omega, rfl⟩
  · rintro ⟨r, k, hr, hk, hx, hy, rfl⟩
    exact ⟨r, by omega, k, by omega, rfl⟩

/-- Every pixel a write-back stores lies in the plane (R69). -/
theorem planeStores_lt (h : c ∈ planeStores s p n mbx mby ws) : c.1 < s.byteLength p.space := by
  obtain ⟨r, k, -, -, hx, hy, rfl⟩ := mem_planeStores.mp h
  have hl : s.byteLength p.space = s.planeWidth p * s.planeHeight p := by cases p <;> rfl
  rw [hl]
  calc (n * mby + r) * s.planeWidth p + (n * mbx + k) < (n * mby + r) * s.planeWidth p + s.planeWidth p := by omega
    _ = s.planeWidth p * (n * mby + r + 1) := by ring
    _ ≤ _ := Nat.mul_le_mul_left _ hy

/-- Two pixels of one row width with one index are one pixel. -/
theorem pixel_inj {W x x' y y' : Nat} (hx : x < W) (hx' : x' < W) (h : y * W + x = y' * W + x') : y = y' ∧ x = x' := by
  have hW : 0 < W := by omega
  have h1 : (y * W + x) / W = y := by
    rw [Nat.mul_comm, Nat.mul_add_div hW, Nat.div_eq_of_lt hx, Nat.add_zero]
  have h2 : (y' * W + x') / W = y' := by
    rw [Nat.mul_comm, Nat.mul_add_div hW, Nat.div_eq_of_lt hx', Nat.add_zero]
  have hy : y = y' := by rw [← h1, ← h2, h]
  subst hy
  exact ⟨rfl, by omega⟩

theorem planeStores_nodup : ((planeStores s p n mbx mby ws).map Prod.fst).Nodup := by
  simp only [planeStores, List.map_flatMap, List.map_map, State.pixelIndex]
  rw [List.nodup_flatMap]
  refine ⟨fun r _ => ?_, ?_⟩
  · exact List.Nodup.map_on (fun a _ b _ h => by simp only [Function.comp] at h; omega) List.nodup_range
  · refine List.Pairwise.imp_of_mem ?_ (List.nodup_iff_pairwise_ne.mp List.nodup_range)
    intro a b _ _ hab
    simp only [Function.onFun, List.Disjoint, List.mem_map, List.mem_range, Function.comp]
    rintro x ⟨k, hk, rfl⟩ ⟨k', hk', he⟩
    have := (pixel_inj (by omega) (by omega) he).1
    omega

/-! ### The write-back -/

/-- A write-back keeps the canonical form. -/
theorem wf_writeBack (h : m.wf) : (writeBack s p top left n mbx mby ws m).wf := wf_writeAll (wf_writeAll (wf_writeAll h))

/-- A write-back changes its plane and its two borders alone. -/
theorem cells_writeBack_other (hl : sp ≠ left) (ht : sp ≠ top) (hp : sp ≠ p.space) :
    (writeBack s p top left n mbx mby ws m).cells sp = m.cells sp := by
  rw [writeBack, cells_writeAll_other hp, cells_writeAll_other ht, cells_writeAll_other hl]

/-- The left border after a write-back. -/
theorem cells_writeBack_left (ht : left ≠ top) (hp : left ≠ p.space) :
    (writeBack s p top left n mbx mby ws m).cells left = (m.writeAll left (leftStores n ws)).cells left := by
  rw [writeBack, cells_writeAll_other hp, cells_writeAll_other ht]

/-- Replacing another space does not change a run of writes into this one. -/
theorem cells_writeAll_congr {m' : Memory} {l : List Host.Cell} (h : m.cells sp = m'.cells sp) :
    (m.writeAll sp l).cells sp = (m'.writeAll sp l).cells sp := by
  induction l generalizing m m' with
  | nil => exact h
  | cons c l ih => exact ih (by simp [h])

/-- The top border after a write-back. -/
theorem cells_writeBack_top (hl : top ≠ left) (hp : top ≠ p.space) :
    (writeBack s p top left n mbx mby ws m).cells top = (m.writeAll top (topStores n mbx ws)).cells top := by
  rw [writeBack, cells_writeAll_other hp]
  exact cells_writeAll_congr (cells_writeAll_other hl)

/-- The plane after a write-back. -/
theorem cells_writeBack_plane (hl : p.space ≠ left) (ht : p.space ≠ top) :
    (writeBack s p top left n mbx mby ws m).cells p.space = (m.writeAll p.space (planeStores s p n mbx mby ws)).cells p.space := by
  rw [writeBack]
  exact cells_writeAll_congr (by rw [cells_writeAll_other ht, cells_writeAll_other hl])

/-- A cell listed after a write-back was stored by it or was listed before. -/
theorem mem_cells_writeBack (h : c ∈ (writeBack s p top left n mbx mby ws m).cells sp) :
    (sp = left ∧ c ∈ leftStores n ws) ∨ (sp = top ∧ c ∈ topStores n mbx ws) ∨
    (sp = p.space ∧ c ∈ planeStores s p n mbx mby ws) ∨ c ∈ m.cells sp := by
  unfold writeBack at h
  have step : ∀ {m : Memory} {sp' : ByteSpace} {l : List Host.Cell}, c ∈ (m.writeAll sp' l).cells sp →
      (sp = sp' ∧ c ∈ l) ∨ c ∈ m.cells sp := by
    intro m sp' l h
    by_cases he : sp = sp'
    · subst he; exact (mem_cells_writeAll h).imp_left fun h => ⟨rfl, h⟩
    · rw [cells_writeAll_other he] at h; exact .inr h
  rcases step h with h | h
  · exact .inr (.inr (.inl h))
  rcases step h with h | h
  · exact .inr (.inl h)
  rcases step h with h | h
  · exact .inl h
  · exact .inr (.inr (.inr h))

/-! ### What a prediction depends on -/

section
variable {t : State} {base : Nat}

/-- The luma scratch is a function of `FRAME`, `CURMB`, the 4×4 modes, the coefficients and the two luma borders (R208). -/
theorem lumaScratch_congr (hf : t.frame = s.frame) (hc : t.curmb = s.curmb) (hb : t.bpred = s.bpred) (hk : t.coef = s.coef)
    (h1 : t.mem.cells .leftY = s.mem.cells .leftY) (h2 : t.mem.cells .topY = s.mem.cells .topY) :
    t.lumaScratch = s.lumaScratch := by
  have hbuild : ∀ a b, buildLuma t a b = buildLuma s a b := by
    intro a b; unfold buildLuma lumaAbove lumaLeft
    simp only [fun i => read_congr (i := i) h1, fun i => read_congr (i := i) h2, mbw_congr hf]
  have hadd : addLumaResidue t = addLumaResidue s := by
    funext ws i; unfold addLumaResidue State.coefBlock; rw [hk]
  have hrec : reconSub t = reconSub s := by
    funext ws i; unfold reconSub; rw [hadd, hb]
  unfold State.lumaScratch reconLuma
  rw [hc, hbuild, hadd, hrec]

/-- A chroma scratch is a function of `CURMB`, the coefficients and the two borders of its plane (R208). -/
theorem chromaScratch_congr (hc : t.curmb = s.curmb) (hk : t.coef = s.coef)
    (h1 : t.mem.cells left = s.mem.cells left) (h2 : t.mem.cells top = s.mem.cells top) :
    t.chromaScratch top left base = s.chromaScratch top left base := by
  have hbuild : ∀ a b, buildChroma t top left a b = buildChroma s top left a b := by
    intro a b; unfold buildChroma
    simp only [fun i => read_congr (i := i) h1, fun i => read_congr (i := i) h2]
  have hadd : addChromaResidue t base = addChromaResidue s base := by
    funext ws i; unfold addChromaResidue State.coefBlock; rw [hk]
  unfold State.chromaScratch
  rw [hc, hbuild, hadd]

/-- A write-back is a function of `FRAME`, the scratch and the memory it starts from. -/
theorem writeBack_congr (hf : t.frame = s.frame) :
    writeBack t p top left n mbx mby ws m = writeBack s p top left n mbx mby ws m := by
  unfold writeBack planeStores
  simp only [planeHeight_congr hf, planeWidth_congr hf, pixelIndex_congr hf]

/-- What one space holds after a write-back depends on what it held before, not on the other spaces. -/
theorem cells_writeBack_congr {m' : Memory} (ha : left ≠ top) (hb : p.space ≠ top) (hb' : p.space ≠ left)
    (h : m.cells sp = m'.cells sp) :
    (writeBack s p top left n mbx mby ws m).cells sp = (writeBack s p top left n mbx mby ws m').cells sp := by
  by_cases h1 : sp = left
  · subst h1; rw [cells_writeBack_left ha hb'.symm, cells_writeBack_left ha hb'.symm]; exact cells_writeAll_congr h
  · by_cases h2 : sp = top
    · subst h2; rw [cells_writeBack_top ha.symm hb.symm, cells_writeBack_top ha.symm hb.symm]; exact cells_writeAll_congr h
    · by_cases h3 : sp = p.space
      · subst h3; rw [cells_writeBack_plane hb' hb, cells_writeBack_plane hb' hb]; exact cells_writeAll_congr h
      · rw [cells_writeBack_other h1 h2 h3, cells_writeBack_other h1 h2 h3]; exact h

end

/-! ### Every byte after a write-back -/

/-- The left border after a write-back (R201, R206). -/
theorem read_writeBack_left (hm : m.wf) (ht : left ≠ top) (hp : left ≠ Plane.space p) :
    (writeBack s p top left n mbx mby ws m).read left 0 = ws.at 0 n ∧
    (∀ r, r < n → (writeBack s p top left n mbx mby ws m).read left (1 + r) = ws.at (1+r) n) ∧
   (∀ i, n + 1 ≤ i → (writeBack s p top left n mbx mby ws m).read left i = m.read left i) := by
  have hr : ∀ i, (writeBack s p top left n mbx mby ws m).read left i = (m.writeAll left (leftStores n ws)).read left i := fun i =>
    read_congr (cells_writeBack_left ht hp)
  refine ⟨?_, ?_, ?_⟩
  · rw [hr]; exact read_writeAll_mem hm leftStores_nodup (by simp [leftStores])
  · intro r h; rw [hr]; exact read_writeAll_mem hm leftStores_nodup (by simp [leftStores]; exact h)
  · intro i hi; rw [hr]; exact read_writeAll_other (.inr fun c hc => by have := leftStores_lt hc; omega)

/-- The top border after a write-back (R201, R206). -/
theorem read_writeBack_top (hm : m.wf) (ht : top ≠ left) (hp : top ≠ Plane.space p) :
   (∀ k, k < n → (writeBack s p top left n mbx mby ws m).read top (n * mbx + k) = ws.at n (1 + k)) ∧
   (∀ i, (i < n * mbx ∨ n * mbx + n ≤ i) → (writeBack s p top left n mbx mby ws m).read top i = m.read top i) := by
  have hr : ∀ i, (writeBack s p top left n mbx mby ws m).read top i = (m.writeAll top (topStores n mbx ws)).read top i := fun i =>
    read_congr (cells_writeBack_top ht hp)
  refine ⟨?_, ?_⟩
  · intro r h; rw [hr]; exact read_writeAll_mem hm topStores_nodup (by simp [topStores]; exact h)
  · intro i hi; rw [hr]; exact read_writeAll_other (.inr fun c hc => by obtain ⟨k, hk, rfl⟩ := mem_topStores hc; simp only; omega)

/-- The plane after a write-back (R201, R202, R206, R207). -/
theorem read_writeBack_plane (hm : m.wf) (ht : Plane.space p ≠ left) (hp : Plane.space p ≠ top) :
    (∀ r k, r < n → k < n → n * mbx + k < s.planeWidth p → n * mby + r < s.planeHeight p →
      (writeBack s p top left n mbx mby ws m).read p.space ((n * mby + r) * s.planeWidth p + (n * mbx + k)) = ws.at (1 + r) (1 + k)) ∧
    (∀ i, (∀ r k, r < n → k < n → n * mbx + k < s.planeWidth p → n * mby + r < s.planeHeight p →
        i ≠ (n * mby + r) * s.planeWidth p + (n * mbx + k)) →
      (writeBack s p top left n mbx mby ws m).read p.space i = m.read p.space i) := by
  have hr : ∀ i, (writeBack s p top left n mbx mby ws m).read p.space i =
      (m.writeAll p.space (planeStores s p n mbx mby ws)).read p.space i := fun i =>
    read_congr (cells_writeBack_plane ht hp)
  refine ⟨?_, ?_⟩
  · intro r k h1 h2 h3 h4; rw [hr]; exact read_writeAll_mem hm planeStores_nodup (mem_planeStores.mpr ⟨r, k, h1, h2, h3, h4, rfl⟩)
  · intro i hi
    rw [hr]
    refine read_writeAll_other (.inr fun c hc => ?_)
    obtain ⟨r, k, h1, h2, h3, h4, rfl⟩ := mem_planeStores.mp hc
    exact (hi r k h1 h2 h3 h4).symm

end Sys2Proof.Machine
end

