-- ==== Sys2Proof/Machine/Assembly.lean ====
section
/-! DEFINITION. The written form of commands and the pseudo-instructions (spec/30_encoding.md R86, R87). -/

namespace Sys2Proof.Machine

/-- The mnemonic of a command (R84). -/
def mnemonic : Opcode → String
  | .nop => "NOP"
  | .cfgFrame => "CFG_FRAME"
  | .cfgFilter => "CFG_FILTER"
  | .cfgSegctl => "CFG_SEGCTL"
  | .cfgSeg => "CFG_SEG"
  | .cfgSegq => "CFG_SEGQ"
  | .qderive => "QDERIVE"
  | .mbBegin => "MB_BEGIN"
  | .bpred => "BPRED"
  | .coef => "COEF"
  | .iwht => "IWHT"
  | .idct => "IDCT"
  | .predLuma => "PRED_LUMA"
  | .predChroma => "PRED_CHROMA"
  | .mbEnd => "MB_END"
  | .lfMb => "LF_MB"
  | .lfFrame => "LF_FRAME"
  | .reset => "RESET"

/-- The name of a luma mode (R86). -/
def lumaName : LumaMode → String
  | .dc => "DC"
  | .v => "V"
  | .h => "H"
  | .tm => "TM"
  | .b => "B"

/-- The name of a chroma mode (R86). -/
def chromaName : ChromaMode → String
  | .dc => "DC"
  | .v => "V"
  | .h => "H"
  | .tm => "TM"

/-- The name of a 4×4 mode (R86). -/
def subName : SubMode → String
  | .dc => "DC"
  | .tm => "TM"
  | .ve => "VE"
  | .he => "HE"
  | .ld => "LD"
  | .rd => "RD"
  | .vr => "VR"
  | .vl => "VL"
  | .hd => "HD"
  | .hu => "HU"

/-- The operands of a command as written, in the order of R82's field column; signed fields as signed decimals (R86). -/
def operands : Instr → List String
  | .cfgFrame w h => [toString w.toNat, toString h.toNat]
  | .cfgFilter type level sharp => [toString type.toNat, toString level.toNat, toString sharp.toNat]
  | .cfgSegctl segEn mdelta => [toString segEn.toNat, toString mdelta.toInt]
  | .cfgSeg seg dv qlvl lflvl => [toString seg.toNat, toString dv.toNat, toString qlvl.toInt, toString lflvl.toInt]
  | .cfgSegq seg fsel qval => [toString seg.toNat, toString fsel.code, toString qval.toInt]
  | .qderive seg yac dydc dy2dc dy2ac duvdc duvac =>
      [toString seg.toNat, toString yac.toNat, toString dydc.toInt, toString dy2dc.toInt, toString dy2ac.toInt, toString duvdc.toInt, toString duvac.toInt]
  | .mbBegin mbx mby lmode cmode segid skip =>
      [toString mbx.toNat, toString mby.toNat, lumaName lmode, chromaName cmode, toString segid.toNat, toString skip.toNat]
  | .bpred half m0 m1 m2 m3 m4 m5 m6 m7 => toString half.toNat :: [m0, m1, m2, m3, m4, m5, m6, m7].map subName
  | .coef blk zz val => [toString blk.toNat, toString zz.toNat, toString val.toInt]
  | .idct blk => [toString blk.toNat]
  | .lfMb mbx mby => [toString mbx.toNat, toString mby.toNat]
  | .nop | .iwht | .predLuma | .predChroma | .mbEnd | .lfFrame | .reset => []

/-- A command as written: the mnemonic, then the operands separated by commas (R86). -/
def written (i : Instr) : String :=
  match operands i with
  | [] => mnemonic i.opcode
  | ops => mnemonic i.opcode ++ " " ++ ", ".intercalate ops

/-- The pseudo-instructions (R87). -/
inductive Pseudo where
  | bpred16 (m0 m1 m2 m3 m4 m5 m6 m7 m8 m9 m10 m11 m12 m13 m14 m15 : SubMode)
  | setq (s : BitVec 2) (ydc yac y2dc y2ac uvdc uvac : BitVec 16)
  | idctY
  | idctUV
  | recon
  deriving DecidableEq, Repr

/-- The commands a pseudo-instruction stands for (R87). -/
def expand : Pseudo → List Instr
  | .bpred16 m0 m1 m2 m3 m4 m5 m6 m7 m8 m9 m10 m11 m12 m13 m14 m15 =>
      [.bpred false m0 m1 m2 m3 m4 m5 m6 m7, .bpred true m8 m9 m10 m11 m12 m13 m14 m15]
  | .setq s ydc yac y2dc y2ac uvdc uvac =>
      [.cfgSegq s .ydc ydc, .cfgSegq s .yac yac, .cfgSegq s .y2dc y2dc, .cfgSegq s .y2ac y2ac, .cfgSegq s .uvdc uvdc, .cfgSegq s .uvac uvac]
  | .idctY => (List.range 16).map fun b => .idct (BitVec.ofNat 5 b)
  | .idctUV => (List.range 8).map fun b => .idct (BitVec.ofNat 5 (16 + b))
  | .recon => [.predLuma, .predChroma, .mbEnd]

end Sys2Proof.Machine
end

