-- ==== Sys2Proof/Tests/Slice0.lean ====
section
/-! SUPPORT. Tests of single commands and steps, with results taken from spec/95_test_vectors.md and the rules' own examples, and
one witness per statement that has hypotheses. -/

namespace Sys2Proof.Tests

open Sys2Proof Sys2Proof.Machine

/-! ### Small states -/

/-- The next state of a result, the reset state where there is none. -/
def after : Result → State
  | .next t => t
  | .fault _ => State.reset
  | .refused _ => State.reset

/-- `STATUS.FCODE` of the next state of a result (255 where there is none). -/
def faultOf : Result → Nat
  | .next t => t.status.fcode.code
  | .fault _ => 255
  | .refused _ => 255

/-- A state with one command word pending. -/
def pending (s : State) (w : CmdWord) : State := { s with inbox := [.command w] }

/-- The state after one command word, `STATUS.FCODE` of it. -/
def faultWord (s : State) (w : CmdWord) : Nat := faultOf (step (pending s w))

/-- A host word of a register, 0 where the read is refused. -/
def reg (s : State) (n : Nat) : Nat := ((s.register n).getD 0).toNat

/-- A frame of the given size, configured from reset. -/
def framed (w h : BitVec 14) : State := after (exec (.cfgFrame w h) State.reset)

/-- The frame of two by two macroblocks of spec/95_test_vectors.md 1.7, 17 by 17 pixels. -/
def frame17 : State := framed 17 17

/-- A frame with a macroblock open at `(mbx, mby)`, its cursor there, nothing done for it. -/
def opened (w h : BitVec 14) (mbx mby : BitVec 10) (lmode : LumaMode) (cmode : ChromaMode) (skip : Bool) : State :=
  let s := framed w h
  after (exec (.mbBegin mbx mby lmode cmode 0 skip) { s with mbcur := BitVec.ofNat 21 (mby.toNat * s.mbw + mbx.toNat) })

/-- The open macroblock with every IDCT done. -/
def transformed (s : State) : State := { s with mbflags := { s.mbflags with whtDone := true }, idctDone := BitVec.allOnes 24 }

/-- The open macroblock with both predictions done. -/
def predicted (s : State) : State := { s with mbflags := { s.mbflags with lumaDone := true, chromaDone := true } }

/-- A 16 by 16 frame decoded and not yet filtered. -/
def decoded (w h : BitVec 14) : State := let s := framed w h; { s with mbcur := BitVec.ofNat 21 s.totalMb }

/-- A state with a fault recorded. -/
def faulted : State := after (step (pending State.reset 0x0700000000000000))

/-- A block of sixteen integers. -/
def block (l : List Int) : Block := Vector.ofFn fun k => BitVec.ofInt 32 (l.getD k.val 0)

/-- A block as sixteen integers. -/
def ints (b : Block) : List Int := (List.range 16).map b.entry

/-- The sixteen pixels of a 4×4 mode. -/
def pixels (m : SubMode) (e : Edges) : List Nat :=
  (List.range 16).map fun k => (pred4 m e (k / 4) (k % 4)).toNat

/-! ### Well-formedness: an ill-formed term for each check (R83) -/

theorem test_width_zero : Instr.wellFormed (.cfgFrame 0 16) = false := by decide
theorem test_height_zero : Instr.wellFormed (.cfgFrame 16 0) = false := by decide
theorem test_mdelta_low : Instr.wellFormed (.cfgSegctl false (BitVec.ofInt 7 (-64))) = false := by decide
theorem test_qlvl_low : Instr.wellFormed (.cfgSeg 0 false (BitVec.ofInt 8 (-128)) 0) = false := by decide
theorem test_lflvl_low : Instr.wellFormed (.cfgSeg 0 false 0 (BitVec.ofInt 7 (-64))) = false := by decide
theorem test_deltas_low : ∀ k : Fin 5,
    let d := fun n : Nat => if n = k.val then BitVec.ofInt 5 (-16) else (0 : BitVec 5)
    Instr.wellFormed (.qderive 0 0 (d 0) (d 1) (d 2) (d 3) (d 4)) = false := by decide
theorem test_coef_block_high : Instr.wellFormed (.coef 25 0 0) = false := by decide
theorem test_idct_block_high : Instr.wellFormed (.idct 24) = false := by decide

/-! ### Decoding: a word of each command, its fields laid out from bit 63 down (R82, R84) -/

theorem test_decode_nop : decode (0x00#8 ++ 0#56) = .ok .nop := by decide
theorem test_decode_cfg_frame : decode (0x01#8 ++ 0#10 ++ 16383#14 ++ 0#18 ++ 1#14) = .ok (.cfgFrame 16383 1) := by decide
theorem test_decode_cfg_filter : decode (0x02#8 ++ 0#23 ++ 1#1 ++ 0#18 ++ 63#6 ++ 0#5 ++ 7#3) = .ok (.cfgFilter true 63 7) := by decide
theorem test_decode_cfg_segctl : decode (0x03#8 ++ 0#23 ++ 1#1 ++ 0#25 ++ 0b1000001#7) = .ok (.cfgSegctl true (BitVec.ofInt 7 (-63))) := by
  decide
theorem test_decode_cfg_seg : decode (0x04#8 ++ 0#6 ++ 2#2 ++ 0#7 ++ 1#1 ++ 0#24 ++ 0b10000001#8 ++ 0#1 ++ 63#7) =
    .ok (.cfgSeg 2 true (BitVec.ofInt 8 (-127)) 63) := by decide
theorem test_decode_cfg_segq : decode (0x05#8 ++ 0#6 ++ 3#2 ++ 0#5 ++ 5#3 ++ 0#24 ++ 0xFFF8#16) =
    .ok (.cfgSegq 3 .uvac (BitVec.ofInt 16 (-8))) := by decide
theorem test_decode_qderive : decode (0x06#8 ++ 0#6 ++ 1#2 ++ 0#1 ++ 120#7 ++ 0#15 ++ 1#5 ++ 2#5 ++ 3#5 ++ 4#5 ++ 0b10001#5) =
    .ok (.qderive 1 120 1 2 3 4 (BitVec.ofInt 5 (-15))) := by decide
theorem test_decode_mb_begin :
    decode (0x10#8 ++ 0#14 ++ 1023#10 ++ 0#2 ++ 512#10 ++ 0#1 ++ 4#3 ++ 0#2 ++ 3#2 ++ 0#2 ++ 2#2 ++ 0#7 ++ 1#1) =
    .ok (.mbBegin 1023 512 .b .tm 2 true) := by decide
theorem test_decode_bpred : decode (0x11#8 ++ 0#7 ++ 1#1 ++ 0#16 ++ 9#4 ++ 8#4 ++ 7#4 ++ 6#4 ++ 5#4 ++ 4#4 ++ 3#4 ++ 2#4) =
    .ok (.bpred true .ve .he .ld .rd .vr .vl .hd .hu) := by decide
theorem test_decode_coef : decode (0x12#8 ++ 0#3 ++ 24#5 ++ 0#4 ++ 15#4 ++ 0#24 ++ 0x8000#16) =
    .ok (.coef 24 15 (BitVec.ofInt 16 (-32768))) := by decide
theorem test_decode_iwht : decode (0x13#8 ++ 0#56) = .ok .iwht := by decide
theorem test_decode_idct : decode (0x14#8 ++ 0#3 ++ 23#5 ++ 0#48) = .ok (.idct 23) := by decide
theorem test_decode_pred_luma : decode (0x15#8 ++ 0#56) = .ok .predLuma := by decide
theorem test_decode_pred_chroma : decode (0x16#8 ++ 0#56) = .ok .predChroma := by decide
theorem test_decode_mb_end : decode (0x17#8 ++ 0#56) = .ok .mbEnd := by decide
theorem test_decode_lf_mb : decode (0x20#8 ++ 0#14 ++ 1#10 ++ 0#2 ++ 1023#10 ++ 0#20) = .ok (.lfMb 1 1023) := by decide
theorem test_decode_lf_frame : decode (0x21#8 ++ 0#56) = .ok .lfFrame := by decide
theorem test_decode_reset : decode (0xFF#8 ++ 0#56) = .ok .reset := by decide

/-- The decoder on bytes: byte 0 holds bits 7..0 (R64); seven bytes are no word (R61). -/
theorem test_decode_bytes : decodeBytes [0x10, 0, 0, 0, 0x10, 0, 0, 1, 0xAA] = some (.ok (.cfgFrame 16 16), [0xAA]) ∧
    decodeBytes [0, 0, 0, 0, 0, 0, 0] = none := by decide

/-- A table word, as the host asks for it. -/
theorem test_table_word : decodeTableWord 64 0x1405000000000000 = some (.idct 5) := by decide
theorem test_fetch_word :
    (after (step (State.reset.withFetchWord 64 0x0200000000001400))).filter = ⟨false, 20, 0⟩ := by decide

/-! ### Decode faults (spec/95_test_vectors.md 2.1), each from the reset state -/

theorem test_illegal_opcodes : [0x0700000000000000, 0xFE00000000000000, 0x1800000000000000].map (faultWord State.reset) = [1, 1, 1] := by
  decide
theorem test_reserved_bits :
    [0x0000000000000001, 0xFF00000000000001, 0x1100000100000000, 0x1000000000070002].map (faultWord State.reset) = [2, 2, 2, 2] := by
  decide
theorem test_bad_fields :
    [0x1000000000050000, 0x0100000000000010, 0x0300000000000040, 0x0400000000008000, 0x0400000000000040, 0x0500060000000000].map
      (faultWord State.reset) = [3, 3, 3, 3, 3, 3] := by decide
theorem test_bad_fields_2 :
    [0x0600000001000000, 0x110000000000000A, 0x1219000000000000, 0x1418000000000000].map (faultWord State.reset) = [3, 3, 3, 3] := by decide
theorem test_no_frame : faultWord State.reset 0x1200000000000005 = 4 := by decide

/-- R282's registers: the faulting word (spec/95_test_vectors.md 2.3). -/
theorem test_fault_word : let s := after (step (pending (opened 16 16 0 0 .dc .dc true) 0x1200010000000005))
    (reg s 0, reg s 1, reg s 2) = (0x00000927, 0x00000005, 0x12000100) := by decide

/-! ### Configuration (spec/95_test_vectors.md 2.2) -/

theorem test_cfg_frame : (reg frame17 3, reg frame17 4, reg (framed 16 16) 0) = (0x00110011, 0x00020002, 0x12) := by decide
theorem test_cfg_frame_max : (reg (framed 16383 16383) 4, (framed 16383 16383).totalMb) = (0x04000400, 1048576) := by decide
theorem test_cfg_filter : reg (after (step (pending State.reset 0x0200000100003F07))) 5 = 0x00013F07 := by decide
theorem test_cfg_segctl : reg (after (step (pending State.reset 0x030000000000007D))) 6 = 0x000000FD := by decide
theorem test_cfg_seg : reg (after (step (pending State.reset 0x040101000000FB0A))) 9 = 0x0100FB0A := by decide
theorem test_cfg_segq : reg (after (step (pending State.reset 0x050305000000FFF8))) 0x27 = 0xFFFFFFF8 := by decide
theorem test_qderive_low :
    (after (exec (.qderive 0 0 0 0 0 0 0) State.reset)).quantRow 0 = ⟨4, 4, 8, 8, 4, 4⟩ := by decide
theorem test_qderive_clamps :
    (after (step (pending State.reset 0x0600780000F8BDF1))).quantRow 0 = ⟨157, 249, 212, 440, 132, 185⟩ := by decide

/-- A VP8R built with `HEV_RULE = RFC` and flat tables (R10). -/
def otherParams : Config := ⟨.rfc, Vector.replicate 128 150, Vector.replicate 128 200⟩

/-- QDERIVE reads the tables the machine is built with: R111, R112 by hand on entries 150 and 200. -/
theorem test_qderive_tables :
    (after (exec (.qderive 0 0 0 0 0 0 0) (State.resetWith otherParams))).quantRow 0 = ⟨150, 200, 300, 310, 132, 200⟩ := by decide
theorem test_reset : reg (after (exec .reset faulted)) 0 = 0 := by decide
theorem test_reset_params : (after (exec .reset (State.resetWith otherParams))).params.hevRule = .rfc := by decide
theorem test_nop : (exec .nop (framed 16 16)) = .next (framed 16 16) := rfl

/-! ### Macroblocks and residual (spec/95_test_vectors.md 2.3, 2.4) -/

theorem test_mb_begin : reg (opened 32 16 1 0 .v .v true) 0x32 = 0x81100001 := by decide
theorem test_mb_begin_order : faultWord (framed 32 16) 0x1000000100000001 = 7 := by decide
theorem test_bpred : reg (after (step (pending (opened 16 16 0 0 .b .tm false) 0x1101000054321098))) 0x36 = 0x54321098 := by decide
theorem test_bpred_mode : faultWord (opened 16 16 0 0 .dc .dc true) 0x1100000000000000 = 8 := by decide
theorem test_mb_end : (after (step (pending (predicted (opened 32 16 1 0 .v .v true)) 0x1700000000000000))).mbInfoAt 1 = ⟨.v, 0, true⟩ := by
  decide
theorem test_mb_end_order : faultWord (opened 16 16 0 0 .dc .dc true) 0x1700000000000000 = 7 := by decide

/-- The factors 13, 14, 26, 21, 13, 14 of spec/95_test_vectors.md 2.4. -/
def withFactors (s : State) : State := s.setQuantRow 0 ⟨13, 14, 26, 21, 13, 14⟩

theorem test_coef : ((after (exec (.coef 24 1 (BitVec.ofInt 16 (-3))) (withFactors (opened 16 16 0 0 .dc .dc false)))).coefAt 24 1).toInt = -63 := by
  decide
theorem test_coef_low : ((after (exec (.coef 5 15 (BitVec.ofInt 16 (-32768))) (withFactors (opened 16 16 0 0 .dc .dc false)))).coefAt 5 15).toInt =
    -458752 := by decide
theorem test_iwht_transform : ints (iwht4 (block [100, 20, -30, 5, 7, 0, 0, 0, 0, 0, 0, 0, 0, 0, 0, -9])) =
    [12, 20, 14, 8, 14, 18, 16, 5, 10, 18, 12, 6, 12, 16, 15, 4] := by decide
theorem test_iwht : let s := after (exec .iwht ((opened 16 16 0 0 .dc .dc false).setCoef 24 0 80))
    (s.mbflags.whtDone, (List.range 17).map fun k => (s.coefAt k 0).toNat) = (true, List.replicate 16 10 ++ [0]) := by decide
theorem test_idct_transform : ints (idct4 (block [0, 10, 20, 30, 40, 50, 60, 70, 80, 90, 100, 110, 120, 130, 140, 150])) =
    [118, -45, 25, -1, -108, 26, -22, -3, 31, -10, 7, 0, -17, 3, -3, -1] := by decide
theorem test_idct : let s := after (exec (.idct 5) ((opened 16 16 0 0 .b .tm false).setCoef 5 0 320))
    (s.idctDone, ints (s.coefBlock 5)) = (0x000020, List.replicate 16 40) := by decide

/-! ### Prediction (spec/95_test_vectors.md 1.2 to 1.6, 2.5, 2.6, 3.1) -/

/-- Edge set 2 of spec/95_test_vectors.md 2.6. -/
def edges2 : Edges := ⟨100, [200, 10, 250, 0, 90, 30, 255, 1], [60, 255, 0, 128]⟩

theorem test_dc_tm : pixels .dc edges2 = List.replicate 16 113 ∧
    pixels .tm edges2 = [160, 0, 210, 0, 255, 165, 255, 155, 100, 0, 150, 0, 228, 38, 255, 28] := by decide
theorem test_ve_he : pixels .ve edges2 = [128, 118, 128, 85, 128, 118, 128, 85, 128, 118, 128, 85, 128, 118, 128, 85] ∧
    pixels .he edges2 = [119, 119, 119, 119, 143, 143, 143, 143, 96, 96, 96, 96, 96, 96, 96, 96] := by decide
theorem test_ld_rd : pixels .ld edges2 = [118, 128, 85, 53, 128, 85, 53, 101, 85, 53, 101, 135, 53, 101, 135, 65] ∧
    pixels .rd edges2 = [115, 128, 118, 128, 119, 115, 128, 118, 143, 119, 115, 128, 96, 143, 119, 115] := by decide
theorem test_vr_vl : pixels .vr edges2 = [150, 105, 130, 125, 115, 128, 118, 128, 119, 150, 105, 130, 143, 115, 128, 118] ∧
    pixels .vl edges2 = [105, 130, 125, 45, 118, 128, 85, 53, 130, 125, 45, 101, 128, 85, 53, 135] := by decide
theorem test_hd_hu : pixels .hd edges2 = [80, 115, 128, 118, 158, 119, 80, 115, 128, 143, 158, 119, 64, 96, 128, 143] ∧
    pixels .hu edges2 = [158, 143, 128, 96, 128, 96, 64, 96, 64, 96, 128, 128, 128, 128, 128, 128] := by decide
theorem test_averages : (avg2 254 255, avg2 0 1, avg3 1 2 4, avg3 0 255 0) = (255, 1, 2, 128) := by decide

/-- The scratch of spec/95_test_vectors.md 2.5: `A[c] = 100 + c`, `L[r] = 50 + 2r`, `P = 90`. -/
def scratch25 (n : Nat) : Scratch := Scratch.build (n + 1) fun r c =>
  if r = 0 then (if c = 0 then 90 else BitVec.ofNat 8 (99 + c)) else if c = 0 then BitVec.ofNat 8 (48 + 2 * r) else 0

theorem test_dc_luma : (dcValue (scratch25 16) 4 1 1, dcValue (scratch25 16) 4 0 1, dcValue (scratch25 16) 4 1 0, dcValue (scratch25 16) 4 0 0) =
    (86, 108, 65, 128) := by decide
theorem test_dc_chroma : (dcValue (scratch25 8) 3 1 1, dcValue (scratch25 8) 3 0 1, dcValue (scratch25 8) 3 1 0, dcValue (scratch25 8) 3 0 0) =
    (80, 104, 57, 128) := by decide
theorem test_tm_chroma : ((predN .tm 3 1 1 (scratch25 8)).at 1 4, (predN .tm 3 1 1 (scratch25 8)).at 8 2) = (63, 75) := by decide
theorem test_residue : ((addResidue 1 1 (block [-1, -2, -3, -4, 250, 249, 248, 250, -10, -18, -192, -17, -3, 15, 18, 9])
      (Scratch.build 5 fun r c => BitVec.ofNat 8 (4 * r + c - 4))).map fun row => (row.drop 1).map BitVec.toNat).drop 1 =
    [[0, 0, 0, 0], [255, 255, 255, 255], [0, 0, 0, 0], [10, 29, 33, 25]] := by decide

/-- PRED_LUMA and PRED_CHROMA of program P1 on a frame of one pixel: 128 in the planes and in the whole bottom row. -/
theorem test_pred_luma : let s := after (exec .predLuma (opened 1 1 0 0 .dc .dc true))
    (s.mem.y, s.mem.read .topY 15, s.mem.read .topY 16, s.mbflags) = ([(0, 128)], 128, 127, ⟨false, true, false⟩) := by decide +kernel
theorem test_pred_chroma : let s := after (exec .predChroma (opened 1 1 0 0 .dc .tm true))
    (s.mem.u, s.mem.v, s.mem.read .topV 7, s.mem.read .leftU 8) = ([(0, 129)], [(0, 129)], 129, 129) := by decide +kernel

/-! ### The loop filter (spec/95_test_vectors.md 2.7) -/

/-- A state with a filter level and sharpness, segment 1 and the mode delta set. -/
def filterState (level : BitVec 6) (sharp : BitVec 3) (segEn dv : Bool) (lflvl mdelta : Int) : State :=
  { State.reset with
    filter := ⟨false, level, sharp⟩, segctl := ⟨segEn, BitVec.ofInt 8 mdelta⟩,
    seg := State.reset.seg.set 1 ⟨dv, 0, BitVec.ofInt 7 lflvl⟩ }

theorem test_levels : levels Config.vp8r (filterState 20 3 false false 0 0) ⟨.dc, 1, false⟩ = ⟨20, 6, 1, 50, 46⟩ ∧
    levels Config.vp8r (filterState 9 4 false false 0 0) ⟨.dc, 1, false⟩ = ⟨9, 4, 1, 26, 22⟩ := by decide
theorem test_levels_segment : levels Config.vp8r (filterState 20 0 true true (-63) 10) ⟨.b, 1, false⟩ = ⟨10, 10, 1, 34, 30⟩ ∧
    levels Config.vp8r (filterState 60 0 true true 30 (-5)) ⟨.b, 1, false⟩ = ⟨58, 58, 2, 178, 174⟩ := by decide
/-- The last row of the level table: 1 under `DOC`, 0 under `RFC`. -/
theorem test_levels_rule : (levels Config.vp8r (filterState 14 0 false false 0 0) ⟨.dc, 1, false⟩) = ⟨14, 14, 1, 46, 42⟩ ∧
    (levels otherParams (filterState 14 0 false false 0 0) ⟨.dc, 1, false⟩) = ⟨14, 14, 0, 46, 42⟩ := by decide
theorem test_kernels : sbFilter 1 20 60 ⟨100, 100, 100, 100, 110, 110, 110, 110⟩ = ⟨100, 100, 102, 104, 106, 108, 110, 110⟩ ∧
    mbFilter 2 63 193 ⟨100, 100, 100, 100, 170, 170, 170, 170⟩ = ⟨100, 109, 118, 127, 143, 152, 161, 170⟩ := by decide
theorem test_kernels_hev : simpleSegment 64 ⟨100, 100, 100, 96, 110, 112, 110, 110⟩ = ⟨100, 100, 100, 100, 106, 112, 110, 110⟩ ∧
    mbFilter 1 20 64 ⟨100, 100, 100, 96, 110, 112, 110, 110⟩ = ⟨100, 100, 100, 100, 106, 112, 110, 110⟩ := by decide

/-- One row of program P3's shared edge, as a frame one pixel high: `148 … | 127 …` becomes `148 145 142 139 | 136 133 130 127`. -/
def edgeRow : State :=
  let s := decoded 32 1
  { s with
    filter := ⟨false, 20, 0⟩, lfcur := 1, mbinfo := [(1, ⟨.v, 0, true⟩)],
    mem := { s.mem with y := (List.range 32).map fun k => (k, if k < 16 then 148 else 127) } }

theorem test_lf_mb : let s := after (exec (.lfMb 1 0) edgeRow)
    ((List.range 8).map fun k => (s.mem.read .y (12 + k)).toNat) = [148, 145, 142, 139, 136, 133, 130, 127] ∧ reg s 0x31 = 2 := by
  decide +kernel
theorem test_lf_frame : reg (after (exec .lfFrame (decoded 16 16))) 0 = 0x42 := by decide +kernel
theorem test_lf_not_ready : faultWord (framed 16 16) 0x2100000000000000 = 0x0A := by decide

/-! ### The host's accesses -/

theorem test_host_read : hostRead (.byte .topY) 36 frame17 = .data 127 ∧ hostRead (.byte .topY) 37 frame17 = .hostErr := by decide
/-- The ids of the table of R60. -/
theorem test_space_ids : [Space.reg, .byte .y, .byte .u, .byte .v, .coefs, .byte .topY, .byte .leftY, .byte .topU, .byte .topV,
    .byte .leftU, .byte .leftV, .mbinfo].map Space.id = List.range 12 ∧ spaceOfId 12 = none := by decide
theorem test_host_write :
    (after (step { frame17 with inbox := [.write (.byte .y) 288 0x1FF] })).mem.y = [(288, 255)] := by decide

/-! ### Witnesses: for each statement with hypotheses, states and operands that meet all of them, at the ends of each clause -/

/-- `w` is pending with nothing behind it. -/
theorem inbox_pending (s : State) (w : CmdWord) : (pending s w).inbox = .command w :: [] := rfl

theorem witness_DecodeOfEncode : Instr.wellFormed (.cfgFrame 1 16383) = true ∧ Instr.wellFormed (.coef 24 15 0x8000) = true ∧
    Instr.wellFormed (.idct 23) = true ∧ Instr.wellFormed (.cfgSeg 3 true (BitVec.ofInt 8 (-127)) (BitVec.ofInt 7 (-63))) = true := by decide

theorem witness_EncodeOfDecode : decode 0x1000000100031001 = .ok (.mbBegin 1 0 .tm .v 0 true) := by decide

theorem witness_IllegalOpcodeFaults : ∀ op ∈ [0x07, 0x0F, 0x18, 0x1F, 0x22, 0xFE],
    let w := BitVec.ofNat 64 (op * 2 ^ 56 + 5)
    Unfaulted (pending State.reset w) ∧ field w 63 56 = op ∧
    ((0x07 ≤ field w 63 56 ∧ field w 63 56 ≤ 0x0F) ∨ (0x18 ≤ field w 63 56 ∧ field w 63 56 ≤ 0x1F) ∨
      (0x22 ≤ field w 63 56 ∧ field w 63 56 ≤ 0xFE)) := by decide

theorem witness_ReservedBitFaults : ∀ c ∈ [(Opcode.nop, 55, 0, 0), (.reset, 55, 0, 55), (.cfgSeg, 7, 7, 7), (.coef, 39, 16, 39), (.lfMb, 19, 0, 19)],
    let w := BitVec.ofNat 64 (c.1.byte * 2 ^ 56 + 2 ^ c.2.2.2)
    Unfaulted (pending State.reset w) ∧ opcodeOf (field w 63 56) = some c.1 ∧ (c.2.1, c.2.2.1) ∈ c.1.format.reserved ∧
    c.2.2.1 ≤ c.2.2.2 ∧ c.2.2.2 ≤ c.2.1 ∧ w.getLsbD c.2.2.2 = true := by decide

theorem witness_OutOfRangeFieldFaults_term : Unfaulted (pending State.reset (encode (.idct 24))) ∧ Instr.wellFormed (.idct 24) = false := by decide

theorem witness_OutOfRangeFieldFaults_lmode : ∀ l ∈ [5, 7],
    let w := BitVec.ofNat 64 (0x10 * 2 ^ 56 + l * 2 ^ 16)
    Unfaulted (pending State.reset w) ∧ field w 63 56 = 0x10 ∧ reservedClear .mb w = true ∧ 4 < field w 18 16 := by decide

theorem witness_OutOfRangeFieldFaults_mode : ∀ k ∈ [0, 7], ∀ m ∈ [10, 15],
    let w := BitVec.ofNat 64 (0x11 * 2 ^ 56 + m * 2 ^ (4 * k))
    Unfaulted (pending State.reset w) ∧ field w 63 56 = 0x11 ∧ reservedClear .bp w = true ∧ 9 < field w (4 * k + 3) (4 * k) := by decide

theorem witness_OutOfRangeFieldFaults_fsel : ∀ f ∈ [6, 7],
    let w := BitVec.ofNat 64 (0x05 * 2 ^ 56 + f * 2 ^ 40)
    Unfaulted (pending State.reset w) ∧ field w 63 56 = 0x05 ∧ reservedClear .sq w = true ∧ 5 < field w 42 40 := by decide

theorem witness_StepRunsDecodedCommand : (pending State.reset 0).inbox = .command 0 :: [] ∧ decode 0 = .ok .nop ∧ State.reset.inbox = [] := by decide

theorem witness_FaultedWordsDiscarded : faulted.status.fault = true ∧ (0x0700000000000000 : CmdWord) ≠ 0xFF00000000000000 ∧
    (0 : CmdWord) ≠ 0xFF00000000000000 ∧ (0xFF00000000000001 : CmdWord) ≠ 0xFF00000000000000 := by decide

theorem witness_FaultedWordsDiscarded_pending (w : CmdWord) : (pending faulted w).status.fault = faulted.status.fault ∧
    (pending faulted w).inbox = .command w :: [] := ⟨rfl, rfl⟩

theorem witness_EveryCommandHonoursTheTemplate : Instr.lfFrame ≠ .reset ∧ faulted.status.fault = true ∧
    Unfaulted State.reset ∧ Instr.wellFormed (.cfgFrame 0 1) = false := by decide

theorem witness_FaultChangesOnlyFaultRegisters : Unfaulted (pending State.reset 0x1300000000000000) ∧
    ∃ t, step (pending State.reset 0x1300000000000000) = .next t ∧ t.status.fault = true := ⟨by decide, _, rfl, by decide⟩

theorem witness_FaultIsSticky : ∀ a ∈ [HostAction.command 0, .read .reg 0, .write (.byte .y) 0 0],
    a ≠ .reset ∧ a ≠ .command 0xFF00000000000000 ∧ ({ faulted with inbox := [a] } : State).status.fault = true := by decide

theorem witness_FaultIsSticky_step : ∃ t, step { faulted with inbox := [.read .reg 0] } = .next t := ⟨_, rfl⟩

theorem witness_NopChangesNothing : field (1 : CmdWord) 63 56 = 0 ∧ (1 : CmdWord) ≠ 0 := by decide

theorem witness_CfgFrameStartsFrame : Unfaulted State.reset ∧ 1 ≤ (1 : BitVec 14).toNat ∧ 1 ≤ (16383 : BitVec 14).toNat := by decide

theorem witness_FilterAndSegctlCommandsWriteTheirRegister : Unfaulted State.reset ∧ -63 ≤ (BitVec.ofInt 7 (-63)).toInt ∧
    -63 ≤ (63 : BitVec 7).toInt := by decide

theorem witness_SegmentCommandsWriteTheirSegment : Unfaulted State.reset ∧ -127 ≤ (BitVec.ofInt 8 (-127)).toInt ∧
    -63 ≤ (BitVec.ofInt 7 (-63)).toInt := by decide

theorem witness_QderiveFactors : Unfaulted State.reset ∧ ∀ d ∈ [BitVec.ofInt 5 (-15), 15, 0, 15, BitVec.ofInt 5 (-15)], -15 ≤ d.toInt := by decide

/-- The premises on the tables: the defaults, and the exact range of `Y2DC` and `Y2AC` at its ends on other tables. -/
theorem witness_QderiveFactors_tables : State.reset.params.dcQuant = Config.dcQuantTable ∧ State.reset.params.acQuant = Config.acQuantTable ∧
    (let s := State.resetWith ⟨.doc, Vector.replicate 128 16383, Vector.replicate 128 21140⟩
     Unfaulted s ∧ s.params.dcQuant[0].toInt * 2 = 32766 ∧ s.params.acQuant[0].toInt * 155 / 100 = 32767) := ⟨rfl, rfl, by decide⟩

theorem witness_QderiveFactorBounds : Unfaulted State.reset ∧ Instr.wellFormed (.qderive 3 127 15 15 (BitVec.ofInt 5 (-15)) 0 0) = true ∧
    ∃ t, exec (.qderive 3 127 15 15 (BitVec.ofInt 5 (-15)) 0 0) State.reset = .next t := ⟨by decide, by decide, _, rfl⟩

theorem witness_MbBeginOpensMacroblock_first : let s := { frame17 with mbcur := 0 }
    Unfaulted s ∧ s.status.frameValid = true ∧ s.status.mbOpen = false ∧ s.mbcur.toNat ≠ s.totalMb ∧
    (0 : BitVec 10).toNat < s.mbw ∧ (0 : BitVec 10).toNat * s.mbw + (0 : BitVec 10).toNat = s.mbcur.toNat := by decide

theorem witness_MbBeginOpensMacroblock_last : let s := { frame17 with mbcur := 3 }
    Unfaulted s ∧ s.status.frameValid = true ∧ s.status.mbOpen = false ∧ s.mbcur.toNat ≠ s.totalMb ∧
    (1 : BitVec 10).toNat < s.mbw ∧ (1 : BitVec 10).toNat * s.mbw + (1 : BitVec 10).toNat = s.mbcur.toNat := by decide

theorem witness_BpredWritesHalf : let s := opened 17 17 0 0 .b .dc false
    Unfaulted s ∧ InMb s ∧ s.curmb.lmode = .b ∧ s.mbflags.lumaDone = false := by decide

/-- Within a row and at its end. -/
theorem witness_MbEndClosesMacroblock : ∀ c ∈ [((0 : BitVec 10), (0 : BitVec 10)), (1, 1)],
    let s := predicted (opened 17 17 c.1 c.2 .dc .dc true)
    Unfaulted s ∧ InMb s ∧ s.mbflags.lumaDone = true ∧ s.mbflags.chromaDone = true ∧ (s.mem.wf ∧ Canonical MbInfo.zero s.mbinfo) ∧
    s.mbcur.toNat < s.totalMb ∧ (s.curmb.mbx.toNat = s.mbw - 1 ↔ c.1 = 1) := by decide

/-- A state for every clause: no frame, no macroblock, one open, the cursor at the end, a wrong position, another luma mode,
prediction done. -/
theorem witness_MacroblockFaultPriority :
    (Unfaulted State.reset ∧ State.reset.status.frameValid = false) ∧
    (Unfaulted frame17 ∧ frame17.status.frameValid = true ∧ frame17.status.mbOpen = false ∧ frame17.mbcur.toNat ≠ frame17.totalMb ∧
      frame17.mbw ≤ (2 : BitVec 10).toNat ∧ (0 : BitVec 10).toNat * frame17.mbw + (1 : BitVec 10).toNat ≠ frame17.mbcur.toNat) ∧
    (let s := decoded 17 17
     Unfaulted s ∧ s.status.frameValid = true ∧ s.status.mbOpen = false ∧ s.mbcur.toNat = s.totalMb) ∧
    (let s := opened 17 17 0 0 .dc .dc true
     Unfaulted s ∧ InMb s ∧ s.curmb.lmode ≠ .b ∧ s.mbflags.lumaDone = false) ∧
    (let s := predicted (opened 17 17 0 0 .b .dc true)
     Unfaulted s ∧ InMb s ∧ s.curmb.lmode = .b ∧ s.mbflags.lumaDone = true) ∧
    (let s := { opened 17 17 0 0 .dc .dc true with mbflags := ⟨false, true, false⟩ }
     Unfaulted s ∧ InMb s ∧ s.mbflags.chromaDone = false) := by decide

/-- The Y2 block, a luma block with and without its own DC, and a chroma block. -/
theorem witness_CoefDequantizes : ∀ c ∈ [(LumaMode.dc, (24 : BitVec 5), (0 : BitVec 4)), (.b, 0, 0), (.dc, 15, 1), (.dc, 23, 15)],
    let s := opened 17 17 0 0 c.1 .dc false
    Unfaulted s ∧ InMb s ∧ c.2.1.toNat ≤ 24 ∧ s.curmb.skip = false ∧
    (c.2.1.toNat = 24 → s.curmb.lmode ≠ .b ∧ s.mbflags.whtDone = false) ∧
    (c.2.1.toNat < 16 → c.2.2.toNat = 0 → s.curmb.lmode = .b) ∧
    (c.2.1.toNat < 24 → s.idctDoneAt c.2.1.toNat = false) := by decide

theorem witness_IwhtScatters : let s := opened 17 17 0 0 .dc .dc false
    Unfaulted s ∧ InMb s ∧ s.curmb.skip = false ∧ s.curmb.lmode ≠ .b ∧ s.mbflags.whtDone = false ∧ ∀ k < 16, s.idctDoneAt k = false := by decide

theorem witness_IdctTransformsBlock : ∀ c ∈ [(LumaMode.dc, (15 : BitVec 5), true), (.dc, 16, false), (.dc, 23, false), (.b, 0, false)],
    let s := { opened 17 17 0 0 c.1 .dc false with mbflags := ⟨c.2.2, false, false⟩ }
    Unfaulted s ∧ InMb s ∧ c.2.1.toNat ≤ 23 ∧ s.curmb.skip = false ∧ s.idctDoneAt c.2.1.toNat = false ∧
    (c.2.1.toNat < 16 → s.curmb.lmode ≠ .b → s.mbflags.whtDone = true) := by decide

theorem witness_ResidualFaultPriority :
    (Unfaulted State.reset ∧ State.reset.status.frameValid = false ∧ Instr.wellFormed (.coef 24 0 0) = true) ∧
    (Unfaulted frame17 ∧ frame17.status.frameValid = true ∧ frame17.status.mbOpen = false) ∧
    (let s := opened 17 17 0 0 .dc .dc true
     Unfaulted s ∧ InMb s ∧ s.curmb.skip = true) ∧
    (let s := opened 17 17 0 0 .b .dc false
     Unfaulted s ∧ InMb s ∧ s.curmb.skip = false ∧ (24 : BitVec 5).toNat = 24 ∧ s.curmb.lmode = .b) ∧
    (let s := opened 17 17 0 0 .dc .dc false
     Unfaulted s ∧ InMb s ∧ s.curmb.skip = false ∧ (15 : BitVec 5).toNat < 16 ∧ s.curmb.lmode ≠ .b ∧ (0 : BitVec 4).toNat = 0 ∧
       s.mbflags.whtDone = false) ∧
    (let s := transformed (opened 17 17 0 0 .dc .dc false)
     Unfaulted s ∧ InMb s ∧ s.curmb.skip = false ∧ s.curmb.lmode ≠ .b ∧ s.mbflags.whtDone = true ∧
       (23 : BitVec 5).toNat ≤ 23 ∧ s.idctDoneAt 23 = true ∧ s.idctDoneAt 0 = true) := by decide

theorem witness_TransformProperties : (block [100, 20, -30, 5]).toList.map BitVec.toInt =
    [100, 20, -30, 5, 0, 0, 0, 0, 0, 0, 0, 0, 0, 0, 0, 0] := by decide

theorem witness_IdctOrderIsFree : let s := opened 17 17 0 0 .b .dc false
    (16 : BitVec 5) ≠ 23 ∧ Unfaulted s ∧ ∃ s1 s2, exec (.idct 16) s = .next s1 ∧ s1.status.fault = false ∧
      exec (.idct 23) s1 = .next s2 ∧ s2.status.fault = false := ⟨by decide, by decide, _, _, rfl, by decide, rfl, by decide⟩

/-- Rows 4, 8, 12 beside others, column 0 beside the phantom columns, the frame's right edge and not. -/
theorem witness_LumaEdges : (∀ r ∈ [4, 8, 12], ∀ c, 17 ≤ c → c < 21 → ¬(1 ≤ r ∧ r < 21 ∧ (17 ≤ c → r ≠ 4 ∧ r ≠ 8 ∧ r ≠ 12))) ∧
    (1 = frame17.mbw - 1 ∧ 0 ≠ frame17.mbw - 1) ∧
    ∀ p ∈ [(17, 0), (20, 20), (5, 17), (4, 16), (1, 1)],
      1 ≤ p.1 ∧ p.1 < 21 ∧ p.2 < 21 ∧ (p.2 = 0 → 17 ≤ p.1) ∧ (17 ≤ p.2 → p.1 ≠ 4 ∧ p.1 ≠ 8 ∧ p.1 ≠ 12) := by
  refine ⟨fun r hr c h1 h2 h3 => ?_, by decide, by decide⟩
  simp at hr
  omega

theorem witness_LumaPredictionPlusResidue : 15 < 16 ∧ ∀ m ∈ [LumaMode.dc, .v, .h, .tm], (opened 17 17 1 1 m .dc false).curmb.lmode ≠ .b := by
  decide

/-- A cell of row 0, of column 0 and of a phantom row. -/
theorem witness_LumaPredictionPlusResidue_edges : ∀ p ∈ [(0, 20), (20, 0), (4, 17), (12, 20)],
    p.1 < 21 ∧ p.2 < 21 ∧ (p.1 = 0 ∨ p.2 = 0 ∨ (p.1 ∈ [4, 8, 12] ∧ 17 ≤ p.2)) := by decide

theorem witness_SubblocksPredictFromReconstruction : 15 < 16 ∧ 3 < 4 ∧ (opened 17 17 1 1 .b .dc false).curmb.lmode = .b := by decide

/-- Two edge sets that differ in the above-right pixels alone, and for VE in all but the first of them. -/
theorem witness_AboveRightReaders :
    let e' := { edges2 with above := [200, 10, 250, 0, 91, 31, 254, 2] }
    let e'' := { edges2 with above := [200, 10, 250, 0, 90, 31, 254, 2] }
    edges2.p = e'.p ∧ edges2.p = e''.p ∧ (∀ k < 4, edges2.l k = e'.l k ∧ edges2.l k = e''.l k ∧ edges2.a k = e'.a k) ∧
    (∀ k < 5, edges2.a k = e''.a k) ∧ (SubMode.hu ≠ .ld ∧ SubMode.hu ≠ .vl ∧ SubMode.hu ≠ .ve) := by decide

/-- A skipped macroblock, and one with its transforms done, at the last place of the frame. -/
theorem witness_PredLumaCompletes : ∀ skip ∈ [true, false],
    let s := transformed (opened 17 17 1 1 .b .dc skip)
    Unfaulted s ∧ InMb s ∧ s.mbflags.lumaDone = false ∧ (s.curmb.skip = false → ∀ k < 16, s.idctDoneAt k = true) ∧ CurMbInFrame s := by decide

theorem witness_PredChromaCompletes : ∀ skip ∈ [true, false],
    let s := transformed (opened 17 17 1 1 .dc .tm skip)
    Unfaulted s ∧ InMb s ∧ s.mbflags.chromaDone = false ∧ (s.curmb.skip = false → ∀ k < 8, s.idctDoneAt (16 + k) = true) ∧ CurMbInFrame s := by
  decide

theorem witness_PredLumaWritesBack : let s := opened 17 17 1 1 .dc .dc true
    Unfaulted s ∧ InMb s ∧ CurMbInFrame s ∧ s.MemoryCanonical ∧ ∃ t, exec .predLuma s = .next t ∧ t.status.fault = false :=
  ⟨by decide, by decide, by decide, ⟨by decide, by decide⟩, _, exec_run (by decide) (by decide) (by decide) (by decide), rfl⟩

theorem witness_PredChromaWritesBack : let s := opened 17 17 1 1 .dc .dc true
    Unfaulted s ∧ InMb s ∧ CurMbInFrame s ∧ s.MemoryCanonical ∧ ∃ t, exec .predChroma s = .next t ∧ t.status.fault = false :=
  ⟨by decide, by decide, by decide, ⟨by decide, by decide⟩, _, exec_run (by decide) (by decide) (by decide) (by decide), rfl⟩

/-- The four places a macroblock can stand, for the scratch of a chroma plane. -/
theorem witness_PredChromaWritesBack_scratch : ∀ m ∈ [ChromaMode.dc, .v, .h, .tm],
    (opened 17 17 1 1 .dc m true).curmb.mby.toNat ≠ 0 ∧ (opened 17 17 1 1 .dc m true).curmb.mbx.toNat ≠ 0 ∧
    (opened 17 17 0 0 .dc m true).curmb.mby.toNat = 0 ∧ (opened 17 17 0 0 .dc m true).curmb.mbx.toNat = 0 := by decide

theorem witness_PredictionFaultPriority :
    (Unfaulted State.reset ∧ State.reset.status.frameValid = false) ∧
    (Unfaulted frame17 ∧ frame17.status.frameValid = true ∧ frame17.status.mbOpen = false) ∧
    (let s := predicted (opened 17 17 0 0 .dc .dc true)
     Unfaulted s ∧ InMb s ∧ s.mbflags.lumaDone = true ∧ s.mbflags.chromaDone = true) ∧
    (let s := opened 17 17 0 0 .dc .dc false
     Unfaulted s ∧ InMb s ∧ s.curmb.skip = false ∧ s.idctDoneAt 15 = false ∧ s.idctDoneAt 16 = false ∧ s.idctDoneAt 23 = false) := by decide

theorem witness_PredictionReadsNoPlane : let s := opened 17 17 1 1 .dc .dc true
    (∃ t, exec .predLuma s = .next t) ∧ ∃ t, exec .predChroma s = .next t :=
  ⟨⟨_, exec_run (by decide) (by decide) (by decide) (by decide)⟩, ⟨_, exec_run (by decide) (by decide) (by decide) (by decide)⟩⟩

/-- Planes with other contents, both canonical, and a pixel that each command writes. -/
theorem witness_PredictionReadsNoPlane_pixels : let s := opened 17 17 1 1 .dc .dc true
    let s' := { s with mem := { s.mem with y := [(288, 7)], u := [(80, 1)], v := [] } }
    Unfaulted s ∧ s.MemoryCanonical ∧ s'.MemoryCanonical ∧
    16 * s.curmb.mbx.toNat + 0 < s.planeWidth .y ∧ 16 * s.curmb.mby.toNat + 0 < s.planeHeight .y ∧
    8 * s.curmb.mbx.toNat + 0 < s.planeWidth .v ∧ 8 * s.curmb.mby.toNat + 0 < s.planeHeight .v ∧
    (∃ t, exec .predLuma s = .next t ∧ t.status.fault = false) ∧ ∃ t, exec .predChroma s = .next t ∧ t.status.fault = false :=
  ⟨by decide, ⟨by decide, by decide⟩, ⟨by decide, by decide⟩, by decide, by decide, by decide, by decide,
    ⟨_, exec_run (by decide) (by decide) (by decide) (by decide), rfl⟩, ⟨_, exec_run (by decide) (by decide) (by decide) (by decide), rfl⟩⟩

theorem witness_PredictionOrderIsFree : let s := opened 17 17 1 1 .dc .dc true
    Unfaulted s ∧ ∃ s1 s2, exec .predLuma s = .next s1 ∧ s1.status.fault = false ∧ exec .predChroma s1 = .next s2 ∧ s2.status.fault = false :=
  ⟨by decide, _, _, exec_run (by decide) (by decide) (by decide) (by decide), rfl, exec_run (by decide) rfl (by decide) (by decide), rfl⟩

theorem witness_TopLeftDcIsGrey : let s := opened 17 17 0 0 .dc .dc true
    Unfaulted s ∧ InMb s ∧ CurMbInFrame s ∧ s.MemoryCanonical ∧ s.curmb.mbx = 0 ∧ s.curmb.mby = 0 ∧ s.curmb.lmode = .dc ∧
    s.curmb.cmode = .dc ∧ (∀ b k, s.coefAt b k = 0) ∧
    ∃ s1 s2, exec .predLuma s = .next s1 ∧ s1.status.fault = false ∧ exec .predChroma s1 = .next s2 ∧ s2.status.fault = false :=
  ⟨by decide, by decide, by decide, ⟨by decide, by decide⟩, by decide, by decide, by decide, by decide, coefAt_of_zero rfl,
    _, _, exec_run (by decide) (by decide) (by decide) (by decide), rfl, exec_run (by decide) rfl (by decide) (by decide), rfl⟩

/-- The last horizontal segment of macroblock (1, 1) that lies inside a frame of 32 by 32 pixels, and a stored cell of it. -/
theorem witness_SegmentsStayInPlane : let s := decoded 32 32
    let g : Segment := ⟨.y, 31, 28, .horz, .sb⟩
    g ∈ mbSegments s.filter.simple true 1 1 ∧ inBounds s s.filter.simple g = true ∧ 3 < reach s.filter.simple ∧
    (g.qIndex s 1, (0 : Byte)) ∈ g.stores s s.filter.simple ⟨0, 0, 0, 0, 0, 0, 0, 0⟩ := by decide

theorem witness_LfMbCompletes_first : let s := { decoded 17 17 with lfcur := 0 }
    Unfaulted s ∧ FilterReady s ∧ (0 : BitVec 10).toNat < s.mbw ∧ (0 : BitVec 10).toNat * s.mbw + (0 : BitVec 10).toNat = s.lfcur.toNat ∧
    (levels s.params s (s.mbInfoAt s.lfcur.toNat)).lvl = 0 := by decide

theorem witness_LfMbCompletes_last : let s := { decoded 17 17 with lfcur := 3 }
    Unfaulted s ∧ FilterReady s ∧ (1 : BitVec 10).toNat < s.mbw ∧ (1 : BitVec 10).toNat * s.mbw + (1 : BitVec 10).toNat = s.lfcur.toNat ∧
    (levels s.params s (s.mbInfoAt s.lfcur.toNat)).lvl = 0 := by decide

/-- The simple filter at a level that filters. -/
theorem witness_LfMbCompletes_simple : let s := { decoded 17 17 with filter := ⟨true, 20, 0⟩ }
    FilterReady s ∧ (levels s.params s (s.mbInfoAt s.lfcur.toNat)).lvl = 20 ∧ s.filter.simple = true := by decide

/-- A macroblock that filters under `HEV_RULE = RFC`, at a level where the rules differ. -/
theorem witness_LfMbCompletes_rule : let s := { decoded 17 17 with filter := ⟨false, 14, 0⟩, params := otherParams }
    Unfaulted s ∧ FilterReady s ∧ (levels s.params s (s.mbInfoAt s.lfcur.toNat)).lvl = 14 ∧
    (levels s.params s (s.mbInfoAt s.lfcur.toNat)).hevT = 0 := by decide

/-- A pixel that no segment of a macroblock stores to. -/
theorem witness_LfMbCompletes_pixel : let s := { edgeRow with filter := ⟨true, 20, 0⟩ }
    ∀ g ∈ s.segmentsOf s.lfcur.toNat, g.plane = .y → ∀ cell ∈ g.stores s s.filter.simple (g.line s), cell.1 ≠ 0 := by decide +kernel

/-- A canonical memory whose filter runs, its last pixel, and the calls of a macroblock in their number: 128 luma and 64 chroma lines of
the four classes at (1, 1), none where there is no edge. -/
theorem witness_LfMbCompletes_picture : edgeRow.MemoryCanonical ∧ 31 < edgeRow.planeWidth .y ∧ 0 < edgeRow.planeHeight .y ∧
    (segCalls false true 1 1).length = 192 ∧ segCalls true false 0 0 = [] := by
  refine ⟨⟨?_, by decide⟩, by decide, by decide, rfl, by decide⟩
  decide +kernel

/-- A pixel right of, below, left of and above the macroblock filtered. -/
theorem witness_FilterReach : let s := { decoded 48 48 with lfcur := 4 }
    Unfaulted s ∧ FilterReady s ∧ (1 : BitVec 10).toNat < s.mbw ∧ (1 : BitVec 10).toNat * s.mbw + (1 : BitVec 10).toNat = s.lfcur.toNat ∧
    32 < s.planeWidth .y ∧ 32 < s.planeHeight .y ∧ 16 < s.planeWidth .u ∧ 12 + 3 < 16 * (1 : BitVec 10).toNat := by decide

theorem witness_FilterReach_next : ∃ t, exec (.lfMb 1 1) { decoded 48 48 with lfcur := 4 } = .next t :=
  ⟨_, exec_run (by decide) (by decide) (by decide) (by decide)⟩

theorem witness_LfFrameCompletes : Unfaulted (decoded 17 17) ∧ FilterReady (decoded 17 17) ∧ FilterReady { decoded 17 17 with lfcur := 3 } := by
  decide

theorem witness_LfFrameIsLfMbs : Unfaulted (decoded 1 1) ∧ FilterReady (decoded 1 1) := by decide

theorem witness_LoopFilterFaultPriority :
    (Unfaulted State.reset ∧ State.reset.status.frameValid = false) ∧
    (let s := opened 17 17 0 0 .dc .dc true
     Unfaulted s ∧ s.status.frameValid = true ∧ s.status.mbOpen = true) ∧
    (Unfaulted frame17 ∧ frame17.status.frameValid = true ∧ frame17.status.mbOpen = false ∧ frame17.mbcur.toNat < frame17.totalMb) ∧
    (let s := { decoded 17 17 with lfcur := 4 }
     Unfaulted s ∧ s.status.frameValid = true ∧ s.status.mbOpen = false ∧ s.totalMb ≤ s.mbcur.toNat ∧ s.lfcur.toNat = s.totalMb) ∧
    (let s := decoded 17 17
     FilterReady s ∧ s.mbw ≤ (2 : BitVec 10).toNat ∧ (0 : BitVec 10).toNat * s.mbw + (1 : BitVec 10).toNat ≠ s.lfcur.toNat) := by decide

/-- A line past each test: the edge test, the interior test, with and without high edge variance, as spec/95_test_vectors.md 2.7 has them. -/
theorem witness_KernelsTouchOnlyTheEdge : simpleTest 19 ⟨100, 100, 100, 100, 110, 110, 110, 110⟩ = false ∧
    normalTest 20 64 ⟨100, 70, 100, 100, 110, 110, 110, 110⟩ = false ∧
    normalTest 20 64 ⟨100, 100, 100, 96, 110, 112, 110, 110⟩ = true ∧ hev 1 ⟨100, 100, 100, 96, 110, 112, 110, 110⟩ = true ∧
    normalTest 20 64 ⟨100, 100, 100, 100, 110, 110, 110, 110⟩ = true ∧ hev 1 ⟨100, 100, 100, 100, 110, 110, 110, 110⟩ = false := by decide

/-- Every assigned register number answers, at both ends of its clause; the clauses of `SEG` and `SEGQ` do not meet. -/
theorem witness_RegisterLayout : (∀ n ∈ [0x00, 0x01, 0x02, 0x03, 0x04, 0x05, 0x06, 0x30, 0x31, 0x32, 0x33, 0x34, 0x35, 0x36],
      (frame17.register n).isSome = true) ∧
    (0x08 + (0 : BitVec 2).toNat = 0x08 ∧ 0x08 + (3 : BitVec 2).toNat = 0x0B ∧ (frame17.register 0x0B).isSome = true) ∧
    (0x10 + 6 * (0 : BitVec 2).toNat + Factor.ydc.code = 0x10 ∧ 0x10 + 6 * (3 : BitVec 2).toNat + Factor.uvac.code = 0x27 ∧
      (frame17.register 0x27).isSome = true) := by decide

theorem witness_RegisterLayout_read : ∃ v, hostRead .reg 0x00 frame17 = .data v := ⟨_, rfl⟩

/-- The last byte of a plane, and the first index beyond it. -/
theorem witness_HostAccess : let s := { frame17 with inbox := [HostAction.write (.byte .v) 80 7] }
    s.status.frameValid = true ∧ Space.byte .v = .byte Plane.v.space ∧ 80 < s.byteLength Plane.v.space ∧ s.spaceLength (.byte .v) ≤ 81 ∧
    State.reset.status.frameValid = false ∧ ∀ p : Fin 3, Space.byte .topY ≠ .byte ([Plane.y, .u, .v][p].space) := by decide

theorem witness_ResetReadsZero : (∃ r, exec .reset faulted = .next r) ∧
    ∃ r, step { faulted with inbox := [HostAction.reset] } = .next r := ⟨⟨_, rfl⟩, ⟨_, rfl⟩⟩

/-- A command that records a fault. -/
theorem witness_RegisterWriters_fault : Instr.iwht ≠ .reset ∧
    (after (exec .iwht State.reset)).status.fault ≠ State.reset.status.fault ∧
    (after (exec .iwht State.reset)).fcmdHi ≠ State.reset.fcmdHi := by decide

/-- Commands that change the register they write. -/
theorem witness_RegisterWriters :
    (after (exec (.cfgFrame 16 16) State.reset)).frame ≠ State.reset.frame ∧
    (after (exec (.cfgFilter true 1 0) State.reset)).filter ≠ State.reset.filter ∧
    (after (exec (.cfgSegctl true 0) State.reset)).segctl ≠ State.reset.segctl ∧
    (after (exec (.cfgSeg 3 true 0 0) State.reset)).seg ≠ State.reset.seg ∧
    (after (exec (.qderive 3 0 0 0 0 0 0) State.reset)).segq ≠ State.reset.segq ∧
    (let s := predicted (opened 17 17 0 0 .b .tm true)
     let t := after (exec .mbEnd s)
     t.mbcur ≠ s.mbcur ∧ t.mbinfo ≠ s.mbinfo ∧ t.status.mbOpen ≠ s.status.mbOpen) ∧
    (after (exec (.lfMb 0 0) (decoded 17 17))).lfcur ≠ (decoded 17 17).lfcur ∧
    (opened 17 17 0 0 .b .tm true).curmb ≠ frame17.curmb ∧
    (let s := opened 17 17 0 0 .dc .tm false
     let s' := withFactors (opened 17 17 0 0 .b .tm false)
     (after (exec .iwht s)).mbflags ≠ s.mbflags ∧ (after (exec (.idct 23) s)).idctDone ≠ s.idctDone ∧
     (after (exec (.bpred true .tm .tm .tm .tm .tm .tm .tm .tm) s')).bpred ≠ s'.bpred ∧
     (after (exec (.coef 0 0 1) s')).coef ≠ s'.coef) := by decide

/-- A step and a command on a machine with other parameters. -/
theorem witness_RegisterWriters_params :
    (∃ t, step (pending (State.resetWith otherParams) 0xFF00000000000000) = .next t) ∧
    ∃ t, exec .reset (State.resetWith otherParams) = .next t := ⟨⟨_, rfl⟩, _, rfl⟩

theorem witness_MemoryWriters : let s := opened 1 1 0 0 .dc .dc true
    Instr.predLuma ≠ .reset ∧ Instr.predLuma.opcode ≠ .cfgFrame ∧ (after (exec .predLuma s)).mem.cells .y ≠ s.mem.cells .y := by decide +kernel

/-- A state the step invariants are about, with a command still to take. -/
theorem witness_StepKeepsMemoryCanonical : (pending State.reset 0x0100001100000011).MemoryCanonical ∧
    ∃ t, step (pending State.reset 0x0100001100000011) = .next t := ⟨⟨by decide, by decide⟩, _, rfl⟩

theorem witness_StepKeepsInvariant : let s := { opened 17 17 1 1 .dc .dc false with inbox := [HostAction.command 0x1300000000000000] }
    s.Inv ∧ ∃ t, step s = .next t := by
  refine ⟨⟨⟨by decide, by decide⟩, ⟨fun sp => ?_, by decide⟩, ⟨by decide, by decide⟩, ⟨by decide, by decide⟩,
    ⟨by decide, by decide, by decide, by decide⟩, ⟨by decide, by decide⟩, fun _ => ⟨fun _ => rfl, fun _ => ⟨rfl, rfl⟩⟩,
    fun _ h => absurd h (by decide), fun _ _ _ => by decide⟩, _, rfl⟩
  cases sp <;> decide

theorem witness_NoStepStops : ({ opened 17 17 1 1 .dc .dc false with inbox := [HostAction.command 0x1300000000000000] } : State).Inv :=
  witness_StepKeepsInvariant.1

/-- One state outside the invariant for each stop. -/
theorem witness_OutOfSpaceStops :
    exec .mbEnd { predicted (opened 16 16 0 0 .dc .dc true) with mbcur := 1 } = .fault (.outOfSpace .mbinfo 1) ∧
    exec (.lfMb 0 2) { decoded 16 16 with lfcur := 2 } = .fault (.outOfSpace .mbinfo 2) ∧
    exec .predLuma { opened 16 16 0 0 .dc .dc true with curmb := ⟨2, 0, .dc, .dc, 0, true⟩ } = .fault (.outOfSpace (.byte .topY) 47) ∧
    exec .predChroma { opened 16 16 0 0 .dc .dc true with curmb := ⟨1, 0, .dc, .dc, 0, true⟩ } = .fault (.outOfSpace (.byte .topU) 15) :=
  ⟨rfl, rfl, rfl, rfl⟩

end Sys2Proof.Tests
end

/-! # Proofs for spec/00_scope.md: the averages (R14) and who writes each register (R22, R42) -/

namespace Sys2Proof.Machine

/-! ### The averages of R14 -/

theorem avg2_toNat (a b : Byte) : (avg2 a b).toNat = (a.toNat + b.toNat + 1) / 2 := by
  have fits : (a.toNat + b.toNat + 1) / 2 < 2 ^ 8 := by omega
  rw [avg2, BitVec.toNat_ofNat, Nat.mod_eq_of_lt fits]

theorem avg3_toNat (a b c : Byte) : (avg3 a b c).toNat = (a.toNat + 2 * b.toNat + c.toNat + 2) / 4 := by
  have fits : (a.toNat + 2 * b.toNat + c.toNat + 2) / 4 < 2 ^ 8 := by omega
  rw [avg3, BitVec.toNat_ofNat, Nat.mod_eq_of_lt fits]

/-- Settles O30: neither average of bytes reaches 256, so narrowing to a byte loses nothing. -/
theorem averagesRound : Obligations.AveragesRound := ⟨avg2_toNat, avg3_toNat⟩

/-! ### What one command may write -/

section Writers

variable {i : Instr} {s t : State}

/-- The "written by" column of R22 for a command of opcode `op` that takes `s` to `t`; the host's queues and the parameters are
written by none. The fault registers are apart (`SameFaultRecord`). -/
structure WrittenAsNamed (op : Opcode) (s t : State) : Prop where
  frame : t.frame ≠ s.frame → op = .cfgFrame
  filter : t.filter ≠ s.filter → op = .cfgFilter
  segctl : t.segctl ≠ s.segctl → op = .cfgSegctl
  seg : t.seg ≠ s.seg → op = .cfgSeg
  segq : t.segq ≠ s.segq → op = .cfgSegq ∨ op = .qderive
  mbcur : t.mbcur ≠ s.mbcur → op = .cfgFrame ∨ op = .mbEnd
  lfcur : t.lfcur ≠ s.lfcur → op = .cfgFrame ∨ op = .lfMb ∨ op = .lfFrame
  curmb : t.curmb ≠ s.curmb → op = .mbBegin ∨ op = .cfgFrame
  mbflags : t.mbflags ≠ s.mbflags → op = .mbBegin ∨ op = .iwht ∨ op = .predLuma ∨ op = .predChroma ∨ op = .cfgFrame
  idctDone : t.idctDone ≠ s.idctDone → op = .mbBegin ∨ op = .idct ∨ op = .cfgFrame
  bpred : t.bpred ≠ s.bpred → op = .mbBegin ∨ op = .bpred ∨ op = .cfgFrame
  coef : t.coef ≠ s.coef → op = .mbBegin ∨ op = .coef ∨ op = .iwht ∨ op = .idct ∨ op = .cfgFrame
  mbinfo : t.mbinfo ≠ s.mbinfo → op = .mbEnd ∨ op = .cfgFrame
  frameValid : t.status.frameValid ≠ s.status.frameValid → op = .cfgFrame
  mbOpen : t.status.mbOpen ≠ s.status.mbOpen → op = .mbBegin ∨ op = .mbEnd ∨ op = .cfgFrame
  inbox : t.inbox = s.inbox
  outbox : t.outbox = s.outbox
  params : t.params = s.params

/-- `FAULT`, `FCODE` and `FCMD` of `t` are those of `s`. -/
structure SameFaultRecord (s t : State) : Prop where
  fault : t.status.fault = s.status.fault
  fcode : t.status.fcode = s.status.fcode
  fcmdLo : t.fcmdLo = s.fcmdLo
  fcmdHi : t.fcmdHi = s.fcmdHi

theorem writtenAsNamed_refl (op : Opcode) (s : State) : WrittenAsNamed op s s := by
  constructor <;> simp

theorem writtenAsNamed_raise (op : Opcode) (s : State) (c : FaultCode) (w : CmdWord) : WrittenAsNamed op s (s.raise c w) := by
  constructor <;> simp

/-- A command that may stop instead (R69) leaves its effect `u` where it answers a next state. -/
theorem next_of_guarded {p : Prop} [Decidable p] {u : State} {f : Fault}
    (h : (if p then (.next u : Result) else .fault f) = .next t) : t = u := by
  split at h <;> cases h
  rfl

/-- The effect of a command that has run stays within the registers its row of R22 names, the fault registers not among them. -/
theorem runOf_effect (hi : i ≠ .reset) (h : runOf i s = .next t) : WrittenAsNamed i.opcode s t ∧ SameFaultRecord s t := by
  cases i with
  | reset => exact absurd rfl hi
  | predLuma | predChroma | mbEnd =>
    rw [next_of_guarded h]
    constructor <;> constructor <;> simp [Instr.opcode]
  | lfMb mbx mby =>
    rw [next_of_guarded h, filterNext_eq]
    constructor <;> constructor <;> simp [Instr.opcode]
  | lfFrame =>
    cases h
    rw [filterMany_eq]
    constructor <;> constructor <;> simp [Instr.opcode]
  | _ =>
    cases h
    constructor <;> constructor <;> simp [Instr.opcode]

/-- Every command but RESET, run, refused or discarded, writes as R22 names. -/
theorem exec_writtenAsNamed (hi : i ≠ .reset) (h : exec i s = .next t) : WrittenAsNamed i.opcode s t := by
  rcases exec_cases h with ⟨hr, -⟩ | ⟨-, -, hr⟩ | ⟨-, -, c, -, hr⟩ | ⟨-, -, -, -, hr⟩
  · exact absurd hr hi
  · cases hr; exact writtenAsNamed_refl _ s
  · cases hr; exact writtenAsNamed_raise _ s c _
  · exact (runOf_effect hi hr.symm).1

/-! ### Who writes the fault registers -/

/-- The word the model records half by half is the faulting word itself (R24, R282). -/
theorem raise_eq_faultEntry (c : FaultCode) (w : CmdWord) (h : Unfaulted s) : s.raise c w = faultEntry s c w := by
  have lo : BitVec.ofNat 32 (field w 31 0) = w.extractLsb' 0 32 := by
    apply BitVec.eq_of_toNat_eq
    simp [field]
  have hi : BitVec.ofNat 32 (field w 63 32) = w.extractLsb' 32 32 := by
    apply BitVec.eq_of_toNat_eq
    simp [field, Nat.shiftRight_eq_div_pow]
  rw [raise_of_unfaulted s c w h, lo, hi, faultEntry]

/-- A command but RESET leaves the fault registers as they are, or its fault entry is all that it does (R282, R283). -/
theorem exec_faultRecord (hi : i ≠ .reset) (h : exec i s = .next t) :
    SameFaultRecord s t ∨ Unfaulted s ∧ ∃ code, code ≠ FaultCode.none ∧ t = faultEntry s code (encode i) := by
  rcases exec_cases h with ⟨hr, -⟩ | ⟨-, -, hr⟩ | ⟨-, hf, c, hc, hr⟩ | ⟨-, -, -, -, hr⟩
  · exact absurd hr hi
  · cases hr; exact .inl ⟨rfl, rfl, rfl, rfl⟩
  · cases hr; exact .inr ⟨hf, c, hc, raise_eq_faultEntry c _ hf⟩
  · exact .inl (runOf_effect hi hr.symm).2

/-! ### The parameters -/

/-- RESET too keeps the parameters (R10). -/
theorem exec_params (h : exec i s = .next t) : t.params = s.params := by
  by_cases hi : i = .reset
  · subst hi; cases h; rfl
  · exact (exec_writtenAsNamed hi h).params

theorem takeWord_params {w : CmdWord} (h : takeWord w s = .next t) : t.params = s.params := by
  cases hd : decode w with
  | ok i => exact exec_params (takeWord_ok hd ▸ h)
  | error e =>
    rw [takeWord_error hd] at h
    cases h
    exact raise_params s _ w

theorem hostWrite_params (sp : Space) (i : Nat) (v : HostWord) (s : State) : (hostWrite sp i v s).2.params = s.params := by
  unfold hostWrite
  split
  · split <;> rfl
  · rfl

theorem serve_params {a : HostAction} (h : serve a s = .next t) : t.params = s.params := by
  cases a with
  | command w => exact takeWord_params h
  | read sp i => cases h; rfl
  | write sp i v => cases h; exact hostWrite_params sp i v s
  | reset => cases h; rfl

/-- No step changes the parameters (R10, entry 10). -/
theorem step_params (h : step s = .next t) : t.params = s.params := by
  cases hq : s.inbox with
  | nil => rw [step_idle hq] at h; cases h; rfl
  | cons a rest => rw [step_cons hq] at h; exact (serve_params h).trans rfl

end Writers

/-- Settles O54: every command writes as its row of R22 names (`exec_writtenAsNamed`), the fault registers only by fault entry
(`exec_faultRecord`), the parameters not at all (`step_params`). -/
theorem registerWriters : Obligations.RegisterWriters := by
  refine ⟨fun s t => step_params, fun i s t => exec_params, fun i s t h hi => ?_⟩
  obtain ⟨frame, filter, segctl, seg, segq, mbcur, lfcur, curmb, mbflags, idctDone, bpred, coef, mbinfo, frameValid, mbOpen,
    inbox, outbox, -⟩ := exec_writtenAsNamed hi h
  refine ⟨fun changed => ?_, frame, filter, segctl, seg, segq, mbcur, lfcur, curmb, mbflags, idctDone, bpred, coef, mbinfo,
    frameValid, mbOpen, inbox, outbox⟩
  rcases exec_faultRecord hi h with ⟨hfault, hfcode, hlo, hhi⟩ | entered
  · simp [hfault, hfcode, hlo, hhi] at changed
  · exact entered

end Sys2Proof.Machine

/-! # Proofs for spec/10_state.md: what every step keeps, what a register reads as (R22), what reset and CFG_FRAME leave (R102, R103) -/

namespace Sys2Proof.Machine

/-! ### Checks that have passed -/

section Checks

variable {s : State}

theorem mbBeginChecks_clear {mbx mby : BitVec 10} : (∀ p ∈ mbBeginChecks mbx mby s, p.1 = false) ↔
    s.status.frameValid = true ∧ s.status.mbOpen = false ∧ s.mbcur.toNat ≠ s.totalMb ∧
      mbx.toNat < s.mbw ∧ mby.toNat * s.mbw + mbx.toNat = s.mbcur.toNat := by
  simp [mbBeginChecks, State.noFrame, State.outOfOrder]

theorem mbEndChecks_clear : (∀ p ∈ mbEndChecks s, p.1 = false) ↔
    InMb s ∧ s.mbflags.lumaDone = true ∧ s.mbflags.chromaDone = true := by
  simp [mbEndChecks, State.noFrame, State.noMb, and_assoc]

theorem predLumaChecks_clear : (∀ p ∈ predLumaChecks s, p.1 = false) ↔
    InMb s ∧ s.mbflags.lumaDone = false ∧ (s.curmb.skip = false → s.idctAllDone 0 16 = true) := by
  simp [predLumaChecks, State.noFrame, State.noMb, and_assoc]

theorem predChromaChecks_clear : (∀ p ∈ predChromaChecks s, p.1 = false) ↔
    InMb s ∧ s.mbflags.chromaDone = false ∧ (s.curmb.skip = false → s.idctAllDone 16 8 = true) := by
  simp [predChromaChecks, State.noFrame, State.noMb, and_assoc]

theorem coefChecks_clear {blk zz : Nat} : (∀ p ∈ coefChecks blk zz s, p.1 = false) ↔
    InMb s ∧ s.curmb.skip = false ∧ (blk = 24 → s.isB = false) ∧ (blk < 16 → s.isB = false → zz ≠ 0) ∧
      (blk = 24 → s.mbflags.whtDone = false) ∧ (blk < 24 → s.idctDoneAt blk = false) := by
  simp [coefChecks, State.noFrame, State.noMb, and_assoc]

theorem iwhtChecks_clear : (∀ p ∈ iwhtChecks s, p.1 = false) ↔
    InMb s ∧ s.curmb.skip = false ∧ s.isB = false ∧ s.mbflags.whtDone = false ∧ s.idctAnyDone 0 16 = false := by
  simp [iwhtChecks, State.noFrame, State.noMb, and_assoc]

theorem idctChecks_clear {blk : Nat} : (∀ p ∈ idctChecks blk s, p.1 = false) ↔
    InMb s ∧ s.curmb.skip = false ∧ s.idctDoneAt blk = false ∧ (blk < 16 → s.isB = false → s.mbflags.whtDone = true) := by
  simp [idctChecks, State.noFrame, State.noMb, and_assoc]

theorem lfFrameChecks_clear : (∀ p ∈ lfFrameChecks s, p.1 = false) ↔
    s.status.frameValid = true ∧ s.status.mbOpen = false ∧ s.totalMb ≤ s.mbcur.toNat ∧ s.lfcur.toNat ≠ s.totalMb := by
  simp [lfFrameChecks, State.noFrame]

theorem lfMbChecks_clear {mbx mby : BitVec 10} : (∀ p ∈ lfMbChecks mbx mby s, p.1 = false) ↔
    (s.status.frameValid = true ∧ s.status.mbOpen = false ∧ s.totalMb ≤ s.mbcur.toNat ∧ s.lfcur.toNat ≠ s.totalMb) ∧
      mbx.toNat < s.mbw ∧ mby.toNat * s.mbw + mbx.toNat = s.lfcur.toNat := by
  rw [lfMbChecks, List.forall_mem_append, lfFrameChecks_clear]
  simp [State.outOfOrder]

end Checks

/-! ### Properties that every step keeps -/

/-- `P` holds after every reset and survives each thing a step can do: the host's queues move, a fault is recorded, a host write
reaches a plane, a command that passed its checks has its effect. -/
structure Inductive (P : State → Prop) : Prop where
  reset : ∀ cfg, P (State.resetWith cfg)
  queues : ∀ s inbox outbox, P s → P { s with inbox := inbox, outbox := outbox }
  fault : ∀ s c w, c ≠ .none → P s → P (s.raise c w)
  hostWrite : ∀ s (p : Plane) i v, i < s.spaceLength (.byte p.space) → P s → P (s.withMem (s.mem.write p.space i v))
  run : ∀ i s t, i ≠ .reset → i.wellFormed = true → (∀ p ∈ checksOf i s, p.1 = false) → P s → runOf i s = .next t → P t

section Steps

variable {P : State → Prop} {s t : State}

theorem Inductive.resetRegs (hP : Inductive P) (s : State) : P s.resetRegs := hP.queues _ _ _ (hP.reset s.params)

theorem Inductive.exec {i : Instr} (hP : Inductive P) (hs : P s) (h : exec i s = .next t) : P t := by
  rcases exec_cases h with ⟨-, hr⟩ | ⟨-, -, hr⟩ | ⟨-, -, c, hc, hr⟩ | ⟨hi, -, hw, hc, hr⟩
  · cases hr; exact hP.resetRegs s
  · cases hr; exact hs
  · cases hr; exact hP.fault s c _ hc hs
  · exact hP.run i s t hi hw hc hs hr.symm

theorem decodeFault_ne_none (e : DecodeError) : decodeFault e ≠ .none := by cases e <;> decide

theorem Inductive.takeWord {w : CmdWord} (hP : Inductive P) (hs : P s) (h : takeWord w s = .next t) : P t := by
  cases hd : decode w with
  | ok i => exact hP.exec hs (takeWord_ok hd ▸ h)
  | error e =>
    rw [takeWord_error hd] at h
    cases h
    exact hP.fault s _ w (decodeFault_ne_none e) hs

/-- The spaces a host may write are the planes (R63). -/
theorem writable_eq_some {sp : Space} {b : ByteSpace} (h : writable sp = some b) : ∃ p : Plane, b = p.space ∧ sp = .byte p.space := by
  unfold writable at h
  split at h <;> cases h
  exacts [⟨.y, rfl, rfl⟩, ⟨.u, rfl, rfl⟩, ⟨.v, rfl, rfl⟩]

/-- A host write stores one byte of a plane in range, or nothing (R63, R68). -/
theorem hostWrite_cases (sp : Space) (i : Nat) (v : HostWord) (s : State) :
    (hostWrite sp i v s).2 = s ∨ ∃ p : Plane, i < s.spaceLength (.byte p.space) ∧
      (hostWrite sp i v s).2 = s.withMem (s.mem.write p.space i (v.setWidth 8)) := by
  unfold Machine.hostWrite
  split
  next b hb =>
    obtain ⟨p, rfl, rfl⟩ := writable_eq_some hb
    split
    next hi => exact .inr ⟨p, hi, rfl⟩
    · exact .inl rfl
  · exact .inl rfl

theorem Inductive.serve {a : HostAction} (hP : Inductive P) (hs : P s) (h : serve a s = .next t) : P t := by
  cases a with
  | command w => exact hP.takeWord hs h
  | read sp i => cases h; exact hP.queues s _ _ hs
  | write sp i v =>
    cases h
    refine hP.queues _ _ _ ?_
    rcases hostWrite_cases sp i v s with he | ⟨p, hi, he⟩ <;> rw [he]
    · exact hs
    · exact hP.hostWrite s p i _ hi hs
  | reset => cases h; exact hP.resetRegs s

theorem Inductive.step (hP : Inductive P) (hs : P s) (h : step s = .next t) : P t := by
  cases hq : s.inbox with
  | nil => rw [step_idle hq] at h; cases h; exact hs
  | cons a rest =>
    rw [step_cons hq] at h
    exact hP.serve (hP.queues s rest s.outbox hs) h

/-- A command that may stop instead (R69) answers a next state only where its guard holds. -/
theorem guard_of_next {p : Prop} [Decidable p] {u : State} {f : Fault}
    (h : (if p then (.next u : Result) else .fault f) = .next t) : p := by
  split at h
  · assumption
  · cases h

end Steps

/-! ### Memory stays canonical -/

theorem canonical_nil {α : Type} {d : α} : Canonical d [] := by simp [Canonical]

theorem wf_endRow {m : Memory} (h : m.wf) : m.endRow.wf := wf_reseed (wf_reseed (wf_reseed h))

/-- A command's effect on memory is made of writes and reseeds, and on `MBINFO` of stores: each keeps the canonical form. -/
theorem runOf_memoryCanonical {i : Instr} {s t : State} (hi : i ≠ .reset) (hs : s.MemoryCanonical) (h : runOf i s = .next t) :
    t.MemoryCanonical := by
  obtain ⟨hmem, hinfo⟩ := hs
  cases i with
  | reset => exact absurd rfl hi
  | cfgFrame w h' => cases h; exact ⟨wf_empty, canonical_nil⟩
  | predLuma => rw [next_of_guarded h]; exact ⟨wf_writeBack hmem, hinfo⟩
  | predChroma => rw [next_of_guarded h]; exact ⟨wf_writeBack (wf_writeBack hmem), hinfo⟩
  | mbEnd =>
    rw [next_of_guarded h]
    refine ⟨?_, canonical_store hinfo⟩
    rw [closeMb_mem]
    split
    · exact wf_endRow hmem
    · exact hmem
  | lfMb mbx mby =>
    rw [next_of_guarded h, filterNext_eq]
    exact ⟨filterMb_wf hmem, hinfo⟩
  | lfFrame =>
    cases h
    rw [filterMany_eq]
    exact ⟨filterMany_wf hmem, hinfo⟩
  | _ => cases h; exact ⟨hmem, hinfo⟩

theorem memoryCanonical_inductive : Inductive State.MemoryCanonical where
  reset _ := ⟨wf_empty, canonical_nil⟩
  queues _ _ _ hs := hs
  fault s c w _ hs := by simpa [State.MemoryCanonical] using hs
  hostWrite _ _ _ _ _ hs := ⟨wf_write hs.1, hs.2⟩
  run _ _ _ hi _ _ hs h := runOf_memoryCanonical hi hs h

/-- Settles O57: canonical form is kept by each thing a step can do (`memoryCanonical_inductive`). -/
theorem stepKeepsMemoryCanonical : Obligations.StepKeepsMemoryCanonical := fun _ _ => memoryCanonical_inductive.step

/-! ### Cells stay inside their spaces -/

section Cells

variable {s : State} {sp : ByteSpace} {c : Host.Cell}

/-- A configured frame gives a byte space its length (R60). -/
theorem spaceLength_byte (h : s.status.frameValid = true) (sp : ByteSpace) : s.spaceLength (.byte sp) = s.byteLength sp := by
  simp [State.spaceLength, h]

theorem spaceLength_mbinfo (h : s.status.frameValid = true) : s.spaceLength .mbinfo = s.totalMb := by
  simp [State.spaceLength, h]

/-- The loop filter lists a cell in its plane, or one that was listed before (R69, R245). -/
theorem mem_cells_filterMany {cfg : Config} {n : Nat} (h : c ∈ (filterMany cfg n s).mem.cells sp) :
    c.1 < s.byteLength sp ∨ c ∈ s.mem.cells sp := by
  induction n generalizing s with
  | zero => exact .inr h
  | succ n ih =>
    rcases ih h with hlt | hold
    · exact .inl (by rwa [byteLength_congr filterNext_frame] at hlt)
    · rw [filterNext_eq] at hold
      rcases filterMb_mem_cells hold with ⟨g, -, rfl, hb, l, hc⟩ | hold
      · exact .inl (stores_lt hb hc)
      · exact .inr hold

/-- PRED_LUMA lists cells inside `LEFTY`, `TOPY` and `Y` (R201, R202). -/
theorem mem_cells_doPredLuma (hr : s.lumaTopReach < s.byteLength .topY) (h : c ∈ s.doPredLuma.mem.cells sp) :
    c.1 < s.byteLength sp ∨ c ∈ s.mem.cells sp := by
  rcases mem_cells_writeBack h with ⟨rfl, hc⟩ | ⟨rfl, hc⟩ | ⟨rfl, hc⟩ | hold
  · exact .inl (leftStores_lt hc)
  · obtain ⟨k, hk, rfl⟩ := mem_topStores hc
    refine .inl (Nat.lt_of_le_of_lt ?_ hr)
    unfold State.lumaTopReach
    split <;> (simp only; omega)
  · exact .inl (planeStores_lt hc)
  · exact .inr hold

/-- One plane's share of PRED_CHROMA lists cells inside its two borders and its plane (R206, R207). -/
theorem mem_cells_chromaPlane {p : Plane} {top left : ByteSpace} {base : Nat} {m : Memory}
    (hl : s.byteLength left = 9) (hr : s.chromaTopReach < s.byteLength top)
    (h : c ∈ (chromaPlane s p top left base m).cells sp) : c.1 < s.byteLength sp ∨ c ∈ m.cells sp := by
  rcases mem_cells_writeBack h with ⟨rfl, hc⟩ | ⟨rfl, hc⟩ | ⟨rfl, hc⟩ | hold
  · exact .inl (hl ▸ leftStores_lt hc)
  · obtain ⟨k, hk, rfl⟩ := mem_topStores hc
    refine .inl (Nat.lt_of_le_of_lt ?_ hr)
    simp only [State.chromaTopReach]
    omega
  · exact .inl (planeStores_lt hc)
  · exact .inr hold

theorem mem_cells_doPredChroma (hr : s.chromaTopReach < s.byteLength .topU) (h : c ∈ s.doPredChroma.mem.cells sp) :
    c.1 < s.byteLength sp ∨ c ∈ s.mem.cells sp := by
  rcases mem_cells_chromaPlane rfl (show s.chromaTopReach < s.byteLength .topV from hr) h with hlt | hold
  · exact .inl hlt
  · exact mem_cells_chromaPlane rfl hr hold

theorem mem_cells_reseed {m : Memory} {sp' : ByteSpace} (h : c ∈ (m.reseed sp').cells sp) : c ∈ m.cells sp := by
  by_cases he : sp = sp'
  · subst he; simp at h
  · rwa [cells_reseed_other he] at h

theorem mem_cells_closeMb (h : c ∈ s.closeMb.mem.cells sp) : c ∈ s.mem.cells sp := by
  rw [closeMb_mem] at h
  split at h
  · exact mem_cells_reseed (mem_cells_reseed (mem_cells_reseed h))
  · exact h

/-- New cells inside their spaces, in the frame as it stands, keep every cell inside. -/
theorem cellsInSpace_of_mem {t : State} (hs : s.CellsInSpace) (hv : s.status.frameValid = true) (hf : t.frame = s.frame)
    (hv' : t.status.frameValid = s.status.frameValid)
    (hm : ∀ sp, ∀ c ∈ t.mem.cells sp, c.1 < s.byteLength sp ∨ c ∈ s.mem.cells sp)
    (hi : ∀ e ∈ t.mbinfo, e.1 < s.totalMb ∨ e ∈ s.mbinfo) : t.CellsInSpace := by
  obtain ⟨hcells, hinfo⟩ := hs
  refine ⟨fun sp c hc => ?_, fun e he => ?_⟩
  · rw [spaceLength_congr hf hv']
    rcases hm sp c hc with hlt | hold
    · rwa [spaceLength_byte hv]
    · exact hcells sp c hold
  · rw [spaceLength_congr hf hv']
    rcases hi e he with hlt | hold
    · rwa [spaceLength_mbinfo hv]
    · exact hinfo e hold

theorem cellsInSpace_congr {t : State} (hs : s.CellsInSpace) (hf : t.frame = s.frame)
    (hv : t.status.frameValid = s.status.frameValid) (hm : t.mem = s.mem) (hi : t.mbinfo = s.mbinfo) : t.CellsInSpace := by
  simp only [State.CellsInSpace, spaceLength_congr hf hv, hm, hi]
  exact hs

end Cells

/-! ### The parts of the invariant under a command that passed its checks -/

section Run

variable {i : Instr} {s t : State}

theorem runOf_cellsInSpace (hi : i ≠ .reset) (hc : ∀ p ∈ checksOf i s, p.1 = false) (hs : s.CellsInSpace)
    (h : runOf i s = .next t) : t.CellsInSpace := by
  cases i with
  | reset => exact absurd rfl hi
  | cfgFrame w h' => cases h; exact ⟨by simp, by simp⟩
  | predLuma =>
    obtain ⟨⟨hv, -⟩, -⟩ := predLumaChecks_clear.mp hc
    have hr := guard_of_next h
    rw [next_of_guarded h]
    exact cellsInSpace_of_mem hs hv rfl rfl (fun _ _ => mem_cells_doPredLuma hr) fun _ => .inr
  | predChroma =>
    obtain ⟨⟨hv, -⟩, -⟩ := predChromaChecks_clear.mp hc
    have hr := guard_of_next h
    rw [next_of_guarded h]
    exact cellsInSpace_of_mem hs hv rfl rfl (fun _ _ => mem_cells_doPredChroma hr) fun _ => .inr
  | mbEnd =>
    obtain ⟨⟨hv, -⟩, -⟩ := mbEndChecks_clear.mp hc
    have hcur := guard_of_next h
    rw [next_of_guarded h]
    refine cellsInSpace_of_mem hs hv rfl rfl (fun _ _ hc => .inr (mem_cells_closeMb hc)) fun e he => ?_
    exact (mem_store he).imp_left fun he => by rwa [he]
  | lfMb mbx mby =>
    obtain ⟨⟨hv, -⟩, -⟩ := lfMbChecks_clear.mp hc
    rw [next_of_guarded h]
    have hn : filterNext s.params s = filterMany s.params 1 s := rfl
    rw [hn, filterMany_eq]
    exact cellsInSpace_of_mem hs hv rfl rfl (fun _ _ => mem_cells_filterMany) fun _ => .inr
  | lfFrame =>
    obtain ⟨hv, -⟩ := lfFrameChecks_clear.mp hc
    cases h
    rw [filterMany_eq]
    exact cellsInSpace_of_mem hs hv rfl rfl (fun _ _ => mem_cells_filterMany) fun _ => .inr
  | _ => cases h; exact cellsInSpace_congr hs rfl rfl rfl rfl

theorem runOf_faultRecord (hi : i ≠ .reset) (hs : s.FaultRecord) (h : runOf i s = .next t) : t.FaultRecord := by
  obtain ⟨-, hfault, hfcode, hlo, hhi⟩ := runOf_effect hi h
  simpa only [State.FaultRecord, hfault, hfcode, hlo, hhi] using hs

theorem runOf_frameShape (hi : i ≠ .reset) (hw : i.wellFormed = true) (hc : ∀ p ∈ checksOf i s, p.1 = false)
    (hs : s.FrameShape) (h : runOf i s = .next t) : t.FrameShape := by
  cases i with
  | reset => exact absurd rfl hi
  | cfgFrame w h' =>
    cases h
    simp only [Instr.wellFormed, dimensionOk, Bool.and_eq_true, decide_eq_true_eq] at hw
    exact ⟨fun _ => hw, fun hv => by simp at hv⟩
  | mbBegin mbx mby lmode cmode segid skip =>
    obtain ⟨hv, -⟩ := mbBeginChecks_clear.mp hc
    cases h
    exact ⟨hs.1, fun hv' => by simp [hv] at hv'⟩
  | predLuma | predChroma => rw [next_of_guarded h]; exact hs
  | mbEnd =>
    rw [next_of_guarded h]
    exact ⟨hs.1, fun hv => ⟨(hs.2 hv).1, rfl⟩⟩
  | lfMb mbx mby => rw [next_of_guarded h, filterNext_eq]; exact hs
  | lfFrame => cases h; rw [filterMany_eq]; exact hs
  | _ => cases h; exact hs

theorem cursors_congr (hs : s.Cursors) (hf : t.frame = s.frame) (ho : t.status.mbOpen = s.status.mbOpen)
    (hm : t.mbcur = s.mbcur) (hl : t.lfcur = s.lfcur) (hc : t.curmb = s.curmb) : t.Cursors := by
  simp only [State.Cursors, totalMb_congr hf, mbw_congr hf, ho, hm, hl, hc]
  exact hs

/-- Filtering `n` more macroblocks of a decoded frame keeps the cursors in it. -/
theorem cursors_filterMany {cfg : Config} {n : Nat} (hs : s.Cursors) (ho : s.status.mbOpen = false)
    (hd : s.totalMb ≤ s.mbcur.toNat) (hn : s.lfcur.toNat + n ≤ s.totalMb) : (filterMany cfg n s).Cursors := by
  have hcur := filterMany_lfcur (cfg := cfg) hn
  rw [filterMany_eq] at hcur ⊢
  refine ⟨hs.1, ?_, fun _ => Nat.le_antisymm hs.1 hd, fun ho' => ?_⟩
  · exact hcur.trans_le hn
  · exact absurd (ho.symm.trans ho') (by decide)

/-- The cursor's 21 bits hold the index after any macroblock of the frame. -/
theorem toNat_mbcur_succ (h : s.mbcur.toNat < s.totalMb) : (s.mbcur + 1).toNat = s.mbcur.toNat + 1 := by
  have := totalMb_le s
  rw [BitVec.toNat_add]
  show (s.mbcur.toNat + 1) % 2 ^ 21 = _
  omega

theorem runOf_cursors (hi : i ≠ .reset) (hc : ∀ p ∈ checksOf i s, p.1 = false) (hs : s.Cursors)
    (h : runOf i s = .next t) : t.Cursors := by
  have ⟨hmb, hlf, hfilter, _⟩ := hs
  cases i with
  | reset => exact absurd rfl hi
  | cfgFrame w h' => cases h; exact ⟨Nat.zero_le _, Nat.zero_le _, by simp, by simp⟩
  | mbBegin mbx mby lmode cmode segid skip =>
    obtain ⟨-, -, hne, hx, hxy⟩ := mbBeginChecks_clear.mp hc
    cases h
    exact ⟨hmb, hlf, hfilter, fun _ => ⟨Nat.lt_of_le_of_ne hmb hne, hx, hxy⟩⟩
  | predLuma | predChroma => rw [next_of_guarded h]; exact hs
  | mbEnd =>
    have hcur := guard_of_next h
    rw [next_of_guarded h]
    have hsucc := toNat_mbcur_succ hcur
    refine ⟨?_, hlf, fun hpos => ?_, by simp⟩
    · exact hsucc.trans_le hcur
    · exact absurd (hfilter hpos) (Nat.ne_of_lt hcur)
  | lfMb mbx mby =>
    obtain ⟨⟨-, ho, hd, -⟩, -⟩ := lfMbChecks_clear.mp hc
    have hcur := guard_of_next h
    rw [next_of_guarded h]
    exact cursors_filterMany (n := 1) hs ho hd hcur
  | lfFrame =>
    obtain ⟨-, ho, hd, -⟩ := lfFrameChecks_clear.mp hc
    cases h
    exact cursors_filterMany hs ho hd (Nat.add_sub_of_le hlf).le
  | _ => cases h; exact cursors_congr hs rfl rfl rfl rfl rfl

theorem runOf_fieldRanges (hi : i ≠ .reset) (hw : i.wellFormed = true) (hs : s.FieldRanges) (h : runOf i s = .next t) :
    t.FieldRanges := by
  obtain ⟨hdelta, hseg⟩ := hs
  cases i with
  | reset => exact absurd rfl hi
  | cfgSegctl segEn mdelta =>
    cases h
    refine ⟨?_, hseg⟩
    have hlow : -63 ≤ mdelta.toInt := by simpa [Instr.wellFormed, levelOk] using hw
    have hhigh := BitVec.toInt_lt (x := mdelta)
    show -63 ≤ (mdelta.signExtend 8).toInt ∧ (mdelta.signExtend 8).toInt ≤ 63
    rw [BitVec.toInt_signExtend_of_le (by decide)]
    omega
  | cfgSeg seg dv qlvl lflvl =>
    cases h
    refine ⟨hdelta, fun n => ?_⟩
    simp only [Instr.wellFormed, qlvlOk, levelOk, Bool.and_eq_true, decide_eq_true_eq] at hw
    rw [segReg_setSegReg]
    split
    · exact hw
    · exact hseg n
  | predLuma | predChroma | mbEnd => rw [next_of_guarded h]; exact ⟨hdelta, hseg⟩
  | lfMb mbx mby => rw [next_of_guarded h, filterNext_eq]; exact ⟨hdelta, hseg⟩
  | lfFrame => cases h; rw [filterMany_eq]; exact ⟨hdelta, hseg⟩
  | _ => cases h; exact ⟨hdelta, hseg⟩

/-! The left borders: a prediction fills them and says so in `MBFLAGS`; MB_END reseeds them where the row ends. -/

theorem cells_filterMany_left {cfg : Config} {n : Nat} {sp : ByteSpace} (h : sp = .leftY ∨ sp = .leftU ∨ sp = .leftV) :
    (filterMany cfg n s).mem.cells sp = s.mem.cells sp :=
  filterMany_cells fun p => by cases p <;> rcases h with rfl | rfl | rfl <;> decide

/-- The loop filter leaves the left borders, so their seeds too. -/
theorem leftSeeded_filterMany {cfg : Config} {n : Nat} (hs : s.LeftSeeded) : (filterMany cfg n s).LeftSeeded := by
  have hy : (filterMany cfg n s).mem.leftY = s.mem.leftY := cells_filterMany_left (.inl rfl)
  have hu : (filterMany cfg n s).mem.leftU = s.mem.leftU := cells_filterMany_left (.inr (.inl rfl))
  have hv : (filterMany cfg n s).mem.leftV = s.mem.leftV := cells_filterMany_left (.inr (.inr rfl))
  rw [filterMany_eq]
  unfold State.LeftSeeded
  simp only [hy, hu, hv]
  exact hs

theorem cells_doPredLuma_other {sp : ByteSpace} (hl : sp ≠ .leftY) (ht : sp ≠ .topY) (hp : sp ≠ .y) :
    s.doPredLuma.mem.cells sp = s.mem.cells sp := cells_writeBack_other hl ht hp

theorem leftY_doPredChroma : s.doPredChroma.mem.leftY = s.mem.leftY := by
  show s.doPredChroma.mem.cells .leftY = s.mem.cells .leftY
  rw [doPredChroma_mem, chromaPlane, cells_writeBack_other (by decide) (by decide) (by decide),
    chromaPlane, cells_writeBack_other (by decide) (by decide) (by decide)]

/-- In an open macroblock PRED_LUMA keeps the seeds: of the left borders it fills `LEFTY` alone, and it sets `LUMA_DONE`. -/
theorem leftSeeded_doPredLuma (ho : s.status.mbOpen = true) (hs : s.LeftSeeded) : s.doPredLuma.LeftSeeded := by
  intro hrow
  obtain ⟨-, hchroma⟩ := hs hrow
  refine ⟨fun hopen => by simp [ho] at hopen, fun hopen => ?_⟩
  obtain ⟨hu, hv⟩ := hchroma hopen
  have hu' : s.doPredLuma.mem.leftU = s.mem.leftU := cells_doPredLuma_other (sp := .leftU) (by decide) (by decide) (by decide)
  have hv' : s.doPredLuma.mem.leftV = s.mem.leftV := cells_doPredLuma_other (sp := .leftV) (by decide) (by decide) (by decide)
  exact ⟨hu'.trans hu, hv'.trans hv⟩

/-- In an open macroblock PRED_CHROMA keeps the seeds: it leaves `LEFTY`, and it sets `CHROMA_DONE`. -/
theorem leftSeeded_doPredChroma (ho : s.status.mbOpen = true) (hs : s.LeftSeeded) : s.doPredChroma.LeftSeeded := by
  intro hrow
  obtain ⟨hluma, -⟩ := hs hrow
  exact ⟨fun hopen => leftY_doPredChroma.trans (hluma hopen), fun hopen => by simp [ho] at hopen⟩

/-- The macroblock before the start of a row is the last of its row. -/
theorem last_of_row {x y w cur : Nat} (hx : x < w) (hxy : y * w + x = cur) (hrow : (cur + 1) % w = 0) : x = w - 1 := by
  subst hxy
  rw [Nat.add_assoc, Nat.mul_comm, Nat.mul_add_mod] at hrow
  by_contra hne
  rw [Nat.mod_eq_of_lt (by omega)] at hrow
  omega

/-- Where MB_END moves the cursor to the start of a row it has reseeded the left borders (R136). -/
theorem leftSeeded_closeMb (ho : s.status.mbOpen = true) (hs : s.Cursors) : s.closeMb.LeftSeeded := by
  intro hrow
  obtain ⟨-, -, -, hopen⟩ := hs
  obtain ⟨hcur, hx, hxy⟩ := hopen ho
  have hrow' : (s.mbcur.toNat + 1) % s.mbw = 0 := toNat_mbcur_succ hcur ▸ hrow
  have hmem : s.closeMb.mem = s.mem.endRow := by rw [closeMb_mem, if_pos (last_of_row hx hxy hrow')]
  rw [hmem]
  exact ⟨fun _ => rfl, fun _ => ⟨rfl, rfl⟩⟩

theorem runOf_leftSeeded (hi : i ≠ .reset) (hc : ∀ p ∈ checksOf i s, p.1 = false) (hcur : s.Cursors) (hs : s.LeftSeeded)
    (h : runOf i s = .next t) : t.LeftSeeded := by
  cases i with
  | reset => exact absurd rfl hi
  | cfgFrame w h' => cases h; exact fun _ => ⟨fun _ => rfl, fun _ => ⟨rfl, rfl⟩⟩
  | mbBegin mbx mby lmode cmode segid skip =>
    obtain ⟨-, ho, -⟩ := mbBeginChecks_clear.mp hc
    cases h
    exact fun hrow => ⟨fun _ => (hs hrow).1 (.inl ho), fun _ => (hs hrow).2 (.inl ho)⟩
  | predLuma =>
    obtain ⟨⟨-, ho⟩, -⟩ := predLumaChecks_clear.mp hc
    rw [next_of_guarded h]
    exact leftSeeded_doPredLuma ho hs
  | predChroma =>
    obtain ⟨⟨-, ho⟩, -⟩ := predChromaChecks_clear.mp hc
    rw [next_of_guarded h]
    exact leftSeeded_doPredChroma ho hs
  | mbEnd =>
    obtain ⟨⟨-, ho⟩, -⟩ := mbEndChecks_clear.mp hc
    rw [next_of_guarded h]
    exact leftSeeded_closeMb ho hcur
  | lfMb mbx mby =>
    rw [next_of_guarded h]
    exact leftSeeded_filterMany (n := 1) hs
  | lfFrame => cases h; exact leftSeeded_filterMany hs
  | _ => cases h; exact hs

/-- No command that stores a coefficient passes its checks in a skipped macroblock (R151). -/
theorem runOf_skippedZero (hi : i ≠ .reset) (hc : ∀ p ∈ checksOf i s, p.1 = false) (hs : s.SkippedZero)
    (h : runOf i s = .next t) : t.SkippedZero := by
  cases i with
  | reset => exact absurd rfl hi
  | cfgFrame w h' => cases h; exact fun ho => by simp at ho
  | mbBegin mbx mby lmode cmode segid skip => cases h; exact fun _ _ => coefAt_of_zero rfl
  | coef blk zz val =>
    obtain ⟨-, hskip, -⟩ := coefChecks_clear.mp hc
    cases h
    exact fun _ hskip' => by simp [hskip] at hskip'
  | iwht =>
    obtain ⟨-, hskip, -⟩ := iwhtChecks_clear.mp hc
    cases h
    exact fun _ hskip' => by simp [hskip] at hskip'
  | idct blk =>
    obtain ⟨-, hskip, -⟩ := idctChecks_clear.mp hc
    cases h
    exact fun _ hskip' => by simp [hskip] at hskip'
  | predLuma | predChroma => rw [next_of_guarded h]; exact hs
  | mbEnd => rw [next_of_guarded h]; exact fun ho => by simp at ho
  | lfMb mbx mby => rw [next_of_guarded h, filterNext_eq]; exact hs
  | lfFrame => cases h; rw [filterMany_eq]; exact hs
  | _ => cases h; exact hs

/-- Setting the `IDCT_DONE` bit of one block leaves every other block's (R158). -/
theorem idctDoneAt_setIdctDone {b k : Nat} (h : k ≠ b) : (s.setIdctDone b).idctDoneAt k = s.idctDoneAt k := by
  simp only [State.idctDoneAt, setIdctDone_idctDone, BitVec.getLsbD_or, BitVec.getLsbD_ofNat, Nat.testBit_two_pow]
  simp [h.symm]

/-- IDCT of a luma block passes its checks only after IWHT, where the macroblock has a Y2 block (R158). -/
theorem runOf_transformOrder (hi : i ≠ .reset) (hc : ∀ p ∈ checksOf i s, p.1 = false) (hs : s.TransformOrder)
    (h : runOf i s = .next t) : t.TransformOrder := by
  cases i with
  | reset => exact absurd rfl hi
  | cfgFrame w h' => cases h; exact fun ho => by simp at ho
  | mbBegin mbx mby lmode cmode segid skip => cases h; exact fun _ _ _ _ _ => by simp [State.idctDoneAt]
  | iwht => cases h; exact fun _ _ hw => by simp at hw
  | idct blk =>
    obtain ⟨-, -, -, horder⟩ := idctChecks_clear.mp hc
    cases h
    intro ho hb hw k hk
    have hblk : ¬ blk.toNat < 16 := fun hlt =>
      absurd ((horder hlt (by simpa [State.isB] using hb)).symm.trans hw) (by decide)
    rw [idctDoneAt_setIdctDone (by omega)]
    exact hs ho hb hw k hk
  | predLuma | predChroma => rw [next_of_guarded h]; exact hs
  | mbEnd => rw [next_of_guarded h]; exact fun ho => by simp at ho
  | lfMb mbx mby => rw [next_of_guarded h, filterNext_eq]; exact hs
  | lfFrame => cases h; rw [filterMany_eq]; exact hs
  | _ => cases h; exact hs

end Run

/-! ### The whole invariant -/

/-- The reset state meets the invariant: nothing is listed, no macroblock is open and every field is 0 (R41). -/
theorem inv_resetWith (cfg : Config) : (State.resetWith cfg).Inv where
  memoryCanonical := memoryCanonical_inductive.reset cfg
  cellsInSpace := ⟨by simp [State.resetWith], by simp [State.resetWith]⟩
  faultRecord := ⟨fun _ => ⟨rfl, rfl, rfl⟩, by simp [State.resetWith]⟩
  frameShape := ⟨by simp [State.resetWith], fun _ => ⟨rfl, rfl⟩⟩
  cursors := ⟨Nat.zero_le _, Nat.zero_le _, by simp [State.resetWith], by simp [State.resetWith]⟩
  fieldRanges := ⟨by simp [State.resetWith], by simp [State.resetWith, State.segReg]⟩
  leftSeeded _ := ⟨fun _ => rfl, fun _ => ⟨rfl, rfl⟩⟩
  skippedZero ho := by simp [State.resetWith] at ho
  transformOrder ho := by simp [State.resetWith] at ho

/-- The invariant does not read the host's queues. -/
theorem inv_queues {s : State} (inbox : List HostAction) (outbox : List HostResponse) (hs : s.Inv) :
    State.Inv { s with inbox := inbox, outbox := outbox } :=
  ⟨hs.memoryCanonical, hs.cellsInSpace, hs.faultRecord, hs.frameShape, hs.cursors, hs.fieldRanges, hs.leftSeeded,
    hs.skippedZero, hs.transformOrder⟩

/-- Of the invariant fault entry touches the fault record alone (R282). -/
theorem inv_raise {s : State} {c : FaultCode} {w : CmdWord} (hc : c ≠ .none) (hs : s.Inv) : (s.raise c w).Inv := by
  unfold State.raise
  split
  · exact hs
  · exact ⟨hs.memoryCanonical, hs.cellsInSpace, ⟨by simp, fun _ => hc⟩, hs.frameShape, hs.cursors, hs.fieldRanges,
      hs.leftSeeded, hs.skippedZero, hs.transformOrder⟩

/-- A host write lists a cell of its plane, in range, and touches nothing else (R63). -/
theorem inv_hostWrite {s : State} {p : Plane} {i : Nat} {v : Byte} (hi : i < s.spaceLength (.byte p.space)) (hs : s.Inv) :
    (s.withMem (s.mem.write p.space i v)).Inv where
  memoryCanonical := memoryCanonical_inductive.hostWrite s p i v hi hs.memoryCanonical
  cellsInSpace := by
    obtain ⟨hcells, hinfo⟩ := hs.cellsInSpace
    refine ⟨fun sp c hc => ?_, hinfo⟩
    by_cases he : sp = p.space
    · subst he
      rw [withMem_mem, cells_write_same] at hc
      rcases mem_store hc with rfl | hold
      · exact hi
      · exact hcells _ c hold
    · rw [withMem_mem, cells_write_other he] at hc
      exact hcells sp c hc
  faultRecord := hs.faultRecord
  frameShape := hs.frameShape
  cursors := hs.cursors
  fieldRanges := hs.fieldRanges
  leftSeeded := by cases p <;> exact hs.leftSeeded
  skippedZero := hs.skippedZero
  transformOrder := hs.transformOrder

/-- A command that passed its checks keeps the invariant, part by part; the left borders also need the cursors (R136). -/
theorem inv_runOf {i : Instr} {s t : State} (hi : i ≠ .reset) (hw : i.wellFormed = true) (hc : ∀ p ∈ checksOf i s, p.1 = false)
    (hs : s.Inv) (h : runOf i s = .next t) : t.Inv where
  memoryCanonical := runOf_memoryCanonical hi hs.memoryCanonical h
  cellsInSpace := runOf_cellsInSpace hi hc hs.cellsInSpace h
  faultRecord := runOf_faultRecord hi hs.faultRecord h
  frameShape := runOf_frameShape hi hw hc hs.frameShape h
  cursors := runOf_cursors hi hc hs.cursors h
  fieldRanges := runOf_fieldRanges hi hw hs.fieldRanges h
  leftSeeded := runOf_leftSeeded hi hc hs.cursors hs.leftSeeded h
  skippedZero := runOf_skippedZero hi hc hs.skippedZero h
  transformOrder := runOf_transformOrder hi hc hs.transformOrder h

theorem inv_inductive : Inductive State.Inv where
  reset := inv_resetWith
  queues _ := inv_queues
  fault _ _ _ := inv_raise
  hostWrite _ _ _ _ := inv_hostWrite
  run _ _ _ := inv_runOf

/-- Settles O56: part by part in `inv_resetWith`; `State.reset` is the reset under the parameters of the spec. -/
theorem resetMeetsInvariant : Obligations.ResetMeetsInvariant := ⟨inv_inductive.reset _, inv_inductive.reset⟩

/-- Settles O58: the invariant survives each thing a step can do (`inv_inductive`). -/
theorem stepKeepsInvariant : Obligations.StepKeepsInvariant := fun _ _ => inv_inductive.step

/-! ### The register port -/

section Registers

variable {s : State} {n : Nat} {v : HostWord}

/-! #### The packed words not read in Laws/Port.lean (R22) -/

theorem hostWord_single_toNat {x : Nat} (h : x < 4294967296) : (hostWord [(0, x)]).toNat = x := by
  rw [hostWord_toNat (sum_place_cons (P := 1) rfl sum_place_nil)] <;> omega

/-- Two fields of one word, the upper at bit 16. -/
theorem hostWord_halves_toNat {lo hi : Nat} (hl : lo < 65536) (hh : hi < 65536) :
    (hostWord [(0, lo), (16, hi)]).toNat = lo + hi * 65536 := by
  rw [hostWord_toNat (sum_place_cons (P := 1) rfl (sum_place_cons (P := 65536) rfl sum_place_nil))] <;> omega

theorem frameWord_toNat : s.frameWord.toNat = s.frame.h.toNat + s.frame.w.toNat * 65536 :=
  hostWord_halves_toNat (s.frame.h.isLt.trans (by decide)) (s.frame.w.isLt.trans (by decide))

theorem frameMbWord_toNat : s.frameMbWord.toNat = s.mbh + s.mbw * 65536 :=
  hostWord_halves_toNat ((mbh_le s).trans_lt (by decide)) ((mbw_le s).trans_lt (by decide))

theorem segctlWord_toNat : s.segctlWord.toNat = s.segctl.mdelta0.toNat + s.segctl.segEn.toNat * 65536 :=
  hostWord_halves_toNat (s.segctl.mdelta0.isLt.trans (by decide)) (s.segctl.segEn.toNat_lt.trans (by decide))

theorem filterWord_toNat : s.filterWord.toNat =
    s.filter.sharp.toNat + s.filter.level.toNat * 256 + s.filter.simple.toNat * 65536 := by
  have := s.filter.sharp.isLt
  have := s.filter.level.isLt
  have := s.filter.simple.toNat_lt
  unfold State.filterWord
  rw [hostWord_toNat (sum_place_cons (P := 1) rfl (sum_place_cons (P := 256) rfl (sum_place_cons (P := 65536) rfl
    sum_place_nil)))] <;> omega

theorem mbflagsWord_toNat : s.mbflagsWord.toNat =
    s.mbflags.whtDone.toNat + s.mbflags.lumaDone.toNat * 2 + s.mbflags.chromaDone.toNat * 4 := by
  have := s.mbflags.whtDone.toNat_lt
  have := s.mbflags.lumaDone.toNat_lt
  have := s.mbflags.chromaDone.toNat_lt
  unfold State.mbflagsWord
  rw [hostWord_toNat (sum_place_cons (P := 1) rfl (sum_place_cons (P := 2) rfl (sum_place_cons (P := 4) rfl
    sum_place_nil)))] <;> omega

theorem segqWord_toInt {k : BitVec 2} {f : Factor} : (s.segqWord k f).toInt = ((s.quantRow k).get f).toInt :=
  BitVec.toInt_signExtend_of_le (by decide)

/-- Digit `k` of a word of eight hex digits. -/
theorem packed8_digit (a : Nat → Nat) (h : ∀ k, a k < 16) (k : Fin 8) :
    (a 0 + a 1 * 16 + a 2 * 256 + a 3 * 4096 + a 4 * 65536 + a 5 * 1048576 + a 6 * 16777216 + a 7 * 268435456) / 16 ^ k.val % 16 =
      a k.val := by
  have h0 := h 0
  have h1 := h 1
  have h2 := h 2
  have h3 := h 3
  have h4 := h 4
  have h5 := h 5
  have h6 := h 6
  have h7 := h 7
  obtain ⟨k, hk⟩ := k
  interval_cases k <;> simp only <;> omega

/-- Hex digit `k` of `BPRED_LO` or `BPRED_HI` is the code of the half's mode `k` (R34). -/
theorem bpredWord_digit {half : Nat} (k : Fin 8) :
    (s.bpredWord half).toNat / 16 ^ k.val % 16 = (s.bpred.getD (8 * half + k.val) .dc).code := by
  obtain ⟨a, ha⟩ : ∃ a : Nat → Nat, ∀ j, a j = (s.bpred.getD (8 * half + j) .dc).code := ⟨_, fun _ => rfl⟩
  rw [bpredWord_toNat a ha, ← ha, packed8_digit a fun j => ha j ▸ code_sub_lt _]

theorem bpred_getD {k : Nat} (h : k < 16) : s.bpred.getD k .dc = s.bpred[k] := by simp [Vector.getD, h]

/-- The number `STATUS.PHASE` reads as (R25). -/
theorem phase_code : s.phase.code =
    if s.status.frameValid = false then 0 else if s.status.mbOpen = true then 2
    else if s.mbcur.toNat < s.totalMb then 1 else if s.lfcur.toNat < s.totalMb then 3 else 4 := by
  unfold State.phase
  split_ifs <;> rfl

/-! #### The register map -/

/-- The registers of `SEG` (R22). -/
theorem register_seg (k : BitVec 2) : s.register (0x08 + k.toNat) = some (s.segWord k) := by
  have := k.isLt
  unfold State.register
  rw [if_neg (by omega), if_neg (by omega), if_neg (by omega), if_neg (by omega), if_neg (by omega), if_neg (by omega),
    if_neg (by omega), if_pos (by omega)]
  simp

theorem code_factor_lt_six (f : Factor) : f.code < 6 := by cases f <;> decide

/-- Factor `f` of segment `k` is entry `6k + f` of the factor file (R22). -/
theorem segqAt_index (k : BitVec 2) (f : Factor) : s.segqAt (6 * k.toNat + f.code) = some (s.segqWord k f) := by
  have hf := code_factor_lt_six f
  have hdiv : (6 * k.toNat + f.code) / 6 = k.toNat := by omega
  have hmod : (6 * k.toNat + f.code) % 6 = f.code := by omega
  simp [State.segqAt, hdiv, hmod]

theorem register_segq (k : BitVec 2) (f : Factor) : s.register (0x10 + 6 * k.toNat + f.code) = some (s.segqWord k f) := by
  have := k.isLt
  have := code_factor_lt_six f
  have hfile : s.register (0x10 + 6 * k.toNat + f.code) = s.segqAt (0x10 + 6 * k.toNat + f.code - 0x10) := by
    unfold State.register
    rw [if_neg (by omega), if_neg (by omega), if_neg (by omega), if_neg (by omega), if_neg (by omega), if_neg (by omega),
      if_neg (by omega), if_neg (by omega), if_pos (by omega)]
  rw [hfile, show 0x10 + 6 * k.toNat + f.code - 0x10 = 6 * k.toNat + f.code by omega, segqAt_index]

/-- Every number of the factor file has a register. -/
theorem segqAt_ne_none (k : Nat) : s.segqAt k ≠ none := by
  have : k % 6 < 6 := Nat.mod_lt _ (by decide)
  unfold State.segqAt
  generalize k % 6 = m at *
  interval_cases m <;> simp [factorOf]

theorem ite_eq_none {α : Type} {p : Prop} [Decidable p] {a b : Option α} (ha : a ≠ none) :
    (if p then a else b) = none ↔ ¬ p ∧ b = none := by
  split <;> simp [*]

/-- The unassigned numbers of R22. -/
theorem register_eq_none_iff :
    s.register n = none ↔ n = 0x07 ∨ (0x0C ≤ n ∧ n ≤ 0x0F) ∨ (0x28 ≤ n ∧ n ≤ 0x2F) ∨ 0x37 ≤ n := by
  unfold State.register
  simp only [ite_eq_none (Option.some_ne_none _), ite_eq_none (segqAt_ne_none _), and_true]
  omega

/-- A register number past the space has no register, so the range check of R68 refuses nothing more. -/
theorem unitAt_reg (s : State) (n : Nat) : s.unitAt .reg n = s.register n := by
  unfold State.unitAt
  split
  · rfl
  next h =>
    have h' : ¬ n < 0x37 := h
    exact (register_eq_none_iff.mpr (by omega)).symm

theorem hostRead_reg_data : hostRead .reg n s = .data v ↔ s.register n = some v := by
  unfold hostRead
  rw [unitAt_reg]
  cases s.register n <;> simp

theorem hostRead_reg_hostErr : hostRead .reg n s = .hostErr ↔ s.register n = none := by
  unfold hostRead
  rw [unitAt_reg]
  cases s.register n <;> simp

end Registers

/-- Settles O51: each register's word by its packing lemma, the unassigned numbers by `register_eq_none_iff`. -/
theorem registerLayout : Obligations.RegisterLayout := by
  refine fun s => ⟨fun n v hread => ?_, fun n => (hostRead_reg_hostErr.trans register_eq_none_iff).symm⟩
  have hreg : s.register n = some v := hostRead_reg_data.mp hread
  have word : ∀ {m : Nat} {u : HostWord}, s.register m = some u → n = m → v = u := by
    rintro m u hm rfl
    exact Option.some.inj (hreg.symm.trans hm)
  refine ⟨fun h => ?_, word rfl, word rfl, fun h => word rfl h ▸ frameWord_toNat, fun h => word rfl h ▸ frameMbWord_toNat,
    fun h => word rfl h ▸ filterWord_toNat, fun h => word rfl h ▸ segctlWord_toNat,
    fun k h => word (register_seg k) h ▸ segWord_toNat, fun k f h => word (register_segq k f) h ▸ segqWord_toInt,
    fun h => word rfl h ▸ hostWord_single_toNat (s.mbcur.isLt.trans (by decide)),
    fun h => word rfl h ▸ hostWord_single_toNat (s.lfcur.isLt.trans (by decide)),
    fun h => word rfl h ▸ curmbWord_toNat, fun h => word rfl h ▸ mbflagsWord_toNat,
    fun h => word rfl h ▸ hostWord_single_toNat (s.idctDone.isLt.trans (by decide)), fun k h => ?_, fun k h => ?_⟩
  · rw [word rfl h, statusWord_toNat, phase_code]
  · rw [word rfl h, bpredWord_digit, bpred_getD (by omega)]
    simp only [Nat.mul_zero, Nat.zero_add]
  · rw [word rfl h, bpredWord_digit, bpred_getD (by omega)]

/-! ### What a reset and CFG_FRAME leave -/

section Reset

variable (s : State)

theorem segReg_resetRegs (n : BitVec 2) : s.resetRegs.segReg n = ⟨false, 0, 0⟩ := by
  simp [State.segReg, State.resetRegs, State.resetWith]

theorem quantRow_resetRegs (n : BitVec 2) : s.resetRegs.quantRow n = QuantRow.zero := by
  simp [State.quantRow, State.resetRegs, State.resetWith]

theorem get_quantRow_zero (f : Factor) : QuantRow.zero.get f = 0 := by cases f <;> rfl

theorem bpred_replicate (k : Fin 16) : (Vector.replicate 16 SubMode.dc)[k] = .dc := by simp

/-- While no frame is configured no byte is addressable (R60). -/
theorem spaceLength_resetRegs (b : ByteSpace) : s.resetRegs.spaceLength (.byte b) = 0 := rfl

end Reset

/-- Settles O13: RESET runs faulted or not, and each clause reads a field of the reset state. -/
theorem resetClearsEveryRegister : Obligations.ResetClearsEveryRegister := fun s =>
  ⟨s.resetRegs, rfl, rfl, rfl, rfl, rfl, rfl, rfl, segReg_resetRegs s,
    fun n f => by rw [quantRow_resetRegs]; exact get_quantRow_zero f,
    rfl, rfl, rfl, rfl, rfl, bpred_replicate, coefAt_of_zero rfl, spaceLength_resetRegs s, rfl, rfl, rfl, rfl⟩

/-- Settles O14: CFG_FRAME has no state checks, so with its sizes in range it leaves `startFrame`, whose spaces hold nothing but the
seeds of `Memory.empty`. -/
theorem cfgFrameStartsFrame : Obligations.CfgFrameStartsFrame := by
  intro w h s hf hw hh
  have hwf : (Instr.cfgFrame w h).wellFormed = true := by simp [Instr.wellFormed, dimensionOk, hw, hh]
  have hrun : exec (.cfgFrame w h) s = .next (s.startFrame w h) :=
    exec_run (by simp) hf hwf (by simp [checksOf, noChecks])
  exact ⟨s.startFrame w h, hrun, rfl, rfl, rfl, rfl, rfl, rfl, rfl, rfl, rfl, rfl, rfl, rfl, rfl, rfl,
    fun _ => ⟨read_empty, read_empty, read_empty⟩, fun _ => ⟨read_empty, read_empty, read_empty⟩,
    fun _ => ⟨read_empty, read_empty, read_empty⟩, fun _ => rfl, rfl, rfl, rfl, bpred_replicate, coefAt_of_zero rfl,
    rfl, rfl, rfl, rfl, rfl, rfl, rfl, rfl, rfl⟩

/-! ### Reads after a reset -/

theorem hostWord_zeros {fs : List (Nat × Nat)} (h : (fs.all fun f => f.2 == 0) = true) : hostWord fs = 0 := by
  have hsum : (fs.map fun f => f.2 * 2 ^ f.1).sum = 0 := by
    refine List.sum_eq_zero fun x hx => ?_
    obtain ⟨f, hf, rfl⟩ := List.mem_map.mp hx
    have hz : f.2 = 0 := by simpa using List.all_eq_true.mp h f hf
    rw [hz, Nat.zero_mul]
  rw [hostWord, hsum]
  rfl

theorem forall_mem_ite {α : Type} {p : Prop} [Decidable p] {a b : Option α} {P : α → Prop} (ha : ∀ v ∈ a, P v)
    (hb : ∀ v ∈ b, P v) : ∀ v ∈ (if p then a else b), P v := by
  split <;> assumption

theorem forall_mem_some {α : Type} {a : α} {P : α → Prop} (h : P a) : ∀ v ∈ some a, P v := by
  rintro v ⟨⟩
  exact h

theorem frameMbWord_resetRegs (s : State) : s.resetRegs.frameMbWord = 0 := by
  have hw : s.resetRegs.mbw = 0 := (mbw_congr (s := State.reset) rfl).trans (by decide)
  have hh : s.resetRegs.mbh = 0 := (mbh_congr (s := State.reset) rfl).trans (by decide)
  exact hostWord_zeros (by simp [hw, hh])

/-- After a reset every assigned register reads 0 (R41). -/
theorem register_resetRegs {s : State} {n : Nat} : ∀ v ∈ s.resetRegs.register n, v = 0 := by
  have hseg : ∀ k, s.resetRegs.segWord k = 0 := fun k => by
    rw [State.segWord, segReg_resetRegs]
    exact hostWord_zeros rfl
  have hsegq : ∀ k, ∀ v ∈ s.resetRegs.segqAt k, v = 0 := fun k v hv => by
    obtain ⟨f, -, rfl⟩ := Option.map_eq_some_iff.mp hv
    rw [State.segqWord, quantRow_resetRegs, get_quantRow_zero]
    rfl
  unfold State.register
  refine forall_mem_ite (forall_mem_some (hostWord_zeros rfl)) ?_
  refine forall_mem_ite (forall_mem_some rfl) (forall_mem_ite (forall_mem_some rfl) ?_)
  refine forall_mem_ite (forall_mem_some (hostWord_zeros rfl)) ?_
  refine forall_mem_ite (forall_mem_some (frameMbWord_resetRegs s)) ?_
  iterate 2 refine forall_mem_ite (forall_mem_some (hostWord_zeros rfl)) ?_
  refine forall_mem_ite (forall_mem_some (hseg _)) (forall_mem_ite (hsegq _) ?_)
  iterate 7 refine forall_mem_ite (forall_mem_some (hostWord_zeros rfl)) ?_
  exact nofun

/-- Settles O53: each of the three resets leaves `resetRegs` of some state, whose assigned registers read 0 (`register_resetRegs`) and
whose byte spaces have length 0. -/
theorem resetReadsZero : Obligations.ResetReadsZero := by
  intro r hr
  have hreset : ∃ s : State, r = s.resetRegs := by
    rcases hr with rfl | ⟨s, h⟩ | ⟨s, rest, hq, h⟩
    · exact ⟨State.reset, rfl⟩
    · cases h; exact ⟨s, rfl⟩
    · rw [step_cons hq] at h
      cases h
      exact ⟨_, rfl⟩
  obtain ⟨s, rfl⟩ := hreset
  refine ⟨fun n hn => ?_, fun i hi => ?_, fun b i => rfl, fun i => rfl⟩
  · cases hreg : s.resetRegs.register n with
    | none => have := register_eq_none_iff.mp hreg; omega
    | some v => rw [hostRead_reg_data, hreg, register_resetRegs v hreg]
  · have hunit : s.resetRegs.unitAt .coefs i = some (s.resetRegs.coefAt (i / 16) (i % 16)) := if_pos hi
    rw [hostRead, hunit, coefAt_of_zero rfl]

end Sys2Proof.Machine

/-! # Proofs for spec/20_memory.md: who writes each byte space (R60), the ports (R61 to R63, R68), no index outside a space (R69) -/

namespace Sys2Proof.Machine

/-! ### The command port -/

/-- Settles O7: a word that decodes is run, faulted or not (`takeWord_ok`), and a step with nothing pending is idle. -/
theorem stepRunsDecodedCommand : Obligations.StepRunsDecodedCommand :=
  ⟨fun _ _ _ _ hq hd => (step_command hq).trans (takeWord_ok hd), fun _ => step_idle⟩

/-! ### Host accesses -/

section Access

variable {s : State} {sp : Space} {i : Nat} {v : HostWord}

/-- While no frame is configured no byte and no entry of `MBINFO` is in range (R60). -/
theorem lt_spaceLength_byte_iff {b : ByteSpace} :
    i < s.spaceLength (.byte b) ↔ s.status.frameValid = true ∧ i < s.byteLength b := by
  cases h : s.status.frameValid <;> simp [State.spaceLength, h]

theorem lt_spaceLength_mbinfo_iff : i < s.spaceLength .mbinfo ↔ s.status.frameValid = true ∧ i < s.totalMb := by
  cases h : s.status.frameValid <;> simp [State.spaceLength, h]

/-- A read is answered exactly where its unit is in range (R62, R68). -/
theorem hostRead_of_unitAt {p : Prop} [Decidable p] (h : s.unitAt sp i = if p then some v else none) :
    hostRead sp i s = if p then .data v else .hostErr := by
  rw [hostRead, h]
  by_cases hp : p <;> simp [hp]

theorem hostRead_byte (b : ByteSpace) (i : Nat) (s : State) : hostRead (.byte b) i s =
    if s.status.frameValid = true ∧ i < s.byteLength b then .data (BitVec.ofNat 32 (s.mem.read b i).toNat) else .hostErr := by
  refine hostRead_of_unitAt ?_
  simp only [State.unitAt, lt_spaceLength_byte_iff, BitVec.ofNat_toNat]

theorem hostRead_coefs (i : Nat) (s : State) :
    hostRead .coefs i s = if i < 400 then .data (s.coefAt (i / 16) (i % 16)) else .hostErr :=
  hostRead_of_unitAt rfl

/-- The word of an entry of `MBINFO` as a sum of its fields (R38). -/
theorem mbInfo_word (m : MbInfo) :
    m.word = BitVec.ofNat 32 (m.lmode.code + m.segid.toNat * 256 + m.skip.toNat * 65536) := by
  rw [MbInfo.word, hostWord, sum_place_cons (P := 1) rfl (sum_place_cons (P := 256) rfl (sum_place_cons (P := 65536) rfl
    sum_place_nil)), Nat.mul_one, Nat.add_zero, Nat.add_assoc]

theorem hostRead_mbinfo (i : Nat) (s : State) : hostRead .mbinfo i s =
    if s.status.frameValid = true ∧ i < s.totalMb then
      .data (BitVec.ofNat 32 ((s.mbInfoAt i).lmode.code + (s.mbInfoAt i).segid.toNat * 256 + (s.mbInfoAt i).skip.toNat * 65536))
    else .hostErr := by
  refine hostRead_of_unitAt ?_
  simp only [State.unitAt, lt_spaceLength_mbinfo_iff, mbInfo_word]

/-- A host write to a plane in range (R63). -/
theorem hostWrite_written {p : Plane} (h : i < s.spaceLength (.byte p.space)) :
    hostWrite (.byte p.space) i v s = (.written, { s with mem := s.mem.write p.space i (v.setWidth 8) }) := by
  cases p <;> exact if_pos h

/-- A host write to a space that is no plane, with no frame configured, or past the end is refused (R63, R68). -/
theorem hostWrite_hostErr (h : (∀ p : Plane, sp ≠ .byte p.space) ∨ s.status.frameValid = false ∨ s.spaceLength sp ≤ i) :
    hostWrite sp i v s = (.hostErr, s) := by
  unfold hostWrite
  split
  next b hb =>
    obtain ⟨p, -, rfl⟩ := writable_eq_some hb
    refine if_neg fun hi => ?_
    obtain ⟨hv, -⟩ := lt_spaceLength_byte_iff.mp hi
    rcases h with hplane | hv' | hle
    · exact hplane p rfl
    · exact absurd (hv.symm.trans hv') (by decide)
    · exact absurd hi (Nat.not_lt.mpr hle)
  · rfl

end Access

/-- Settles O52: the reads space by space, the writes by `hostWrite_written` and `hostWrite_hostErr`. -/
theorem hostAccess : Obligations.HostAccess := by
  refine fun s rest => ⟨fun sp i hq => step_cons hq, fun b i => hostRead_byte b i s, fun i => hostRead_coefs i s,
    fun i => hostRead_mbinfo i s, fun sp i v hq => ⟨?_, fun hout => ?_⟩⟩
  · rintro p rfl hv hi
    have hin : i < State.spaceLength { s with inbox := rest } (.byte p.space) := lt_spaceLength_byte_iff.mpr ⟨hv, hi⟩
    rw [step_cons hq, serve, hostWrite_written hin]
    rfl
  · rw [step_cons hq, serve, hostWrite_hostErr (s := { s with inbox := rest }) hout]
    rfl

/-! ### Who writes each byte space -/

section ByteWriters

variable {s : State} {sp : ByteSpace}

/-- PRED_LUMA changes its plane and its two borders alone (R201). -/
theorem changed_by_doPredLuma (h : s.doPredLuma.mem.cells sp ≠ s.mem.cells sp) : sp = .leftY ∨ sp = .topY ∨ sp = .y := by
  by_contra! hsp
  obtain ⟨hl, ht, hp⟩ := hsp
  exact h (cells_doPredLuma_other hl ht hp)

/-- One plane's share of PRED_CHROMA changes the plane and its two borders alone (R206). -/
theorem changed_by_chromaPlane {p : Plane} {top left : ByteSpace} {base : Nat} {m : Memory}
    (h : (chromaPlane s p top left base m).cells sp ≠ m.cells sp) : sp = left ∨ sp = top ∨ sp = p.space := by
  by_contra! hsp
  obtain ⟨hl, ht, hp⟩ := hsp
  exact h (cells_writeBack_other hl ht hp)

/-- PRED_CHROMA changes what its share in U or its share in V changes (R205). -/
theorem changed_by_doPredChroma (h : s.doPredChroma.mem.cells sp ≠ s.mem.cells sp) :
    (sp = .leftV ∨ sp = .topV ∨ sp = .v) ∨ sp = .leftU ∨ sp = .topU ∨ sp = .u := by
  by_cases hu : (chromaPlane s .u .topU .leftU 16 s.mem).cells sp = s.mem.cells sp
  · exact .inl (changed_by_chromaPlane (hu ▸ h))
  · exact .inr (changed_by_chromaPlane hu)

/-- MB_END reseeds the left borders at most (R136). -/
theorem changed_by_closeMb (h : s.closeMb.mem.cells sp ≠ s.mem.cells sp) : sp = .leftY ∨ sp = .leftU ∨ sp = .leftV := by
  by_contra! hsp
  obtain ⟨hy, hu, hv⟩ := hsp
  refine h ?_
  rw [closeMb_mem]
  split
  · rw [Memory.endRow, cells_reseed_other hv, cells_reseed_other hu, cells_reseed_other hy]
  · rfl

/-- The loop filter changes planes alone (R240). -/
theorem changed_by_filterMany {cfg : Config} {n : Nat} (h : (filterMany cfg n s).mem.cells sp ≠ s.mem.cells sp) :
    sp = .y ∨ sp = .u ∨ sp = .v := by
  by_contra! hsp
  obtain ⟨hy, hu, hv⟩ := hsp
  exact h (filterMany_cells fun p => by cases p <;> assumption)

end ByteWriters

/-- Settles O55: fault entry and discarded commands leave memory alone, and of the effects only five touch it, each in the spaces its
`changed_by_` lemma lists. -/
theorem memoryWriters : Obligations.MemoryWriters := by
  intro i s t sp h hi hcfg hne
  rcases exec_cases h with ⟨hr, -⟩ | ⟨-, -, hr⟩ | ⟨-, -, c, -, hr⟩ | ⟨-, -, -, -, hr⟩
  · exact absurd hr hi
  · cases hr; exact absurd rfl hne
  · cases hr; exact absurd (by rw [raise_mem]) hne
  replace hr := hr.symm
  cases i with
  | reset => exact absurd rfl hi
  | cfgFrame w h' => exact absurd rfl hcfg
  | predLuma =>
    rw [next_of_guarded hr] at hne
    rcases changed_by_doPredLuma hne with rfl | rfl | rfl
    exacts [.inl rfl, rfl, .inl rfl]
  | predChroma =>
    rw [next_of_guarded hr] at hne
    rcases changed_by_doPredChroma hne with (rfl | rfl | rfl) | rfl | rfl | rfl
    exacts [.inl rfl, rfl, .inl rfl, .inl rfl, rfl, .inl rfl]
  | mbEnd =>
    rw [next_of_guarded hr] at hne
    rcases changed_by_closeMb hne with rfl | rfl | rfl <;> exact .inr rfl
  | lfMb mbx mby =>
    rw [next_of_guarded hr] at hne
    rcases changed_by_filterMany (n := 1) hne with rfl | rfl | rfl <;> exact .inr (.inl rfl)
  | lfFrame =>
    cases hr
    rcases changed_by_filterMany hne with rfl | rfl | rfl <;> exact .inr (.inr rfl)
  | _ => cases hr; exact absurd rfl hne

/-! ### Segments stay in their plane -/

/-- The coordinate across a segment's edge is at least a kernel's reach: an edge at the picture's border is not filtered (R240). -/
theorem four_le_across {simple inner : Bool} {mbx mby : Nat} {g : Segment} (h : g ∈ mbSegments simple inner mbx mby) :
    (g.dir = .vert → 4 ≤ g.x) ∧ (g.dir = .horz → 4 ≤ g.y) := by
  obtain ⟨-, e, k, -, he4, -, hd⟩ := mem_mbSegments h
  have hside : 8 ≤ g.plane.side := by cases g.plane <;> decide
  have hacross : ∀ n, (e = 0 → 0 < n) → 4 ≤ g.plane.side * n + e := by
    intro n hn
    by_cases he : e = 0
    · have := Nat.le_mul_of_pos_right g.plane.side (hn he)
      omega
    · omega
  constructor <;> intro hdir <;> rw [hdir] at hd
  · obtain ⟨hx, -, hpos⟩ := hd
    exact hx ▸ hacross mbx hpos
  · obtain ⟨hy, -, hpos⟩ := hd
    exact hy ▸ hacross mby hpos

theorem reach_le_four (simple : Bool) : reach simple ≤ 4 := by cases simple <;> decide

/-- Four steps back from a segment's edge stay in the plane, so `p0` to `p3` are pixels of it. -/
theorem four_steps_le_pixelIndex {simple inner : Bool} {mbx mby : Nat} {g : Segment} (s : State)
    (h : g ∈ mbSegments simple inner mbx mby) : 4 * g.step s ≤ s.pixelIndex g.plane g.x g.y := by
  obtain ⟨hvert, hhorz⟩ := four_le_across h
  unfold Segment.step State.pixelIndex
  cases hd : g.dir with
  | vert =>
    show 4 * 1 ≤ _
    exact (hvert hd).trans (Nat.le_add_left _ _)
  | horz => exact (Nat.mul_le_mul_right _ (hhorz hd)).trans (Nat.le_add_right _ _)

/-- Settles O44: backwards by `four_steps_le_pixelIndex`, forwards by `qIndex_lt`, the stores by `stores_lt`. -/
theorem segmentsStayInPlane : Obligations.SegmentsStayInPlane := by
  intro s inner mbx mby g k l cell hg hb hk
  have hk4 : k + 1 ≤ 4 := Nat.le_trans hk (reach_le_four _)
  exact ⟨(Nat.mul_le_mul_right _ hk4).trans (four_steps_le_pixelIndex s hg), qIndex_lt hb hk, stores_lt hb⟩

/-! ### Where the model stops -/

section Stops

variable {i : Instr} {s : State} {f : Fault}

/-- A command that may stop instead (R69) stops exactly where its guard fails. -/
theorem guarded_eq_fault {p : Prop} [Decidable p] {u : State} {e : Fault} :
    (if p then (.next u : Result) else .fault e) = .fault f ↔ ¬ p ∧ f = e := by
  split <;> simp [*, eq_comm]

/-- A command stops exactly where it has passed its checks and its effect stops. -/
theorem exec_eq_fault : exec i s = .fault f ↔
    Unfaulted s ∧ i.wellFormed = true ∧ (∀ p ∈ checksOf i s, p.1 = false) ∧ runOf i s = .fault f := by
  constructor
  · intro h
    rcases exec_cases h with ⟨-, hr⟩ | ⟨-, -, hr⟩ | ⟨-, -, c, -, hr⟩ | ⟨-, hf, hw, hc, hr⟩
    · cases hr
    · cases hr
    · cases hr
    · exact ⟨hf, hw, hc, hr.symm⟩
  · rintro ⟨hf, hw, hc, hr⟩
    have hi : i ≠ .reset := by rintro rfl; cases hr
    rw [exec_run hi hf hw hc, hr]

/-- The four commands that address memory by a cursor or by `CURMB` are the only ones that can stop (entry 7). -/
theorem stopping_commands (h : exec i s = .fault f) :
    i = .mbEnd ∨ (∃ mbx mby, i = .lfMb mbx mby) ∨ i = .predLuma ∨ i = .predChroma := by
  obtain ⟨-, -, -, hr⟩ := exec_eq_fault.mp h
  cases i with
  | mbEnd => exact .inl rfl
  | lfMb mbx mby => exact .inr (.inl ⟨mbx, mby, rfl⟩)
  | predLuma => exact .inr (.inr (.inl rfl))
  | predChroma => exact .inr (.inr (.inr rfl))
  | _ => cases hr

theorem idctAllDone_iff {lo n : Nat} : s.idctAllDone lo n = true ↔ ∀ k, k < n → s.idctDoneAt (lo + k) = true := by
  simp [State.idctAllDone]

theorem mbEnd_eq_fault : exec .mbEnd s = .fault f ↔ Unfaulted s ∧
    InMb s ∧ s.mbflags.lumaDone = true ∧ s.mbflags.chromaDone = true ∧ s.totalMb ≤ s.mbcur.toNat ∧
      f = .outOfSpace .mbinfo s.mbcur.toNat := by
  rw [exec_eq_fault, checksOf, mbEndChecks_clear, runOf, guarded_eq_fault]
  simp [Instr.wellFormed, and_assoc]

/-- LF_MB passes its checks with a cursor past the frame, not at its end: `FRAME_DONE` comes first (R250). -/
theorem lfMb_eq_fault {mbx mby : BitVec 10} : exec (.lfMb mbx mby) s = .fault f ↔ Unfaulted s ∧
    s.status.frameValid = true ∧ s.status.mbOpen = false ∧ s.totalMb ≤ s.mbcur.toNat ∧ mbx.toNat < s.mbw ∧
      mby.toNat * s.mbw + mbx.toNat = s.lfcur.toNat ∧ s.totalMb < s.lfcur.toNat ∧
      f = .outOfSpace .mbinfo s.lfcur.toNat := by
  rw [exec_eq_fault, checksOf, lfMbChecks_clear, runOf, guarded_eq_fault]
  constructor
  · rintro ⟨hf, -, ⟨⟨hv, ho, hd, hne⟩, hx, hxy⟩, hlt, rfl⟩
    exact ⟨hf, hv, ho, hd, hx, hxy, by omega, rfl⟩
  · rintro ⟨hf, hv, ho, hd, hx, hxy, hlt, rfl⟩
    exact ⟨hf, rfl, ⟨⟨hv, ho, hd, by omega⟩, hx, hxy⟩, by omega, rfl⟩

theorem predLuma_eq_fault : exec .predLuma s = .fault f ↔ Unfaulted s ∧
    InMb s ∧ s.mbflags.lumaDone = false ∧ (s.curmb.skip = false → ∀ k, k < 16 → s.idctDoneAt k = true) ∧
      s.byteLength .topY ≤ s.lumaTopReach ∧ f = .outOfSpace (.byte .topY) s.lumaTopReach := by
  rw [exec_eq_fault, checksOf, predLumaChecks_clear, runOf, guarded_eq_fault, idctAllDone_iff]
  simp [Instr.wellFormed, and_assoc]

theorem predChroma_eq_fault : exec .predChroma s = .fault f ↔ Unfaulted s ∧
    InMb s ∧ s.mbflags.chromaDone = false ∧ (s.curmb.skip = false → ∀ k, 16 ≤ k → k < 24 → s.idctDoneAt k = true) ∧
      s.byteLength .topU ≤ s.chromaTopReach ∧ f = .outOfSpace (.byte .topU) s.chromaTopReach := by
  have hdone : s.idctAllDone 16 8 = true ↔ ∀ k, 16 ≤ k → k < 24 → s.idctDoneAt k = true :=
    idctAllDone_iff.trans ⟨fun h k hlo hhi => Nat.add_sub_of_le hlo ▸ h (k - 16) (by omega),
      fun h k hk => h (16 + k) (by omega) (by omega)⟩
  rw [exec_eq_fault, checksOf, predChromaChecks_clear, runOf, guarded_eq_fault, hdone]
  simp [Instr.wellFormed, and_assoc]

/-- A macroblock column of the frame keeps R180 and R201 inside `TOPY`: the last column reads nothing above-right of it (R69). -/
theorem lumaTopReach_lt (h : s.curmb.mbx.toNat < s.mbw) : s.lumaTopReach < s.byteLength .topY := by
  show s.lumaTopReach < s.width + 20
  unfold State.lumaTopReach
  unfold State.mbw at h ⊢
  split <;> omega

/-- A macroblock column of the frame keeps R181 and R206 inside `TOPU` and `TOPV` (R69). -/
theorem chromaTopReach_lt (h : s.curmb.mbx.toNat < s.mbw) : s.chromaTopReach < s.byteLength .topU := by
  show 8 * s.curmb.mbx.toNat + 7 < 8 * s.mbw
  omega

end Stops

/-- Settles O60: only four commands can stop (`stopping_commands`), each exactly as its `_eq_fault` lemma says; a prediction that stops
has lost the frame's columns, by `lumaTopReach_lt` and `chromaTopReach_lt`. -/
theorem outOfSpaceStops : Obligations.OutOfSpaceStops := by
  refine ⟨fun i s f h => ?_, fun i s f => ⟨fun h => ?_, ?_⟩⟩
  · rcases stopping_commands h with rfl | ⟨mbx, mby, rfl⟩ | rfl | rfl
    · obtain ⟨-, -, -, -, hcur, rfl⟩ := mbEnd_eq_fault.mp h
      exact .inl ⟨rfl, hcur, rfl⟩
    · obtain ⟨-, -, -, -, -, -, hcur, rfl⟩ := lfMb_eq_fault.mp h
      exact .inr (.inl ⟨⟨mbx, mby, rfl⟩, hcur.le, rfl⟩)
    · obtain ⟨-, -, -, -, hreach, rfl⟩ := predLuma_eq_fault.mp h
      exact .inr (.inr (.inl ⟨rfl, Nat.not_lt.mp fun hx => (lumaTopReach_lt hx).not_ge hreach, _, hreach, rfl⟩))
    · obtain ⟨-, -, -, -, hreach, rfl⟩ := predChroma_eq_fault.mp h
      exact .inr (.inr (.inr ⟨rfl, Nat.not_lt.mp fun hx => (chromaTopReach_lt hx).not_ge hreach, _, hreach, rfl⟩))
  · rcases stopping_commands h with rfl | ⟨mbx, mby, rfl⟩ | rfl | rfl
    · exact (mbEnd_eq_fault.mp h).imp_right fun h => .inl ⟨rfl, h⟩
    · exact (lfMb_eq_fault.mp h).imp_right fun h => .inr (.inl ⟨mbx, mby, rfl, h⟩)
    · exact (predLuma_eq_fault.mp h).imp_right fun h => .inr (.inr (.inl ⟨rfl, h⟩))
    · exact (predChroma_eq_fault.mp h).imp_right fun h => .inr (.inr (.inr ⟨rfl, h⟩))
  · rintro ⟨hf, ⟨rfl, h⟩ | ⟨mbx, mby, rfl, h⟩ | ⟨rfl, h⟩ | ⟨rfl, h⟩⟩
    exacts [mbEnd_eq_fault.mpr ⟨hf, h⟩, lfMb_eq_fault.mpr ⟨hf, h⟩, predLuma_eq_fault.mpr ⟨hf, h⟩, predChroma_eq_fault.mpr ⟨hf, h⟩]

/-! ### No step stops where the invariant holds -/

section NoStops

variable {i : Instr} {s : State}

/-- A command that may stop instead (R69) is not refused. -/
theorem guarded_ne_refused {p : Prop} [Decidable p] {u : State} {f : Fault} {r : Refusal} :
    (if p then (.next u : Result) else .fault f) ≠ .refused r := by
  split <;> simp

/-- No command is without a meaning. -/
theorem exec_ne_refused {r : Refusal} : exec i s ≠ .refused r := by
  have hrun : runOf i s ≠ .refused r := by
    cases i with
    | predLuma | predChroma | mbEnd | lfMb mbx mby => exact guarded_ne_refused
    | _ => nofun
  intro h
  rcases exec_cases h with ⟨-, hr⟩ | ⟨-, -, hr⟩ | ⟨-, -, c, -, hr⟩ | ⟨-, -, -, -, hr⟩
  · cases hr
  · cases hr
  · cases hr
  · exact hrun hr.symm

/-- The cursors of the invariant exclude every stop: an open macroblock is one of the frame, and filtering does not pass its end. -/
theorem exec_ne_fault {f : Fault} (hs : s.Cursors) : exec i s ≠ .fault f := by
  obtain ⟨-, hlf, -, hopen⟩ := hs
  intro h
  rcases stopping_commands h with rfl | ⟨mbx, mby, rfl⟩ | rfl | rfl
  · obtain ⟨-, ⟨-, ho⟩, -, -, hcur, -⟩ := mbEnd_eq_fault.mp h
    exact (hopen ho).1.not_ge hcur
  · obtain ⟨-, -, -, -, -, -, hcur, -⟩ := lfMb_eq_fault.mp h
    exact hcur.not_ge hlf
  · obtain ⟨-, ⟨-, ho⟩, -, -, hreach, -⟩ := predLuma_eq_fault.mp h
    exact (lumaTopReach_lt (hopen ho).2.1).not_ge hreach
  · obtain ⟨-, ⟨-, ho⟩, -, -, hreach, -⟩ := predChroma_eq_fault.mp h
    exact (chromaTopReach_lt (hopen ho).2.1).not_ge hreach

theorem exec_next (hs : s.Cursors) (i : Instr) : ∃ t, exec i s = .next t := by
  cases h : exec i s with
  | next t => exact ⟨t, rfl⟩
  | fault f => exact absurd h (exec_ne_fault hs)
  | refused r => exact absurd h exec_ne_refused

theorem takeWord_next (hs : s.Cursors) (w : CmdWord) : ∃ t, takeWord w s = .next t := by
  cases hd : decode w with
  | ok i => rw [takeWord_ok hd]; exact exec_next hs i
  | error e => exact ⟨_, takeWord_error hd⟩

theorem serve_next (hs : s.Cursors) (a : HostAction) : ∃ t, serve a s = .next t := by
  cases a with
  | command w => exact takeWord_next hs w
  | read sp i => exact ⟨_, rfl⟩
  | write sp i v => exact ⟨_, rfl⟩
  | reset => exact ⟨_, rfl⟩

end NoStops

/-- Settles O59: of the invariant the cursors suffice (`exec_ne_fault`), and taking an action from the queue leaves them. -/
theorem noStepStops : Obligations.NoStepStops := by
  intro s hs
  cases hq : s.inbox with
  | nil => exact ⟨s, step_idle hq⟩
  | cons a rest =>
    rw [step_cons hq]
    exact serve_next (inv_queues rest s.outbox hs).cursors a

end Sys2Proof.Machine

/-! # Proofs for spec/30_encoding.md: decoding and encoding are inverse (R80 to R84), the words that fault (R81, R83, R85) -/

namespace Sys2Proof

/-! ### Fields and bits -/

/-- Bit `n` of a word, from a field that covers it (R11). -/
theorem testBit_field {w : CmdWord} {hi lo n : Nat} (hlo : lo ≤ n) (hhi : n ≤ hi) :
    (field w hi lo).testBit (n - lo) = w.getLsbD n := by
  have inField : n - lo < hi + 1 - lo := by omega
  rw [field, Nat.testBit_mod_two_pow, decide_eq_true inField, Bool.true_and, Nat.testBit_div_two_pow, Nat.sub_add_cancel hlo,
    BitVec.testBit_toNat]

/-- A field read as bits has the field's number. -/
theorem bits_toNat (w : CmdWord) (lo n : Nat) : (bits w lo (n + 1)).toNat = field w (lo + n) lo := by
  have width : lo + n + 1 - lo = n + 1 := by omega
  rw [bits, BitVec.toNat_ofNat, field, width]

/-- A one-bit field read as a truth value has the field's number. -/
theorem flag_toNat (w : CmdWord) (n : Nat) : (flag w n).toNat = field w n n := by
  have oneBit : field w n n < 2 := by
    rw [field, Nat.add_sub_cancel_left]
    exact Nat.mod_lt _ (by decide)
  rw [flag]
  interval_cases field w n n <;> rfl

/-! ### The tables read backwards -/

/-- An opcode is selected by its own byte alone (R84). -/
theorem eq_byte_of_opcodeOf {n : Nat} {op : Opcode} (h : opcodeOf n = some op) : n = op.byte := by
  unfold opcodeOf at h
  split at h <;> cases h <;> rfl

theorem eq_code_of_lumaModeOf {n : Nat} {m : LumaMode} (h : lumaModeOf n = some m) : n = m.code := by
  unfold lumaModeOf at h
  split at h <;> cases h <;> rfl

theorem eq_code_of_chromaModeOf {n : Nat} {m : ChromaMode} (h : chromaModeOf n = some m) : n = m.code := by
  unfold chromaModeOf at h
  split at h <;> cases h <;> rfl

theorem eq_code_of_subModeOf {n : Nat} {m : SubMode} (h : subModeOf n = some m) : n = m.code := by
  unfold subModeOf at h
  split at h <;> cases h <;> rfl

theorem eq_code_of_factorOf {n : Nat} {f : Factor} (h : factorOf n = some f) : n = f.code := by
  unfold factorOf at h
  split at h <;> cases h <;> rfl

theorem opcodeOf_eq_none {n : Nat} (h : (0x07 ≤ n ∧ n ≤ 0x0F) ∨ (0x18 ≤ n ∧ n ≤ 0x1F) ∨ (0x22 ≤ n ∧ n ≤ 0xFE)) :
    opcodeOf n = none := by
  rw [Option.eq_none_iff_forall_ne_some]
  intro op ho
  have hn := eq_byte_of_opcodeOf ho
  cases op <;> simp only [Opcode.byte] at hn <;> omega

theorem lumaModeOf_eq_none {n : Nat} (h : 4 < n) : lumaModeOf n = none := by
  obtain ⟨k, rfl⟩ := Nat.exists_eq_add_of_le' h
  rfl

theorem subModeOf_eq_none {n : Nat} (h : 9 < n) : subModeOf n = none := by
  obtain ⟨k, rfl⟩ := Nat.exists_eq_add_of_le' h
  rfl

theorem factorOf_eq_none {n : Nat} (h : 5 < n) : factorOf n = none := by
  obtain ⟨k, rfl⟩ := Nat.exists_eq_add_of_le' h
  rfl

/-! ### What the coded fields of an accepted word say -/

section CodedFields

variable {w : CmdWord} {i : Instr}

theorem cfgSegq_of_fieldsOf (h : fieldsOf .cfgSegq w = some i) :
    ∃ f, factorOf (field w 42 40) = some f ∧ i = .cfgSegq (bits w 48 2) f (bits w 0 16) := by
  obtain ⟨f, hf, hi⟩ := Option.map_eq_some_iff.mp h
  exact ⟨f, hf, hi.symm⟩

theorem mbBegin_of_fieldsOf (h : fieldsOf .mbBegin w = some i) :
    ∃ l c, lumaModeOf (field w 18 16) = some l ∧ chromaModeOf (field w 13 12) = some c ∧
      i = .mbBegin (bits w 32 10) (bits w 20 10) l c (bits w 8 2) (flag w 0) := by
  rw [fieldsOf] at h
  split at h
  next l c hl hc => exact ⟨l, c, hl, hc, (Option.some.inj h).symm⟩
  · cases h

theorem bpred_of_fieldsOf (h : fieldsOf .bpred w = some i) :
    ∃ m : Nat → SubMode, (∀ k < 8, subModeField w k = some (m k)) ∧
      i = .bpred (flag w 48) (m 0) (m 1) (m 2) (m 3) (m 4) (m 5) (m 6) (m 7) := by
  rw [fieldsOf] at h
  split at h
  next m0 m1 m2 m3 m4 m5 m6 m7 h0 h1 h2 h3 h4 h5 h6 h7 =>
    refine ⟨fun k => [m0, m1, m2, m3, m4, m5, m6, m7].getD k .dc, fun k hk => ?_, (Option.some.inj h).symm⟩
    interval_cases k <;> assumption
  · cases h

end CodedFields

/-! ### A word is its opcode byte, its reserved bits and its fields -/

/-- The fields of each format, as the high and low bit of each, in the order the encoder places them (R82). -/
def Format.fieldRanges : Format → List (Nat × Nat)
  | .z => []
  | .fr => [(45, 32), (13, 0)]
  | .fl => [(32, 32), (13, 8), (2, 0)]
  | .sc => [(32, 32), (6, 0)]
  | .sg => [(49, 48), (40, 40), (15, 8), (6, 0)]
  | .sq => [(49, 48), (42, 40), (15, 0)]
  | .qd => [(49, 48), (46, 40), (24, 20), (19, 15), (14, 10), (9, 5), (4, 0)]
  | .mb => [(41, 32), (29, 20), (18, 16), (13, 12), (9, 8), (0, 0)]
  | .bp => [(48, 48), (3, 0), (7, 4), (11, 8), (15, 12), (19, 16), (23, 20), (27, 24), (31, 28)]
  | .co => [(52, 48), (43, 40), (15, 0)]
  | .bk => [(52, 48)]
  | .lf => [(41, 32), (29, 20)]

/-- Every bit of a word lies in the opcode byte, in a reserved range or in a field (R80, R82). -/
theorem ranges_cover (f : Format) : ∀ n < 64, ∃ r ∈ (63, 56) :: (f.reserved ++ f.fieldRanges), r.2 ≤ n ∧ n ≤ r.1 := by
  cases f <;> decide

/-- Words that agree on the opcode byte, on the reserved ranges of a format and on its fields are the same word. -/
theorem eq_of_fields_eq (f : Format) {w v : CmdWord}
    (h : ∀ r ∈ (63, 56) :: (f.reserved ++ f.fieldRanges), field w r.1 r.2 = field v r.1 r.2) : w = v := by
  refine BitVec.eq_of_getLsbD_eq fun n hn => ?_
  obtain ⟨r, hr, hlo, hhi⟩ := ranges_cover f n hn
  rw [← testBit_field hlo hhi, h r hr, testBit_field hlo hhi]

theorem reservedClear_iff {f : Format} {w : CmdWord} : reservedClear f w = true ↔ ∀ r ∈ f.reserved, field w r.1 r.2 = 0 := by
  simp [reservedClear]

/-- A reserved bit that is set is seen (R82). -/
theorem reservedClear_eq_false {f : Format} {w : CmdWord} {hi lo n : Nat} (hr : (hi, lo) ∈ f.reserved) (hlo : lo ≤ n) (hhi : n ≤ hi)
    (hn : w.getLsbD n = true) : reservedClear f w = false := by
  rw [Bool.eq_false_iff, Ne, reservedClear_iff]
  intro clear
  have bitClear : (field w hi lo).testBit (n - lo) = false := by rw [clear _ hr, Nat.zero_testBit]
  rw [testBit_field hlo hhi, hn] at bitClear
  cases bitClear

/-- The command read from a word has the word's opcode. -/
theorem opcode_of_fieldsOf {op : Opcode} {w : CmdWord} {i : Instr} (h : fieldsOf op w = some i) : i.opcode = op := by
  cases op
  case cfgSegq => obtain ⟨f, -, rfl⟩ := cfgSegq_of_fieldsOf h; rfl
  case mbBegin => obtain ⟨l, c, -, -, rfl⟩ := mbBegin_of_fieldsOf h; rfl
  case bpred => obtain ⟨m, -, rfl⟩ := bpred_of_fieldsOf h; rfl
  all_goals cases h; rfl

/-- The fields of a word are the ones the encoder places for the command read from it (R82). -/
theorem fieldRanges_of_fieldsOf {op : Opcode} {w : CmdWord} {i : Instr} (h : fieldsOf op w = some i) :
    op.format.fieldRanges.map (fun r => (r.2, field w r.1 r.2)) = i.fields := by
  cases op
  case cfgSegq =>
    obtain ⟨f, hf, rfl⟩ := cfgSegq_of_fieldsOf h
    simp [Opcode.format, Format.fieldRanges, Instr.fields, bits_toNat, eq_code_of_factorOf hf]
  case mbBegin =>
    obtain ⟨l, c, hl, hc, rfl⟩ := mbBegin_of_fieldsOf h
    simp [Opcode.format, Format.fieldRanges, Instr.fields, bits_toNat, flag_toNat, eq_code_of_lumaModeOf hl, eq_code_of_chromaModeOf hc]
  case bpred =>
    obtain ⟨m, hm, rfl⟩ := bpred_of_fieldsOf h
    have code : ∀ k < 8, (m k).code = field w (4 * k + 3) (4 * k) := fun k hk => (eq_code_of_subModeOf (hm k hk)).symm
    simp [Opcode.format, Format.fieldRanges, Instr.fields, flag_toNat, code]
  all_goals
    cases h
    simp [Opcode.format, Format.fieldRanges, Instr.fields, bits_toNat, flag_toNat]

/-! ### Encoding, then decoding -/

/-- The word of a command has the command's opcode byte and no reserved bit. -/
theorem encodedWord : ∀ i : Instr, Laws.EncodedWord.Statement i
  | .nop => Laws.EncodedWord.nop
  | .cfgFrame w h => Laws.EncodedWord.cfgFrame w h
  | .cfgFilter type level sharp => Laws.EncodedWord.cfgFilter type level sharp
  | .cfgSegctl segEn mdelta => Laws.EncodedWord.cfgSegctl segEn mdelta
  | .cfgSeg seg dv qlvl lflvl => Laws.EncodedWord.cfgSeg seg dv qlvl lflvl
  | .cfgSegq seg fsel qval => Laws.EncodedWord.cfgSegq seg fsel qval
  | .qderive seg yac dydc dy2dc dy2ac duvdc duvac => Laws.EncodedWord.qderive seg yac dydc dy2dc dy2ac duvdc duvac
  | .mbBegin mbx mby lmode cmode segid skip => Laws.EncodedWord.mbBegin mbx mby lmode cmode segid skip
  | .bpred half m0 m1 m2 m3 m4 m5 m6 m7 => Laws.EncodedWord.bpred half m0 m1 m2 m3 m4 m5 m6 m7
  | .coef blk zz val => Laws.EncodedWord.coef blk zz val
  | .iwht => Laws.EncodedWord.iwht
  | .idct blk => Laws.EncodedWord.idct blk
  | .predLuma => Laws.EncodedWord.predLuma
  | .predChroma => Laws.EncodedWord.predChroma
  | .mbEnd => Laws.EncodedWord.mbEnd
  | .lfMb mbx mby => Laws.EncodedWord.lfMb mbx mby
  | .lfFrame => Laws.EncodedWord.lfFrame
  | .reset => Laws.EncodedWord.reset

/-- The fields of the word of a command read back as the command, in range or not. -/
theorem fieldsOf_encode (i : Instr) : fieldsOf i.opcode (encode i) = some i := by
  cases i with
  | cfgFrame w h =>
    obtain ⟨-, f0, f1⟩ := fields_cfgFrame w h
    exact fieldsOf_cfgFrame w h f0 f1
  | cfgFilter type level sharp =>
    obtain ⟨-, f0, f1, f2⟩ := fields_cfgFilter type level sharp
    exact fieldsOf_cfgFilter type level sharp f0 f1 f2
  | cfgSegctl segEn mdelta =>
    obtain ⟨-, f0, f1⟩ := fields_cfgSegctl segEn mdelta
    exact fieldsOf_cfgSegctl segEn mdelta f0 f1
  | cfgSeg seg dv qlvl lflvl =>
    obtain ⟨-, f0, f1, f2, f3⟩ := fields_cfgSeg seg dv qlvl lflvl
    exact fieldsOf_cfgSeg seg dv qlvl lflvl f0 f1 f2 f3
  | cfgSegq seg fsel qval =>
    obtain ⟨-, f0, f1, f2⟩ := fields_cfgSegq seg fsel qval
    exact fieldsOf_cfgSegq seg fsel qval f0 f1 f2
  | qderive seg yac dydc dy2dc dy2ac duvdc duvac =>
    obtain ⟨-, f0, f1, f2, f3, f4, f5, f6⟩ := fields_qderive seg yac dydc dy2dc dy2ac duvdc duvac
    exact fieldsOf_qderive seg yac dydc dy2dc dy2ac duvdc duvac f0 f1 f2 f3 f4 f5 f6
  | mbBegin mbx mby lmode cmode segid skip =>
    obtain ⟨-, f0, f1, f2, f3, f4, f5⟩ := fields_mbBegin mbx mby lmode cmode segid skip
    exact fieldsOf_mbBegin mbx mby lmode cmode segid skip f0 f1 f2 f3 f4 f5
  | bpred half m0 m1 m2 m3 m4 m5 m6 m7 =>
    obtain ⟨-, f0, f1, f2, f3, f4, f5, f6, f7, f8⟩ := fields_bpred half m0 m1 m2 m3 m4 m5 m6 m7
    exact fieldsOf_bpred half m0 m1 m2 m3 m4 m5 m6 m7 f0 f1 f2 f3 f4 f5 f6 f7 f8
  | coef blk zz val =>
    obtain ⟨-, f0, f1, f2⟩ := fields_coef blk zz val
    exact fieldsOf_coef blk zz val f0 f1 f2
  | idct blk => exact fieldsOf_idct blk (fields_idct blk).2
  | lfMb mbx mby =>
    obtain ⟨-, f0, f1⟩ := fields_lfMb mbx mby
    exact fieldsOf_lfMb mbx mby f0 f1
  | nop | iwht | predLuma | predChroma | mbEnd | lfFrame | reset => rfl

/-- The word of a command decodes to the command where its fields are in range, and to `BAD_FIELD` elsewhere (R81, R83). -/
theorem decode_encode (i : Instr) : decode (encode i) = if i.wellFormed then .ok i else .error .badField := by
  obtain ⟨opcode, reserved⟩ := encodedWord i
  exact decode_of_fields (by rw [opcode, opcodeOf_byte]) reserved (fieldsOf_encode i)

/-- Settles O1: `decode_encode` at a command whose fields are in range. -/
theorem decodeOfEncode : Obligations.DecodeOfEncode := fun i hi => by rw [decode_encode, hi, if_pos rfl]

/-! ### Decoding, then encoding -/

/-- The only word with a command's opcode byte, clear reserved bits and the command's fields is its encoding. -/
theorem encode_eq_of_fieldsOf {op : Opcode} {w : CmdWord} {i : Instr} (ho : opcodeOf (field w 63 56) = some op)
    (hr : reservedClear op.format w = true) (hf : fieldsOf op w = some i) : encode i = w := by
  obtain rfl := opcode_of_fieldsOf hf
  obtain ⟨opcode, reserved⟩ := encodedWord i
  have fields := (fieldRanges_of_fieldsOf (fieldsOf_encode i)).trans (fieldRanges_of_fieldsOf hf).symm
  have sameOpcode : field (encode i) 63 56 = field w 63 56 := by rw [opcode, eq_byte_of_opcodeOf ho]
  have sameReserved : ∀ r ∈ i.opcode.format.reserved, field (encode i) r.1 r.2 = field w r.1 r.2 := fun r hm => by
    rw [reservedClear_iff.mp reserved r hm, reservedClear_iff.mp hr r hm]
  have sameFields : ∀ r ∈ i.opcode.format.fieldRanges, field (encode i) r.1 r.2 = field w r.1 r.2 := fun r hm =>
    (Prod.mk.inj (List.map_inj_left.mp fields r hm)).2
  exact eq_of_fields_eq _ (List.forall_mem_cons.mpr ⟨sameOpcode, List.forall_mem_append.mpr ⟨sameReserved, sameFields⟩⟩)

/-- Settles O2: an accepted word passed the three checks of R81 (`decode_ok`), so it is the encoding of its command
(`encode_eq_of_fieldsOf`). -/
theorem encodeOfDecode : Obligations.EncodeOfDecode := by
  intro w i h
  obtain ⟨op, ho, hr, hf, hw⟩ := decode_ok h
  exact ⟨hw, encode_eq_of_fieldsOf ho hr hf⟩

/-! ### The three decode faults (R81) -/

section DecodeFaults

variable {w : CmdWord} {op : Opcode}

theorem decode_illegalOpcode (ho : opcodeOf (field w 63 56) = none) : decode w = .error .illegalOpcode := by
  simp only [decode, ho]

theorem decode_reservedBits (ho : opcodeOf (field w 63 56) = some op) (hr : reservedClear op.format w = false) :
    decode w = .error .reservedBits := by
  simp only [decode, ho, hr, Bool.false_eq_true, if_false]

theorem decode_badField (ho : opcodeOf (field w 63 56) = some op) (hr : reservedClear op.format w = true)
    (hf : fieldsOf op w = none) : decode w = .error .badField := by
  simp only [decode, ho, hr, hf, if_true]

theorem fieldsOf_mbBegin_eq_none (h : 4 < field w 18 16) : fieldsOf .mbBegin w = none := by
  rw [Option.eq_none_iff_forall_ne_some]
  intro i hi
  obtain ⟨l, c, hl, -, -⟩ := mbBegin_of_fieldsOf hi
  cases (lumaModeOf_eq_none h).symm.trans hl

theorem fieldsOf_bpred_eq_none {k : Nat} (hk : k < 8) (h : 9 < field w (4 * k + 3) (4 * k)) : fieldsOf .bpred w = none := by
  rw [Option.eq_none_iff_forall_ne_some]
  intro i hi
  obtain ⟨m, hm, -⟩ := bpred_of_fieldsOf hi
  cases (subModeOf_eq_none h).symm.trans (hm k hk)

theorem fieldsOf_cfgSegq_eq_none (h : 5 < field w 42 40) : fieldsOf .cfgSegq w = none := by
  rw [fieldsOf, factorOf_eq_none h, Option.map_none]

end DecodeFaults

/-! ### The words of R86 -/

/-- Settles O3: the decoder run on each word. -/
theorem specWordsDecode : Obligations.SpecWordsDecode := by
  unfold Obligations.SpecWordsDecode
  decide

end Sys2Proof

namespace Sys2Proof.Machine

/-- A step that takes a word no command decodes from is fault entry with the word's decode fault (R282). -/
theorem step_decodeError {s : State} {w : CmdWord} {rest : List HostAction} {e : DecodeError} (hs : Unfaulted s) (hq : s.inbox = .command w :: rest)
    (hd : decode w = .error e) :
    step s = .next (faultEntry { s with inbox := rest } (decodeFault e) w) :=
  ((step_command hq).trans (takeWord_error hd)).trans (congrArg _ (raise_eq_faultEntry _ w hs))

/-- Settles O4: an unassigned opcode byte selects no command (`opcodeOf_eq_none`), the first check of R81. -/
theorem illegalOpcodeFaults : Obligations.IllegalOpcodeFaults :=
  fun _ _ _ hs hq hb => step_decodeError hs hq (decode_illegalOpcode (opcodeOf_eq_none hb))

/-- Settles O5: the reserved range that holds the set bit is not 0 (`reservedClear_eq_false`), and it is checked before the fields. -/
theorem reservedBitFaults : Obligations.ReservedBitFaults :=
  fun _ _ _ _ _ _ _ hs hq ho hr hlo hhi hn => step_decodeError hs hq (decode_reservedBits ho (reservedClear_eq_false hr hlo hhi hn))

/-- Settles O6: the range checks on whole fields by `decode_encode`, the codes that name nothing by `decode_badField`. -/
theorem outOfRangeFieldFaults : Obligations.OutOfRangeFieldFaults := by
  intro s w rest hs hq hbad
  have bad : decode w = .error .badField := by
    rcases hbad with ⟨i, hi, rfl⟩ | ⟨hb, hr, hl⟩ | ⟨hb, hr, k, hk, hm⟩ | ⟨hb, hr, hf⟩
    · rw [decode_encode, hi, if_neg Bool.false_ne_true]
    · exact decode_badField (op := .mbBegin) (by rw [hb]; rfl) hr (fieldsOf_mbBegin_eq_none hl)
    · exact decode_badField (op := .bpred) (by rw [hb]; rfl) hr (fieldsOf_bpred_eq_none hk hm)
    · exact decode_badField (op := .cfgSegq) (by rw [hb]; rfl) hr (fieldsOf_cfgSegq_eq_none hf)
  exact step_decodeError hs hq bad

end Sys2Proof.Machine

/-! # Proofs for spec/40_config.md: NOP (R101), the commands that write one register or one segment (R104 to R107), QDERIVE (R108 to R114) -/

namespace Sys2Proof.Machine

section Configuration

variable {i : Instr} {s : State}

/-- A command without state checks (R285), its fields in range, has its effect. -/
theorem exec_run_of_noChecks (hi : i ≠ .reset) (hs : Unfaulted s) (hw : i.wellFormed = true) (hc : checksOf i = noChecks) :
    exec i s = runOf i s := by
  refine exec_run hi hs hw ?_
  rw [hc]
  exact List.forall_mem_nil _

/-! ### NOP -/

theorem exec_nop (s : State) : exec .nop s = .next s := by
  rw [exec_eq_command (by decide)]
  cases hf : s.status.fault with
  | true => exact command_faulted hf
  | false => exact command_run hf rfl rfl

/-- The zero word is the only word NOP is read from (R82, R101). -/
theorem reservedClear_nop_of_ne_zero {w : CmdWord} (ho : field w 63 56 = 0) (hw : w ≠ 0) :
    reservedClear Opcode.nop.format w = false := by
  rw [Bool.eq_false_iff]
  intro clear
  have onlyWord : encode .nop = w := encode_eq_of_fieldsOf (op := .nop) (by rw [ho]; rfl) clear rfl
  exact hw (onlyWord.symm.trans (by decide))

/-- Settles O12: `exec_nop`, and every bit of a word of NOP outside the opcode byte is reserved. -/
theorem nopChangesNothing : Obligations.NopChangesNothing :=
  ⟨exec_nop, by decide, fun _ ho hw => decode_reservedBits (op := .nop) (by rw [ho]; rfl) (reservedClear_nop_of_ne_zero ho hw)⟩

/-! ### One register, one segment -/

/-- Settles O15: both commands run, and widening `MDELTA` to 8 bits keeps its signed value. -/
theorem filterAndSegctlCommandsWriteTheirRegister : Obligations.FilterAndSegctlCommandsWriteTheirRegister := by
  constructor
  · intro type level sharp s hs
    exact exec_run_of_noChecks (by simp) hs rfl rfl
  · intro segEn mdelta s hs hm
    have inRange : (Instr.cfgSegctl segEn mdelta).wellFormed = true := decide_eq_true hm
    exact ⟨_, exec_run_of_noChecks (by simp) hs inRange rfl, rfl, rfl, BitVec.toInt_signExtend_of_le (by decide)⟩

/-- One factor of a row after one is replaced (R107). -/
theorem get_put (q : QuantRow) (f g : Factor) (v : BitVec 16) : (q.put f v).get g = if g = f then v else q.get g := by
  cases f <;> cases g <;> rfl

/-- Settles O16: both commands run, and `segReg_setSegReg`, `quantRow_setQuantRow` and `get_put` read the written segment back. -/
theorem segmentCommandsWriteTheirSegment : Obligations.SegmentCommandsWriteTheirSegment := by
  constructor
  · intro seg dv qlvl lflvl s hs hq hl
    have inRange : (Instr.cfgSeg seg dv qlvl lflvl).wellFormed = true := by simp [Instr.wellFormed, qlvlOk, levelOk, hq, hl]
    refine ⟨_, exec_run_of_noChecks (by simp) hs inRange rfl, rfl, ?_, fun n hn => ?_⟩
    · rw [segReg_setSegReg, if_pos rfl]
    · rw [segReg_setSegReg, if_neg hn]
  · intro seg fsel qval s hs
    refine ⟨_, exec_run_of_noChecks (by simp) hs rfl rfl, rfl, ?_, fun f hf => ?_, fun n hn => ?_⟩
    · rw [quantRow_setQuantRow, if_pos rfl, get_put, if_pos rfl]
    · rw [quantRow_setQuantRow, if_pos rfl, get_put, if_neg hf]
    · rw [quantRow_setQuantRow, if_neg hn]

/-! ### The tables -/

/-- The table read through its list at the clamped index, as the statements write it (R108, R111). -/
theorem toList_getD_clamp (table : Vector (BitVec 16) 128) (i : Int) :
    (table.toList.getD (if i < 0 then 0 else if 127 < i then 127 else i).toNat 0).toInt = quantAt table i := by
  have inTable : (qclamp i).val < table.toList.length := by simp
  exact congrArg BitVec.toInt ((List.getD_eq_getElem _ _ inTable).trans (Vector.getElem_toList inTable))

/-- The entries of `DC_QUANT` at its default (R114). -/
theorem quantAt_dcQuantTable (i : Int) : 4 ≤ quantAt Config.dcQuantTable i ∧ quantAt Config.dcQuantTable i ≤ 157 := by
  have entries : ∀ k : Fin 128, 4 ≤ Config.dcQuantTable[k].toInt ∧ Config.dcQuantTable[k].toInt ≤ 157 := by decide
  exact entries (qclamp i)

/-- The entries of `AC_QUANT` at its default (R114). -/
theorem quantAt_acQuantTable (i : Int) : 4 ≤ quantAt Config.acQuantTable i ∧ quantAt Config.acQuantTable i ≤ 284 := by
  have entries : ∀ k : Fin 128, 4 ≤ Config.acQuantTable[k].toInt ∧ Config.acQuantTable[k].toInt ≤ 284 := by decide
  exact entries (qclamp i)

/-! ### The derived factors -/

theorem quantBase_eq (s : State) (seg : BitVec 2) (yac : BitVec 7) :
    quantBase s seg yac = if s.segctl.segEn = true ∧ (s.segReg seg).dv = true then (s.segReg seg).qlvl.toInt + yac.toNat
      else if s.segctl.segEn = true then (s.segReg seg).qlvl.toInt else yac.toNat := by
  simp only [quantBase, Bool.and_eq_true]

section Factors

variable {cfg : Config} {base dydc dy2dc dy2ac duvdc duvac : Int}

/-- A factor that is a table entry is that entry. -/
theorem factor16_quantAt (table : Vector (BitVec 16) 128) (i : Int) : (factor16 (quantAt table i)).toInt = quantAt table i :=
  factor16_toInt (quantAt_bounds table i)

theorem deriveFactors_ydc : (deriveFactors cfg base dydc dy2dc dy2ac duvdc duvac).ydc.toInt = quantAt cfg.dcQuant (base + dydc) :=
  factor16_quantAt _ _

theorem deriveFactors_yac : (deriveFactors cfg base dydc dy2dc dy2ac duvdc duvac).yac.toInt = quantAt cfg.acQuant base :=
  factor16_quantAt _ _

theorem deriveFactors_uvac : (deriveFactors cfg base dydc dy2dc dy2ac duvdc duvac).uvac.toInt = quantAt cfg.acQuant (base + duvac) :=
  factor16_quantAt _ _

theorem deriveFactors_uvdc :
    (deriveFactors cfg base dydc dy2dc dy2ac duvdc duvac).uvdc.toInt = min (quantAt cfg.dcQuant (base + duvdc)) 132 := by
  have entry := quantAt_bounds cfg.dcQuant (base + duvdc)
  exact factor16_toInt (by omega)

theorem deriveFactors_y2dc (lo : -32768 ≤ quantAt cfg.dcQuant (base + dy2dc) * 2) (hi : quantAt cfg.dcQuant (base + dy2dc) * 2 ≤ 32767) :
    (deriveFactors cfg base dydc dy2dc dy2ac duvdc duvac).y2dc.toInt = quantAt cfg.dcQuant (base + dy2dc) * 2 :=
  factor16_toInt ⟨lo, hi⟩

/-- The post-clamp bounds any `i16`, a free value too (R112, entry 13). -/
theorem deriveFactors_y2ac : (deriveFactors cfg base dydc dy2dc dy2ac duvdc duvac).y2ac.toInt =
    max (factor16 (y2acRaw cfg (base + dy2ac))).toInt 8 := by
  have low := BitVec.le_toInt (factor16 (y2acRaw cfg (base + dy2ac)))
  have high := BitVec.toInt_lt (x := factor16 (y2acRaw cfg (base + dy2ac)))
  have fits : -32768 ≤ max (factor16 (y2acRaw cfg (base + dy2ac))).toInt 8 ∧
      max (factor16 (y2acRaw cfg (base + dy2ac))).toInt 8 ≤ 32767 := by omega
  rw [← factor16_toInt fits, factor16, if_pos fits]
  rfl

/-- `Y2AC` where the spec states it: a dividend that is not negative, a quotient that fits (R111). -/
theorem deriveFactors_y2ac_exact (pos : 0 ≤ quantAt cfg.acQuant (base + dy2ac))
    (fits : quantAt cfg.acQuant (base + dy2ac) * 155 / 100 ≤ 32767) :
    (deriveFactors cfg base dydc dy2dc dy2ac duvdc duvac).y2ac.toInt = max (quantAt cfg.acQuant (base + dy2ac) * 155 / 100) 8 := by
  have quotient : y2acRaw cfg (base + dy2ac) = quantAt cfg.acQuant (base + dy2ac) * 155 / 100 := hundredth_eq (by omega)
  rw [deriveFactors_y2ac, quotient, factor16_toInt (by omega)]

/-- With the tables of R114 every factor lies in 4..440 (R113). -/
theorem deriveFactors_bounds (hdc : cfg.dcQuant = Config.dcQuantTable) (hac : cfg.acQuant = Config.acQuantTable) (f : Factor) :
    4 ≤ ((deriveFactors cfg base dydc dy2dc dy2ac duvdc duvac).get f).toInt ∧
      ((deriveFactors cfg base dydc dy2dc dy2ac duvdc duvac).get f).toInt ≤ 440 := by
  have dc : ∀ i, 4 ≤ quantAt cfg.dcQuant i ∧ quantAt cfg.dcQuant i ≤ 157 := hdc ▸ quantAt_dcQuantTable
  have ac : ∀ i, 4 ≤ quantAt cfg.acQuant i ∧ quantAt cfg.acQuant i ≤ 284 := hac ▸ quantAt_acQuantTable
  cases f with simp only [QuantRow.get]
  | ydc =>
    have := dc (base + dydc)
    rw [deriveFactors_ydc]; omega
  | yac =>
    have := ac base
    rw [deriveFactors_yac]; omega
  | y2dc =>
    have := dc (base + dy2dc)
    rw [deriveFactors_y2dc] <;> omega
  | y2ac =>
    have := ac (base + dy2ac)
    rw [deriveFactors_y2ac_exact] <;> omega
  | uvdc =>
    have := dc (base + duvdc)
    rw [deriveFactors_uvdc]; omega
  | uvac =>
    have := ac (base + duvac)
    rw [deriveFactors_uvac]; omega

end Factors

/-! ### QDERIVE -/

section Qderive

variable {seg : BitVec 2} {yac : BitVec 7} {dydc dy2dc dy2ac duvdc duvac : BitVec 5}

/-- The row QDERIVE writes into its segment (R113). -/
def derivedRow (s : State) (seg : BitVec 2) (yac : BitVec 7) (dydc dy2dc dy2ac duvdc duvac : BitVec 5) : QuantRow :=
  deriveFactors s.params (quantBase s seg yac) dydc.toInt dy2dc.toInt dy2ac.toInt duvdc.toInt duvac.toInt

theorem exec_qderive (hs : Unfaulted s) (hw : Instr.wellFormed (.qderive seg yac dydc dy2dc dy2ac duvdc duvac) = true) :
    exec (.qderive seg yac dydc dy2dc dy2ac duvdc duvac) s =
      .next (s.setQuantRow seg (derivedRow s seg yac dydc dy2dc dy2ac duvdc duvac)) :=
  exec_run_of_noChecks (by simp) hs hw rfl

theorem wellFormed_qderive (h : ∀ d ∈ [dydc, dy2dc, dy2ac, duvdc, duvac], -15 ≤ d.toInt) :
    Instr.wellFormed (.qderive seg yac dydc dy2dc dy2ac duvdc duvac) = true := by
  simpa [Instr.wellFormed, deltaOk, and_assoc] using h

end Qderive

end Configuration

/-- Settles O17: the segment reads back as `derivedRow`, whose factors the `deriveFactors` lemmas give; the statement's tables are
`quantAt` (`toList_getD_clamp`) and its base is `quantBase`. -/
theorem qderiveFactors : Obligations.QderiveFactors := by
  intro seg yac dydc dy2dc dy2ac duvdc duvac s hs hd
  simp only [toList_getD_clamp, ← quantBase_eq]
  refine ⟨⟨_, exec_qderive hs (wellFormed_qderive hd), rfl, ?_⟩, fun h => ?_, fun h => ?_⟩
  · rw [quantRow_setQuantRow, if_pos rfl]
    exact ⟨deriveFactors_ydc, deriveFactors_yac, deriveFactors_y2dc, deriveFactors_y2ac_exact, deriveFactors_uvdc, deriveFactors_uvac,
      fun n hn => (quantRow_setQuantRow ..).trans (if_neg hn)⟩
  · rw [h]; exact quantAt_dcQuantTable
  · rw [h]; exact quantAt_acQuantTable

/-- Settles O18: the post-clamp bounds both factors whatever the tables hold; with the default tables `deriveFactors_bounds`. -/
theorem qderiveFactorBounds : Obligations.QderiveFactorBounds := by
  intro seg yac dydc dy2dc dy2ac duvdc duvac s t hs hw h
  cases (exec_qderive hs hw).symm.trans h
  rw [quantRow_setQuantRow, if_pos rfl, derivedRow, deriveFactors_y2ac, deriveFactors_uvdc]
  exact ⟨le_max_right _ _, min_le_right _ _, deriveFactors_bounds⟩

end Sys2Proof.Machine

/-! # Proofs for spec/41_macroblock.md: MB_BEGIN (R131), BPRED (R133), MB_END (R135, R136), their state checks (R284, R285) -/

namespace Sys2Proof.Machine

section Macroblock

variable {i : Instr} {s : State}

/-! ### The state checks -/

/-- A command whose first failing check is `c` enters the fault with its own word and changes nothing else (R282, R284). -/
theorem exec_faultEntry {c : FaultCode} (hi : i ≠ .reset) (hs : Unfaulted s) (hw : i.wellFormed = true)
    (hc : firstFault (checksOf i s) = some c) : exec i s = .next (faultEntry s c (encode i)) :=
  (exec_check hi hs hw hc).trans (congrArg _ (raise_eq_faultEntry c _ hs))

theorem bpredChecks_clear : (∀ p ∈ bpredChecks s, p.1 = false) ↔
    InMb s ∧ s.curmb.lmode = .b ∧ s.mbflags.lumaDone = false := by
  simp [bpredChecks, State.noFrame, State.noMb, State.isB, and_assoc]

/-- The order of the checks of MB_BEGIN (R131). -/
theorem firstFault_mbBeginChecks (mbx mby : BitVec 10) : firstFault (mbBeginChecks mbx mby s) =
    if s.status.frameValid = false then some .noFrame
    else if s.status.mbOpen = true then some .mbOpen
    else if s.mbcur.toNat = s.totalMb then some .frameDone
    else if s.mbw ≤ mbx.toNat ∨ mby.toNat * s.mbw + mbx.toNat ≠ s.mbcur.toNat then some .order
    else none := by
  simp [mbBeginChecks, firstFault_cons, State.noFrame, State.outOfOrder]

/-- The order of the checks of BPRED (R133). -/
theorem firstFault_bpredChecks : firstFault (bpredChecks s) =
    if s.status.frameValid = false then some .noFrame
    else if s.status.mbOpen = false then some .noMb
    else if s.curmb.lmode ≠ .b then some .mode
    else if s.mbflags.lumaDone = true then some .order
    else none := by
  simp [bpredChecks, firstFault_cons, State.noFrame, State.noMb, State.isB]

/-- The order of the checks of MB_END (R135). -/
theorem firstFault_mbEndChecks : firstFault (mbEndChecks s) =
    if s.status.frameValid = false then some .noFrame
    else if s.status.mbOpen = false then some .noMb
    else if s.mbflags.lumaDone = false ∨ s.mbflags.chromaDone = false then some .order
    else none := by
  simp [mbEndChecks, firstFault_cons, State.noFrame, State.noMb]

/-! ### BPRED -/

/-- One mode after BPRED: the half it names is written from its list, the other keeps its modes (R133). -/
theorem getElem_putHalf (half : Bool) (ms : List SubMode) (old : Vector SubMode 16) (k : Fin 16) :
    (putHalf half ms old)[k] = if k.val / 8 = half.toNat then ms.getD (k.val % 8) .dc else old[k] := by
  simp [putHalf]

/-! ### MB_END -/

/-- The end of a row leaves 129 in every byte of the left borders (R136): nothing is listed there. -/
theorem read_endRow_left (m : Memory) (j : Nat) :
    m.endRow.read .leftY j = 129 ∧ m.endRow.read .leftU j = 129 ∧ m.endRow.read .leftV j = 129 := ⟨rfl, rfl, rfl⟩

/-- MB_END leaves every space but the left borders alone (R135, R136). -/
theorem read_closeMb_other {sp : ByteSpace} (hy : sp ≠ .leftY) (hu : sp ≠ .leftU) (hv : sp ≠ .leftV) (j : Nat) :
    s.closeMb.mem.read sp j = s.mem.read sp j :=
  read_congr (not_imp_comm.mp changed_by_closeMb (by simp [hy, hu, hv]))

/-- MB_END after its checks, its cursor inside the frame, closes the macroblock (R135). -/
theorem exec_mbEnd (hs : Unfaulted s) (hmb : InMb s) (hl : s.mbflags.lumaDone = true) (hc : s.mbflags.chromaDone = true)
    (hcur : s.mbcur.toNat < s.totalMb) : exec .mbEnd s = .next s.closeMb :=
  (exec_run (i := .mbEnd) (by simp) hs rfl (mbEndChecks_clear.mpr ⟨hmb, hl, hc⟩)).trans (if_pos hcur)

end Macroblock

/-- Settles O19: the checks pass (`mbBeginChecks_clear`), and the effect is `openMb`. -/
theorem mbBeginOpensMacroblock : Obligations.MbBeginOpensMacroblock := by
  intro mbx mby lmode cmode segid skip s hs hv ho hd hx hxy
  refine ⟨_, exec_run (by simp) hs rfl (mbBeginChecks_clear.mpr ⟨hv, ho, hd, hx, hxy⟩), rfl, fun k => ?_, coefAt_of_zero rfl⟩
  rw [openMb_bpred]
  exact Vector.getElem_replicate _

/-- Settles O20: the checks pass (`bpredChecks_clear`), and `getElem_putHalf` reads each half back. -/
theorem bpredWritesHalf : Obligations.BpredWritesHalf := by
  intro half m0 m1 m2 m3 m4 m5 m6 m7 s hs hmb hb hl
  refine ⟨_, exec_run (by simp) hs rfl (bpredChecks_clear.mpr ⟨hmb, hb, hl⟩), rfl, fun k => ?_⟩
  rw [getElem_putHalf]
  by_cases low : k.val < 8
  · have hdiv : k.val / 8 = 0 := by omega
    have hmod : k.val % 8 = k.val := by omega
    cases half <;> simp [low, hdiv, hmod]
  · have hdiv : k.val / 8 = 1 := by omega
    have hmod : k.val % 8 = k.val - 8 := by omega
    have high : 8 ≤ k.val := by omega
    cases half <;> simp [low, high, hdiv, hmod]

/-- Settles O21: the effect is `closeMb`; the record reads back by the laws of the sparse store, the borders by
`read_endRow_left` and `read_closeMb_other`. -/
theorem mbEndClosesMacroblock : Obligations.MbEndClosesMacroblock := by
  rintro s hs hmb hl hc ⟨-, hinfo⟩ hcur
  refine ⟨s.closeMb, exec_mbEnd hs hmb hl hc hcur, rfl, toNat_mbcur_succ hcur, lookup_store_same hinfo,
    fun i hi => lookup_store_other hi, fun inner => if_neg inner,
    fun last => ⟨fun j => ?_, fun sp hy hu hv => read_closeMb_other hy hu hv⟩⟩
  rw [closeMb_mem, if_pos last]
  exact read_endRow_left s.mem j

/-- Settles O22: each clause is fault entry (`exec_faultEntry`) with the first failing check, read off the three `firstFault` equations. -/
theorem macroblockFaultPriority : Obligations.MacroblockFaultPriority := by
  refine ⟨fun mbx mby lmode cmode segid skip s hs => ?_, fun half m0 m1 m2 m3 m4 m5 m6 m7 s hs => ?_, fun s hs => ?_⟩
  · have entry {c : FaultCode} := exec_faultEntry (i := .mbBegin mbx mby lmode cmode segid skip) (c := c) (by simp) hs rfl
    simp only [checksOf, firstFault_mbBeginChecks] at entry
    exact ⟨fun hv => entry (by simp [hv]), fun hv ho => entry (by simp [hv, ho]), fun hv ho hd => entry (by simp [hv, ho, hd]),
      fun hv ho hd hxy => entry (by simp [hv, ho, hd, -not_or, hxy])⟩
  · have entry {c : FaultCode} := exec_faultEntry (i := .bpred half m0 m1 m2 m3 m4 m5 m6 m7) (c := c) (by simp) hs rfl
    simp only [checksOf, firstFault_bpredChecks] at entry
    exact ⟨fun hv => entry (by simp [hv]), fun hv ho => entry (by simp [hv, ho]), fun ⟨hv, ho⟩ hb => entry (by simp [hv, ho, hb]),
      fun ⟨hv, ho⟩ hb hl => entry (by simp [hv, ho, hb, hl])⟩
  · have entry {c : FaultCode} := exec_faultEntry (i := .mbEnd) (c := c) (by simp) hs rfl
    simp only [checksOf, firstFault_mbEndChecks] at entry
    exact ⟨fun hv => entry (by simp [hv]), fun hv ho => entry (by simp [hv, ho]),
      fun ⟨hv, ho⟩ hd => entry (by simp [hv, ho, hd])⟩

end Sys2Proof.Machine

/-! # Proofs for spec/42_residual.md: COEF (R150 to R153), IWHT (R155 to R157), IDCT (R158 to R162), their state checks (R284, R285) -/

namespace Sys2Proof.Machine

section Transforms

variable {F G : Quad → Quad} {f g : Int → Int → Int → Int → Int × Int × Int × Int} {k : Nat}

/-! ### Entries of a pass -/

theorem entry_rowPass (f : Quad → Quad) (b : Block) (hk : k < 16) :
    (rowPass f b).entry k = (wrap32 ((f (b.row (k / 4))).entry (k % 4))).toInt := by
  simp [Block.entry, rowPass, Vector.getD, hk]

theorem entry_columnPass (f : Quad → Quad) (b : Block) (hk : k < 16) :
    (columnPass f b).entry k = (wrap32 ((f (b.column (k % 4))).entry (k / 4))).toInt := by
  simp [Block.entry, columnPass, Vector.getD, hk]

theorem entry_eq_getElem (b : Block) (k : Fin 16) : b.entry k = b[k].toInt := by
  simp [Block.entry, Vector.getD]

theorem block_ext {b b' : Block} (h : ∀ k : Fin 16, b[k].toInt = b'[k].toInt) : b = b' :=
  Vector.ext fun k hk => BitVec.eq_of_toInt_eq (h ⟨k, hk⟩)

/-! ### The in-place pseudocode (R156, R159) -/

/-- The four results of one line of the pseudocode, as a `Quad`. -/
def Quad.ofTuple (r : Int × Int × Int × Int) : Quad := ⟨r.1, r.2.1, r.2.2.1, r.2.2.2⟩

/-- One in-place line leaves entry `p` of its results at its `p`-th index. -/
theorem inPlace_apply {e : Nat → Nat} {b : Nat → Int} {p : Nat} (hp : p < 4) (hk : ∀ j < 4, k = e j ↔ j = p) :
    inPlace f (e 0) (e 1) (e 2) (e 3) b k =
      (wrap32 ((Quad.ofTuple (f (b (e 0)) (b (e 1)) (b (e 2)) (b (e 3)))).entry p)).toInt := by
  have h0 := hk 0 (by decide)
  have h1 := hk 1 (by decide)
  have h2 := hk 2 (by decide)
  have h3 := hk 3 (by decide)
  interval_cases p <;> simp [inPlace, h0, h1, h2, h3, Quad.ofTuple, Quad.entry, wrap32]

theorem inPlace_apply_other {e : Nat → Nat} {b : Nat → Int} (hk : ∀ j < 4, k ≠ e j) :
    inPlace f (e 0) (e 1) (e 2) (e 3) b k = b k := by
  simp [inPlace, hk]

/-- `n` in-place lines, where index `k` stands at position `pos k` of line `line k`: each line reads entries that no line before it
has written, so the in-place pass is a pass from the old array to a new one (entry 9). -/
theorem foldl_inPlace (f : Int → Int → Int → Int → Int × Int × Int × Int) (e : Nat → Nat → Nat) (line pos : Nat → Nat)
    (hpos : ∀ k < 16, pos k < 4) (he : ∀ i < 4, ∀ j < 4, ∀ k < 16, k = e i j ↔ line k = i ∧ j = pos k)
    (hlt : ∀ i < 4, ∀ j < 4, e i j < 16) (b : Nat → Int) {n : Nat} (hn : n ≤ 4) (hk : k < 16) :
    (List.range n).foldl (fun b i => inPlace f (e i 0) (e i 1) (e i 2) (e i 3) b) b k =
      if line k < n then
        (wrap32 ((Quad.ofTuple (f (b (e (line k) 0)) (b (e (line k) 1)) (b (e (line k) 2)) (b (e (line k) 3)))).entry (pos k))).toInt
      else b k := by
  induction n generalizing k with
  | zero => rfl
  | succ n ih =>
    have hn4 : n < 4 := hn
    have unread : ∀ j < 4, (List.range n).foldl (fun b i => inPlace f (e i 0) (e i 1) (e i 2) (e i 3) b) b (e n j) = b (e n j) := by
      intro j hj
      have hline : line (e n j) = n := ((he n hn4 j hj _ (hlt n hn4 j hj)).mp rfl).1
      rw [ih hn4.le (hlt n hn4 j hj), if_neg (by omega)]
    rw [List.range_succ, List.foldl_append, List.foldl_cons, List.foldl_nil]
    by_cases hline : line k = n
    · rw [inPlace_apply (hpos k hk) fun j hj => by rw [he n hn4 j hj k hk, and_iff_right hline], unread 0 (by decide),
        unread 1 (by decide), unread 2 (by decide), unread 3 (by decide), if_pos (by omega), hline]
    · rw [inPlace_apply_other fun j hj hkj => hline ((he n hn4 j hj k hk).mp hkj).1, ih hn4.le hk]
      exact if_congr (by omega) rfl rfl

/-- The column pass of the pseudocode is `columnPass`. -/
theorem foldl_inPlace_columns (hF : ∀ x0 x1 x2 x3, F ⟨x0, x1, x2, x3⟩ = Quad.ofTuple (f x0 x1 x2 x3))
    (b : Block) (hk : k < 16) :
    (List.range 4).foldl (fun b i => inPlace f i (4 + i) (8 + i) (12 + i) b) b.entry k = (columnPass F b).entry k := by
  have pass := foldl_inPlace f (fun i j => 4 * j + i) (· % 4) (· / 4) (by omega) (by omega) (by omega) b.entry (n := 4) le_rfl hk
  have hline : k % 4 < 4 := Nat.mod_lt _ (by decide)
  simp only [Nat.mul_zero, Nat.zero_add, Nat.reduceMul, hline, if_true] at pass
  rw [pass, entry_columnPass F b hk, Block.column, hF]

/-- The row pass of the pseudocode is `rowPass`. -/
theorem foldl_inPlace_rows (hG : ∀ x0 x1 x2 x3, G ⟨x0, x1, x2, x3⟩ = Quad.ofTuple (g x0 x1 x2 x3))
    {a : Nat → Int} {b : Block} (hab : ∀ k < 16, a k = b.entry k) (hk : k < 16) :
    (List.range 4).foldl (fun b i => inPlace g (4 * i) (4 * i + 1) (4 * i + 2) (4 * i + 3) b) a k = (rowPass G b).entry k := by
  have pass := foldl_inPlace g (fun i j => 4 * i + j) (· / 4) (· % 4) (by omega) (by omega) (by omega) a (n := 4) le_rfl hk
  have hline : k / 4 < 4 := by omega
  simp only [Nat.add_zero, hline, if_true] at pass
  rw [pass, hab _ (by omega), hab _ (by omega), hab _ (by omega), hab _ (by omega), entry_rowPass G b hk, Block.row, hG]

/-- Both passes, for any butterflies that agree with the pseudocode's line by line. -/
theorem rowPass_columnPass_eq_inPlacePasses
    (hF : ∀ x0 x1 x2 x3, F ⟨x0, x1, x2, x3⟩ = Quad.ofTuple (f x0 x1 x2 x3))
    (hG : ∀ x0 x1 x2 x3, G ⟨x0, x1, x2, x3⟩ = Quad.ofTuple (g x0 x1 x2 x3)) (b : Block) (k : Fin 16) :
    (rowPass G (columnPass F b))[k].toInt = inPlacePasses f g b.entry k := by
  rw [← entry_eq_getElem]
  exact (foldl_inPlace_rows hG (fun _ hk => foldl_inPlace_columns hF b hk) k.isLt).symm

/-! ### The block with one entry (R161) -/

/-- The block whose entry 0 is `d`, the others 0. -/
abbrev dcBlock (d : Coef) : Block := Block.zero.set 0 d

theorem dcBlock_zero : dcBlock 0 = Block.zero := by decide

theorem entry_dcBlock (d : Coef) (hk : k < 16) : (dcBlock d).entry k = if k = 0 then d.toInt else 0 := by
  rw [entry_eq_getElem _ ⟨k, hk⟩, Fin.getElem_fin, Vector.getElem_set, apply_ite BitVec.toInt, Block.zero, Vector.getElem_replicate]
  exact if_congr eq_comm rfl rfl

/-- Four equal entries. -/
def Quad.constant (x : Int) : Quad := ⟨x, x, x, x⟩

@[simp] theorem entry_constant (x : Int) (p : Nat) : (Quad.constant x).entry p = x := by
  unfold Quad.entry; split <;> rfl

/-- The rounded eighth of a 32-bit DC fits 32 bits. -/
theorem wrap32_eighth (d : Coef) {r : Int} (lo : 0 ≤ r) (hi : r < 8) : (wrap32 ((d.toInt + r) / 8)).toInt = (d.toInt + r) / 8 := by
  have hlo : -2147483648 ≤ d.toInt := BitVec.le_toInt d
  have hhi : d.toInt < 2147483648 := BitVec.toInt_lt
  rw [wrap32, BitVec.toInt_ofInt, Int.bmod_eq_of_le] <;> norm_num <;> omega

/-- Two passes that spread a lone first entry over its line, the second rounding, make a DC-only block a constant block (R161): the
column pass copies the DC down column 0, so every row starts with it. -/
theorem rowPass_columnPass_dcBlock {r : Int} (hF : ∀ x, F ⟨x, 0, 0, 0⟩ = Quad.constant x)
    (hG : ∀ x, G ⟨x, 0, 0, 0⟩ = Quad.constant ((x + r) / 8)) (lo : 0 ≤ r) (hi : r < 8) (d : Coef) (k : Fin 16) :
    (rowPass G (columnPass F (dcBlock d)))[k].toInt = (d.toInt + r) / 8 := by
  have column {i : Nat} (hi : i < 4) : (dcBlock d).column i = ⟨if i = 0 then d.toInt else 0, 0, 0, 0⟩ := by
    simp (disch := omega) [Block.column, entry_dcBlock]
  have columns {i : Nat} (hi : i < 16) : (columnPass F (dcBlock d)).entry i = if i % 4 = 0 then d.toInt else 0 := by
    rw [entry_columnPass F _ hi, column (Nat.mod_lt _ (by decide)), hF, entry_constant]
    split <;> simp [wrap32]
  have row {i : Nat} (hi : i < 4) : (columnPass F (dcBlock d)).row i = ⟨d.toInt, 0, 0, 0⟩ := by
    simp (disch := omega) [Block.row, columns]
  rw [← entry_eq_getElem, entry_rowPass G _ k.isLt, row (by omega), hG, entry_constant, wrap32_eighth d lo hi]

theorem idct4_dcBlock (d : Coef) (k : Fin 16) : (idct4 (dcBlock d))[k].toInt = (d.toInt + 4) / 8 :=
  rowPass_columnPass_dcBlock (fun x => by simp [dctButterfly, asr, Quad.constant])
    (fun x => by simp [dctButterfly, asr, Quad.round, Quad.constant]) (by decide) (by decide) d k

theorem iwht4_dcBlock (d : Coef) (k : Fin 16) : (iwht4 (dcBlock d))[k].toInt = (d.toInt + 3) / 8 :=
  rowPass_columnPass_dcBlock (fun x => by simp [whtButterfly, Quad.constant])
    (fun x => by simp [whtButterfly, asr, Quad.round, Quad.constant]) (by decide) (by decide) d k

theorem eq_zero_of_entries {b : Block} (h : ∀ k : Fin 16, b[k].toInt = 0) : b = Block.zero :=
  block_ext fun k => (h k).trans (by simp [Block.zero])

/-- A block is determined by the integers it holds. -/
theorem toList_toInt_injective : Function.Injective fun b : Block => b.toList.map BitVec.toInt :=
  fun _ _ h => Vector.toList_inj.mp (List.map_injective_iff.mpr (fun _ _ => BitVec.eq_of_toInt_eq) h)

/-- The input of R161 (d) as a block. -/
def firstRowBlock : Block := #v[100, 20, BitVec.ofInt 32 (-30), 5, 0, 0, 0, 0, 0, 0, 0, 0, 0, 0, 0, 0]

end Transforms

section Residual

variable {i : Instr} {s : State} {l : List (Bool × FaultCode)}

/-! ### The state checks -/

/-- The three checks COEF, IWHT and IDCT begin with, before those of their own (R285). -/
def residualChecks (s : State) (own : List (Bool × FaultCode)) : List (Bool × FaultCode) :=
  (s.noFrame, .noFrame) :: (s.noMb, .noMb) :: (s.curmb.skip, .skipped) :: own

theorem checksOf_residual (hi : i = .iwht ∨ (∃ b, i = .idct b) ∨ ∃ b z v, i = .coef b z v) (s : State) :
    ∃ own, checksOf i s = residualChecks s own := by
  rcases hi with rfl | ⟨b, rfl⟩ | ⟨b, z, v, rfl⟩ <;> exact ⟨_, rfl⟩

theorem firstFault_residualChecks : firstFault (residualChecks s l) =
    if s.status.frameValid = false then some .noFrame
    else if s.status.mbOpen = false then some .noMb
    else if s.curmb.skip = true then some .skipped
    else firstFault l := by
  simp [residualChecks, firstFault_cons, State.noFrame, State.noMb]

theorem firstFault_residualChecks_own (hmb : InMb s) (hk : s.curmb.skip = false) : firstFault (residualChecks s l) = firstFault l := by
  obtain ⟨hv, ho⟩ := hmb
  simp [firstFault_residualChecks, hv, ho, hk]

/-- The order of COEF's own checks (R150). -/
theorem firstFault_coefChecks (hmb : InMb s) (hk : s.curmb.skip = false) (blk zz : Nat) : firstFault (coefChecks blk zz s) =
    if (blk = 24 ∧ s.curmb.lmode = .b) ∨ (blk < 16 ∧ s.curmb.lmode ≠ .b ∧ zz = 0) then some .mode
    else if (blk = 24 ∧ s.mbflags.whtDone = true) ∨ (blk < 24 ∧ s.idctDoneAt blk = true) then some .order
    else none := by
  refine (firstFault_residualChecks_own hmb hk).trans ?_
  simp [firstFault_cons, State.isB, and_assoc, ite_or]

/-- The order of IWHT's own checks (R155). -/
theorem firstFault_iwhtChecks (hmb : InMb s) (hk : s.curmb.skip = false) : firstFault (iwhtChecks s) =
    if s.curmb.lmode = .b then some .mode
    else if s.mbflags.whtDone = true ∨ s.idctAnyDone 0 16 = true then some .order
    else none := by
  refine (firstFault_residualChecks_own hmb hk).trans ?_
  simp [firstFault_cons, State.isB]

/-- IDCT's own checks (R158). -/
theorem firstFault_idctChecks (hmb : InMb s) (hk : s.curmb.skip = false) (blk : Nat) : firstFault (idctChecks blk s) =
    if s.idctDoneAt blk = true ∨ (blk < 16 ∧ s.curmb.lmode ≠ .b ∧ s.mbflags.whtDone = false) then some .order
    else none := by
  refine (firstFault_residualChecks_own hmb hk).trans ?_
  simp [firstFault_cons, State.isB, and_assoc, ite_or]

theorem idctAnyDone_iff {lo n : Nat} : s.idctAnyDone lo n = true ↔ ∃ k, k < n ∧ s.idctDoneAt (lo + k) = true := by
  simp [State.idctAnyDone]

theorem isB_eq_false : s.isB = false ↔ s.curmb.lmode ≠ .b := by simp [State.isB]

/-! ### COEF -/

theorem dqFactor_eq_factorFor (blk zz : Nat) (q : QuantRow) : dqFactor blk zz q = factorFor q blk zz := by
  unfold dqFactor factorFor dqPair
  rcases Nat.eq_zero_or_pos zz with rfl | pos
  · simp only [lt_irrefl, if_false, if_true]
    split_ifs <;> rfl
  · simp only [pos, pos.ne', if_false, if_true]
    split_ifs <;> rfl

/-- `COEF[b'][k']` after `COEF[b][k] <- v`. -/
theorem coefAt_setCoef {b k : Nat} (hb : b < 25) (hk : k < 16) (v : Coef) (b' k' : Nat) :
    (s.setCoef b k v).coefAt b' k' = if b' = b ∧ k' = k then v else s.coefAt b' k' := by
  rw [State.coefAt, State.setCoef, coefBlock_setCoefBlock]
  by_cases hbb : b' = b
  · simp [hbb, hb, hk, getD_setIfInBounds, State.coefAt]
  · simp [hbb, State.coefAt]

theorem zigzag_lt (zz : BitVec 4) : zigzag zz.toNat < 16 := by
  revert zz; decide

/-! ### IWHT -/

/-- `COEF[b]` after IWHT (R155, R157). -/
theorem coefBlock_doIwht (s : State) (b : Nat) : s.doIwht.coefBlock b =
    if b < 16 then (s.coefBlock b).set 0 ((iwht4 (s.coefBlock 24)).getD b 0)
    else if b = 24 then iwht4 (s.coefBlock 24) else s.coefBlock b := by
  by_cases hb : b < 25
  · simp [State.coefBlock, doIwht_coef, scatter, Vector.getD, hb]
  · have h16 : ¬ b < 16 := by omega
    have h24 : b ≠ 24 := by omega
    simp [State.coefBlock, Vector.getD, hb, h16, h24]

/-! ### IDCT -/

/-- The state after IDCT of block `b` (R158). -/
def State.doIdct (s : State) (b : Nat) : State := (s.setCoefBlock b (idct4 (s.coefBlock b))).setIdctDone b

theorem coefBlock_doIdct (s : State) (b b' : Nat) :
    (s.doIdct b).coefBlock b' = if b' = b ∧ b < 25 then idct4 (s.coefBlock b) else s.coefBlock b' :=
  coefBlock_setCoefBlock s b b' _

theorem coefBlock_doIdct_other {b b' : Nat} (h : b' ≠ b) : (s.doIdct b).coefBlock b' = s.coefBlock b' := by
  rw [coefBlock_doIdct, if_neg fun both => h both.1]

theorem idctDoneAt_doIdct {b : Nat} (hb : b < 24) (b' : Nat) :
    (s.doIdct b).idctDoneAt b' = (decide (b' = b) || s.idctDoneAt b') := by
  by_cases h : b' = b
  · subst h
    simp only [State.doIdct, State.idctDoneAt, setIdctDone_idctDone, BitVec.getLsbD_or, BitVec.getLsbD_ofNat, Nat.testBit_two_pow]
    simp [hb]
  · rw [State.doIdct, idctDoneAt_setIdctDone h]
    simp [h, State.idctDoneAt]

/-- A second IDCT, of another block, transforms what the block held before the first. -/
theorem doIdct_doIdct {a b : Nat} (h : b ≠ a) :
    (s.doIdct a).doIdct b = ((s.doIdct a).setCoefBlock b (idct4 (s.coefBlock b))).setIdctDone b := by
  rw [State.doIdct, coefBlock_doIdct_other h]

/-- IDCTs of two blocks write different blocks from their own contents, and different bits (R162). -/
theorem doIdct_comm {a b : Nat} (h : a ≠ b) : (s.doIdct a).doIdct b = (s.doIdct b).doIdct a := by
  rw [doIdct_doIdct h.symm, doIdct_doIdct h]
  simp only [State.doIdct, State.setCoefBlock, State.setIdctDone]
  congr 1
  · rw [BitVec.or_assoc, BitVec.or_comm (BitVec.ofNat 24 _), BitVec.or_assoc]
  · exact Vector.toArray_inj.mp (by simpa using Array.setIfInBounds_comm _ _ h)

/-- The checks of one IDCT read nothing that the IDCT of another block writes (R158). -/
theorem idctChecks_clear_doIdct {a b : Nat} (ha : a < 24) (h : b ≠ a) :
    (∀ p ∈ idctChecks b (s.doIdct a), p.1 = false) ↔ ∀ p ∈ idctChecks b s, p.1 = false := by
  rw [idctChecks_clear, idctChecks_clear, idctDoneAt_doIdct ha, decide_eq_false h, Bool.false_or]
  rfl

/-- IDCT of a block that passes its checks. -/
theorem exec_idct {blk : BitVec 5} (hs : Unfaulted s) (hb : blk.toNat < 24) (hc : ∀ p ∈ idctChecks blk.toNat s, p.1 = false) :
    exec (.idct blk) s = .next (s.doIdct blk.toNat) :=
  exec_run (by simp) hs (decide_eq_true (by omega)) hc

/-- An IDCT that leaves no fault has passed its checks and run. -/
theorem idct_of_exec {blk : BitVec 5} {t : State} (hs : Unfaulted s) (h : exec (.idct blk) s = .next t) (ht : Unfaulted t) :
    blk.toNat < 24 ∧ (∀ p ∈ idctChecks blk.toNat s, p.1 = false) ∧ t = s.doIdct blk.toNat := by
  obtain ⟨hw, hc, hr⟩ := exec_ran h (by simp) hs ht
  have hb : blk.toNat ≤ 23 := of_decide_eq_true hw
  cases hr
  exact ⟨by omega, hc, rfl⟩

end Residual

/-- Settles O23: the checks pass (`coefChecks_clear`), the factor is the model's own selection (`dqFactor_eq_factorFor`), and the
store reads back by `coefAt_setCoef`. -/
theorem coefDequantizes : Obligations.CoefDequantizes := by
  intro blk zz val s hs hmb hblk hk hy2 hdc hdone
  have hb : blk.toNat < 25 := by omega
  have clear := coefChecks_clear (blk := blk.toNat) (zz := zz.toNat).mpr
    ⟨hmb, hk, fun h => isB_eq_false.mpr (hy2 h).1, fun h hB hz => isB_eq_false.mp hB (hdc h hz), fun h => (hy2 h).2, hdone⟩
  refine ⟨_, exec_run (i := .coef blk zz val) (by simp) hs (decide_eq_true hblk) clear, rfl, ?_, fun b k other => ?_⟩
  · rw [← dqFactor_eq_factorFor]
    exact (coefAt_setCoef hb (zigzag_lt zz) _ _ _).trans (if_pos ⟨rfl, rfl⟩)
  · exact (coefAt_setCoef hb (zigzag_lt zz) _ _ _).trans (if_neg (not_and_or.mpr other))

/-- Settles O24: the checks pass (`iwhtChecks_clear`), and `coefBlock_doIwht` gives every block of the store. -/
theorem iwhtScatters : Obligations.IwhtScatters := by
  intro s hs hmb hk hm hw hdone
  have hany : s.idctAnyDone 0 16 = false := by
    rw [← Bool.not_eq_true, idctAnyDone_iff]
    rintro ⟨k, hk, hset⟩
    simp [hdone k hk] at hset
  refine ⟨s.doIwht, exec_run (i := .iwht) (by simp) hs rfl (iwhtChecks_clear.mpr ⟨hmb, hk, isB_eq_false.mpr hm, hw, hany⟩), rfl,
    coefBlock_doIwht s 24, fun k hk => ?_, fun b k hb other => ?_⟩
  · simp [State.coefAt, coefBlock_doIwht, hk, Vector.getD]
  · rw [State.coefAt, coefBlock_doIwht]
    by_cases hluma : b < 16
    · have hk0 : k ≠ 0 := other.resolve_left (by omega)
      rw [if_pos hluma, State.coefAt]
      simp [Vector.getD, hk0.symm]
    · rw [if_neg hluma, if_neg (by omega), State.coefAt]

/-- Settles O25: the checks pass (`idctChecks_clear`), and the effect is `doIdct`. -/
theorem idctTransformsBlock : Obligations.IdctTransformsBlock := by
  intro blk s hs hmb hblk hk hdone horder
  have hb : blk.toNat < 24 := by omega
  have clear := idctChecks_clear.mpr ⟨hmb, hk, hdone, fun h hB => horder h (isB_eq_false.mp hB)⟩
  exact ⟨s.doIdct blk.toNat, exec_idct hs hb clear, rfl, (coefBlock_doIdct ..).trans (if_pos ⟨rfl, by omega⟩),
    fun b h => coefBlock_doIdct_other h, idctDoneAt_doIdct hb⟩

/-- Settles O27: the DC clause is `idct4_dcBlock` and `iwht4_dcBlock`, the zero block its case of DC 0; the last clause is one
block, evaluated. -/
theorem transformProperties : Obligations.TransformProperties := by
  refine ⟨eq_zero_of_entries fun k => ?_, eq_zero_of_entries fun k => ?_, fun d k => ⟨idct4_dcBlock d k, iwht4_dcBlock d k⟩,
    fun b hb => ?_⟩
  · rw [← dcBlock_zero, idct4_dcBlock]; decide
  · rw [← dcBlock_zero, iwht4_dcBlock]; decide
  · have hrow : b = firstRowBlock := toList_toInt_injective (hb.trans (by decide))
    rw [hrow]
    decide

/-- Settles O28: line by line the butterflies are the pseudocode's, so the passes are (`rowPass_columnPass_eq_inPlacePasses`). -/
theorem transformsAgreeWithPseudocode : Obligations.TransformsAgreeWithPseudocode :=
  ⟨rowPass_columnPass_eq_inPlacePasses (fun _ _ _ _ => rfl) (fun _ _ _ _ => rfl),
    rowPass_columnPass_eq_inPlacePasses (fun _ _ _ _ => rfl) (fun _ _ _ _ => rfl)⟩

/-- Settles O29: each IDCT passes its checks before the other or after it (`idctChecks_clear_doIdct`), and their effects commute
(`doIdct_comm`). -/
theorem idctOrderIsFree : Obligations.IdctOrderIsFree := by
  intro a b s s1 s2 hab hs h1 hs1 h2 hs2
  have hne : a.toNat ≠ b.toNat := fun h => hab (BitVec.eq_of_toNat_eq h)
  obtain ⟨ha, hca, rfl⟩ := idct_of_exec hs h1 hs1
  obtain ⟨hb, hcb, rfl⟩ := idct_of_exec hs1 h2 hs2
  have hcb' := (idctChecks_clear_doIdct ha hne.symm).mp hcb
  refine ⟨s.doIdct b.toNat, exec_idct hs hb hcb', hs, ?_⟩
  have hca' := (idctChecks_clear_doIdct hb hne).mpr hca
  rw [exec_idct (s := s.doIdct b.toNat) hs ha hca', doIdct_comm hne.symm]

/-- Settles O26: each clause is fault entry (`exec_faultEntry`) with the first failing check, read off the `firstFault` equations. -/
theorem residualFaultPriority : Obligations.ResidualFaultPriority := by
  refine ⟨fun i s hs hw hi => ?_, fun blk zz val s hs hmb hk hb => ?_, fun s hs hmb hk => ?_, fun blk s hs hmb hk hb bad => ?_⟩
  · obtain ⟨own, hown⟩ := checksOf_residual hi s
    have hreset : i ≠ .reset := by rintro rfl; simp at hi
    have entry {c : FaultCode} := exec_faultEntry (c := c) hreset hs hw
    simp only [hown, firstFault_residualChecks] at entry
    exact ⟨fun hv => entry (by simp [hv]), fun hv ho => entry (by simp [hv, ho]), fun ⟨hv, ho⟩ hk => entry (by simp [hv, ho, hk])⟩
  · have entry {c : FaultCode} := exec_faultEntry (i := .coef blk zz val) (c := c) (by simp) hs (decide_eq_true hb)
    simp only [checksOf, firstFault_coefChecks hmb hk] at entry
    exact ⟨fun mode => entry (if_pos mode), fun mode order => entry ((if_neg mode).trans (if_pos order))⟩
  · have entry {c : FaultCode} := exec_faultEntry (i := .iwht) (c := c) (by simp) hs rfl
    simp only [checksOf, firstFault_iwhtChecks hmb hk] at entry
    refine ⟨fun mode => entry (if_pos mode), fun mode order => entry ((if_neg mode).trans (if_pos ?_))⟩
    simpa [idctAnyDone_iff] using order
  · refine exec_faultEntry (i := .idct blk) (by simp) hs (decide_eq_true hb) ?_
    rw [checksOf, firstFault_idctChecks hmb hk, if_pos bad]

end Sys2Proof.Machine

/-! # Proofs for spec/43_intra_pred.md: the edges (R180, R181), the predictors (R183 to R198), PRED_LUMA (R200 to R202), PRED_CHROMA
(R205 to R207), what a prediction reads (R208), the state checks (R284, R285) -/

namespace Sys2Proof.Machine

/-! ### The edges -/

section BuiltEdges

variable {s : State} {mbx mby r c : Nat}

theorem at_buildLuma_above (hc : c < 21) : (buildLuma s mbx mby).at 0 c = lumaAbove s mbx mby c :=
  at_build (by omega) hc

theorem at_buildLuma_left (h1 : 1 ≤ r) (hr : r < 17) : (buildLuma s mbx mby).at r 0 = lumaLeft s mbx r := by
  rw [buildLuma, at_build (by omega) (by omega), if_neg (by omega), if_pos ⟨rfl, hr⟩]

theorem at_buildLuma_phantom (hr : r = 4 ∨ r = 8 ∨ r = 12) (h17 : 17 ≤ c) (hc : c < 21) :
    (buildLuma s mbx mby).at r c = lumaAbove s mbx mby c := by
  rw [buildLuma, at_build (by omega) hc, if_neg (by omega), if_neg (by omega), if_pos ⟨hr, h17⟩]

/-- Every cell R180 does not name is 0. -/
theorem at_buildLuma_zero (h1 : 1 ≤ r) (hr : r < 21) (hc : c < 21) (hleft : c = 0 → 17 ≤ r)
    (hphantom : 17 ≤ c → r ≠ 4 ∧ r ≠ 8 ∧ r ≠ 12) : (buildLuma s mbx mby).at r c = 0 := by
  rw [buildLuma, at_build hr hc, if_neg (by omega), if_neg (by omega), if_neg (by omega)]

variable {top left : ByteSpace}

theorem at_buildChroma_above (hc : c < 9) : (buildChroma s top left mbx mby).at 0 c =
    if mby = 0 then 127 else if c = 0 then (if mbx = 0 then 129 else s.mem.read left 0) else s.mem.read top (8 * mbx + c - 1) :=
  at_build (by omega) hc

theorem at_buildChroma_left (h1 : 1 ≤ r) (hr : r < 9) :
    (buildChroma s top left mbx mby).at r 0 = if mbx = 0 then 129 else s.mem.read left r := by
  rw [buildChroma, at_build hr (by omega), if_neg (by omega), if_pos rfl]

end BuiltEdges

/-- Settles O31: each clause reads one part of `BUILD_LUMA` (`at_buildLuma_above` and its siblings). -/
theorem lumaEdges : Obligations.LumaEdges := by
  intro s mbx mby
  refine ⟨fun c hc h0 => ?_, fun h0 => ?_, fun h0 c h1 hc => ?_, fun h0 c h17 hc hlast => ?_, fun h0 c h17 hc hinner => ?_,
    fun r h1 hr => at_buildLuma_left h1 hr, fun r hr c h17 hc => ?_,
    fun r c h1 hr hc hleft hphantom => at_buildLuma_zero h1 hr hc hleft hphantom⟩
  · rw [at_buildLuma_above hc, lumaAbove, if_pos h0]
  · rw [at_buildLuma_above (by omega), lumaAbove, if_neg h0, if_pos rfl]
  · rw [at_buildLuma_above (by omega), lumaAbove, if_neg h0, if_neg (by omega), if_pos hc]
  · rw [at_buildLuma_above hc, lumaAbove, if_neg h0, if_neg (by omega), if_neg (by omega), if_pos hlast]
  · rw [at_buildLuma_above hc, lumaAbove, if_neg h0, if_neg (by omega), if_neg (by omega), if_neg hinner]
  · rw [at_buildLuma_phantom (by simpa using hr) h17 hc, at_buildLuma_above hc]

/-! ### The 16×16 and 8×8 predictors -/

section BigPredictors

variable {ws e : Scratch} {k : BigMode} {sh mbx mby m r c : Nat}

theorem sumAbove_le (ws : Scratch) (n : Nat) : ws.sumAbove n ≤ 255 * n := by
  have h := List.sum_le_card_nsmul ((List.range n).map fun c => (ws.at 0 (1 + c)).toNat) 255 (by simp; omega)
  simpa [Scratch.sumAbove, Nat.mul_comm] using h

theorem sumLeft_le (ws : Scratch) (n : Nat) : ws.sumLeft n ≤ 255 * n := by
  have h := List.sum_le_card_nsmul ((List.range n).map fun r => (ws.at (1 + r) 0).toNat) 255 (by simp; omega)
  simpa [Scratch.sumLeft, Nat.mul_comm] using h

/-- One pixel of `PREDN(k, N = 2^sh)` as the integer the rules give, from the edges of the scratch `e` (R183 to R186). -/
def bigPixel (k : BigMode) (sh mbx mby : Nat) (e : Scratch) (r c : Nat) : Int :=
  match k with
  | .dc =>
      if 0 < mby ∧ 0 < mbx then ((e.sumAbove (2 ^ sh) + e.sumLeft (2 ^ sh) + 2 ^ sh) / 2 ^ (sh + 1) : Nat)
      else if 0 < mby then ((e.sumAbove (2 ^ sh) + 2 ^ (sh - 1)) / 2 ^ sh : Nat)
      else if 0 < mbx then ((e.sumLeft (2 ^ sh) + 2 ^ (sh - 1)) / 2 ^ sh : Nat)
      else 128
  | .v => (e.at 0 (1 + c)).toNat
  | .h => (e.at (1 + r) 0).toNat
  | .tm => max 0 (min 255 (((e.at (1 + r) 0).toNat : Int) + (e.at 0 (1 + c)).toNat - (e.at 0 0).toNat))

/-- The averages of R185 are averages of bytes, so narrowing them to a byte loses nothing. -/
theorem dcValue_toNat (hsh : 0 < sh) : ((dcValue ws sh mbx mby).toNat : Int) = bigPixel .dc sh mbx mby ws r c := by
  have above := sumAbove_le ws (2 ^ sh)
  have left := sumLeft_le ws (2 ^ sh)
  have pos : 0 < 2 ^ sh := Nat.two_pow_pos sh
  have half : 2 ^ (sh - 1) < 2 ^ sh := Nat.pow_lt_pow_right (by omega) (by omega)
  have narrow {a n : Nat} (h : a < n * 256) : (BitVec.ofNat 8 (a / n)).toNat = a / n := by
    rw [BitVec.toNat_ofNat, Nat.mod_eq_of_lt (Nat.div_lt_of_lt_mul h)]
  simp only [dcValue, bigPixel, gt_iff_lt]
  split_ifs
  · rw [narrow (by rw [pow_succ]; omega)]
  · rw [narrow (by omega)]
  · rw [narrow (by omega)]
  · rfl

/-- With neither edge inside the frame DC is 128 (R185). -/
theorem bigPixel_dc_topLeft (hx : mbx = 0) (hy : mby = 0) : bigPixel .dc sh mbx mby e r c = 128 := by simp [bigPixel, hx, hy]

/-- A cell outside the block is not predicted. -/
theorem at_predN_outside (h : ws.Square m) (hr : r < m) (hc : c < m) (hout : r = 0 ∨ c = 0 ∨ 2 ^ sh < r ∨ 2 ^ sh < c) :
    (predN k sh mbx mby ws).at r c = ws.at r c := by
  have outside : ¬ (1 ≤ r ∧ r < 1 + 2 ^ sh ∧ 1 ≤ c ∧ c < 1 + 2 ^ sh) := by omega
  cases k <;> (rw [predN, at_region h hr hc, if_neg outside])

/-- A cell of the block is predicted from the edges (R183 to R186). -/
theorem at_predN_toNat (h : ws.Square m) (hm : 2 ^ sh < m) (hsh : 0 < sh) (hr : r < 2 ^ sh) (hc : c < 2 ^ sh) :
    (((predN k sh mbx mby ws).at (1 + r) (1 + c)).toNat : Int) = bigPixel k sh mbx mby ws r c := by
  have inside : 1 ≤ 1 + r ∧ 1 + r < 1 + 2 ^ sh ∧ 1 ≤ 1 + c ∧ 1 + c < 1 + 2 ^ sh := by omega
  have cell {g : Nat → Nat → Byte → Byte} :
      (ws.region 1 1 (2 ^ sh) g).at (1 + r) (1 + c) = g r c (ws.at (1 + r) (1 + c)) := by
    rw [at_region h (by omega) (by omega), if_pos inside, Nat.add_sub_cancel_left, Nat.add_sub_cancel_left]
  cases k with
  | dc => rw [predN, cell]; exact dcValue_toNat hsh
  | v => rw [predN, cell]; rfl
  | h => rw [predN, cell]; rfl
  | tm => rw [predN, cell]; exact clip255_toNat _

/-- The prediction is a function of the edges. -/
theorem bigPixel_congr (hr : r < 2 ^ sh) (hc : c < 2 ^ sh)
    (he : ∀ i j, i ≤ 2 ^ sh → j ≤ 2 ^ sh → i = 0 ∨ j = 0 → e.at i j = ws.at i j) :
    bigPixel k sh mbx mby e r c = bigPixel k sh mbx mby ws r c := by
  have above {j : Nat} (hj : j < 2 ^ sh) : e.at 0 (1 + j) = ws.at 0 (1 + j) := he _ _ (by omega) (by omega) (.inl rfl)
  have left {i : Nat} (hi : i < 2 ^ sh) : e.at (1 + i) 0 = ws.at (1 + i) 0 := he _ _ (by omega) (by omega) (.inr rfl)
  cases k with
  | dc =>
    have sumA : e.sumAbove (2 ^ sh) = ws.sumAbove (2 ^ sh) :=
      congrArg List.sum (List.map_congr_left fun j hj => by rw [above (List.mem_range.mp hj)])
    have sumL : e.sumLeft (2 ^ sh) = ws.sumLeft (2 ^ sh) :=
      congrArg List.sum (List.map_congr_left fun i hi => by rw [left (List.mem_range.mp hi)])
    simp only [bigPixel, sumA, sumL]
  | v => simp only [bigPixel, above hc]
  | h => simp only [bigPixel, left hr]
  | tm => simp only [bigPixel, above hc, left hr, he 0 0 (by omega) (by omega) (.inl rfl)]

end BigPredictors

/-! ### The finished luma scratch -/

section LumaScratch

variable {s : State} {ws : Scratch} {i r c : Nat}

/-- Cell `[r][c]` of the luma scratch is a pixel of luma block `i` (R16). -/
abbrev InLumaBlock (i r c : Nat) : Prop :=
  1 + 4 * (i / 4) ≤ r ∧ r < 1 + 4 * (i / 4) + 4 ∧ 1 + 4 * (i % 4) ≤ c ∧ c < 1 + 4 * (i % 4) + 4

theorem at_addLumaResidue_outside (h : ws.Square 21) (hr : r < 21) (hc : c < 21) (hout : ¬ InLumaBlock i r c) :
    (addLumaResidue s ws i).at r c = ws.at r c :=
  (at_addResidue h hr hc).trans (if_neg hout)

/-- A cell outside luma block `i` is neither predicted nor given a residue with it. -/
theorem at_reconSub_outside (h : ws.Square 21) (hr : r < 21) (hc : c < 21) (hout : ¬ InLumaBlock i r c) :
    (reconSub s ws i).at r c = ws.at r c :=
  (at_addLumaResidue_outside (square_predSub h) hr hc hout).trans ((at_predSub h hr hc).trans (if_neg hout))

/-- Every luma block lies inside the macroblock. -/
theorem not_inLumaBlock (hi : i ∈ List.range 16) (hout : r = 0 ∨ c = 0 ∨ 16 < r ∨ 16 < c) : ¬ InLumaBlock i r c := by
  have := List.mem_range.mp hi
  omega

/-- A cell outside the macroblock keeps its edge value in every mode (R180, R200). -/
theorem at_lumaScratch_outside (hr : r < 21) (hc : c < 21) (hout : r = 0 ∨ c = 0 ∨ 16 < r ∨ 16 < c) :
    s.lumaScratch.at r c = (buildLuma s s.curmb.mbx.toNat s.curmb.mby.toNat).at r c := by
  rw [State.lumaScratch, reconLuma]
  split
  · exact at_foldl_other (fun _ _ => square_reconSub) _
      (fun i hi ws hws => at_reconSub_outside hws hr hc (not_inLumaBlock hi hout)) square_buildLuma
  · rw [at_foldl_other (fun _ _ => square_addLumaResidue) _
      (fun i hi ws hws => at_addLumaResidue_outside hws hr hc (not_inLumaBlock hi hout)) (square_predN square_buildLuma),
      at_predN_outside square_buildLuma hr hc hout]

/-- A pixel of a macroblock whose mode is not B: prediction plus residue, clipped once (R183 to R186, R199, R200). -/
theorem at_lumaScratch_toNat {k : BigMode} (hk : bigOfLuma s.curmb.lmode = some k) (hr : r < 16) (hc : c < 16) :
    ((s.lumaScratch.at (1 + r) (1 + c)).toNat : Int) =
      max 0 (min 255 (bigPixel k 4 s.curmb.mbx.toNat s.curmb.mby.toNat (buildLuma s s.curmb.mbx.toNat s.curmb.mby.toNat) r c
        + (s.coefAt (4 * (r / 4) + c / 4) (4 * (r % 4) + c % 4)).toInt)) := by
  rw [State.lumaScratch, reconLuma, hk]
  dsimp only
  rw [at_foldl_addLumaResidue (square_predN square_buildLuma) 16 le_rfl hr hc, if_pos (by omega), clip255_toNat, px,
    at_predN_toNat square_buildLuma (by decide) (by decide) hr hc]
  rfl

/-- The luma of the top-left macroblock, DC without residue (R185). -/
theorem at_lumaScratch_grey (hx : s.curmb.mbx.toNat = 0) (hy : s.curmb.mby.toNat = 0) (hmode : s.curmb.lmode = .dc)
    (hcoef : ∀ b k, s.coefAt b k = 0) (hr : r < 16) (hc : c < 16) : s.lumaScratch.at (1 + r) (1 + c) = 128 := by
  have pixel := at_lumaScratch_toNat (s := s) (k := .dc) (by rw [hmode]; rfl) hr hc
  rw [bigPixel_dc_topLeft hx hy, hcoef] at pixel
  exact BitVec.eq_of_toNat_eq (Int.ofNat_inj.mp pixel)

end LumaScratch

/-- Settles O32: the pixels by `at_lumaScratch_toNat`, the edges and phantom rows by `at_lumaScratch_outside`. -/
theorem lumaPredictionPlusResidue : Obligations.LumaPredictionPlusResidue := by
  refine ⟨fun s r c hr hc hmode => ?_, fun s r c hr hc hedge => at_lumaScratch_outside hr hc (by omega)⟩
  have pixel {k : BigMode} (hk : bigOfLuma s.curmb.lmode = some k) := at_lumaScratch_toNat hk hr hc
  cases hm : s.curmb.lmode with
  | b => exact absurd hm hmode
  | dc => exact pixel (k := .dc) (by rw [hm]; rfl)
  | v => exact pixel (k := .v) (by rw [hm]; rfl)
  | h => exact pixel (k := .h) (by rw [hm]; rfl)
  | tm => exact pixel (k := .tm) (by rw [hm]; rfl)

/-! ### The subblocks of a B macroblock -/

section Subblocks

variable {s : State} {ws ws' : Scratch} {i r c y0 x0 k : Nat}

theorem edges_a (hk : k < 8) : (ws.edges y0 x0).a k = ws.at (y0 - 1) (x0 + k) := by
  simp [Scratch.edges, Edges.a, List.getD_eq_getElem?_getD, hk]

theorem edges_l (hk : k < 4) : (ws.edges y0 x0).l k = ws.at (y0 + k) (x0 - 1) := by
  simp [Scratch.edges, Edges.l, List.getD_eq_getElem?_getD, hk]

/-- The edges of a subblock are the cells above it, to its left and at its corner (R187). -/
theorem edges_congr (hp : ws.at (y0 - 1) (x0 - 1) = ws'.at (y0 - 1) (x0 - 1))
    (ha : ∀ k, k < 8 → ws.at (y0 - 1) (x0 + k) = ws'.at (y0 - 1) (x0 + k))
    (hl : ∀ k, k < 4 → ws.at (y0 + k) (x0 - 1) = ws'.at (y0 + k) (x0 - 1)) : ws.edges y0 x0 = ws'.edges y0 x0 := by
  rw [Scratch.edges, Scratch.edges, Edges.mk.injEq]
  exact ⟨hp, List.map_congr_left fun k hk => ha k (List.mem_range.mp hk), List.map_congr_left fun k hk => hl k (List.mem_range.mp hk)⟩

/-- The scratch of a B macroblock before subblock `i` is predicted (R200). -/
def State.subScratch (s : State) (i : Nat) : Scratch :=
  (List.range i).foldl (reconSub s) (buildLuma s s.curmb.mbx.toNat s.curmb.mby.toNat)

theorem square_subScratch : (s.subScratch i).Square 21 := square_foldl (fun _ _ => square_reconSub) square_buildLuma

theorem subScratch_succ : s.subScratch (i + 1) = reconSub s (s.subScratch i) i := by
  simp [State.subScratch, List.range_succ]

theorem lumaScratch_eq_subScratch (hB : s.curmb.lmode = .b) : s.lumaScratch = s.subScratch 16 := by
  rw [State.lumaScratch, reconLuma, hB]; rfl

/-- A cell outside subblocks `i` to 15 is finished before subblock `i`. -/
theorem at_subScratch_finished (hi : i ≤ 16) (hr : r < 21) (hc : c < 21)
    (hout : ∀ j, i ≤ j → j < 16 → ¬ InLumaBlock j r c) : (s.subScratch 16).at r c = (s.subScratch i).at r c := by
  obtain ⟨n, hn⟩ := Nat.exists_eq_add_of_le hi
  rw [hn, State.subScratch, List.range_add, List.foldl_append]
  refine at_foldl_other (fun _ _ => square_reconSub) _ (fun j hj ws hws => at_reconSub_outside hws hr hc ?_) square_subScratch
  obtain ⟨d, hd, rfl⟩ := List.mem_map.mp hj
  have := List.mem_range.mp hd
  exact hout _ (by omega) (by omega)

/-- What subblock `i` predicts from is already as it is in the finished scratch: no subblock from `i` on covers a cell above it, to its
left or at its corner, and right of column 16 nothing is covered. -/
theorem edges_subScratch_finished (hi : i < 16) :
    (s.subScratch 16).edges (1 + 4 * (i / 4)) (1 + 4 * (i % 4)) = (s.subScratch i).edges (1 + 4 * (i / 4)) (1 + 4 * (i % 4)) := by
  refine edges_congr ?_ (fun k hk => ?_) (fun k hk => ?_) <;>
    exact at_subScratch_finished (by omega) (by omega) (by omega) fun j hij hj => by omega

/-- A pixel of subblock `i` once it is predicted and its residue added (R187, R199). -/
theorem at_reconSub_toNat (h : ws.Square 21) (hi : i < 16) (hr : r < 4) (hc : c < 4) :
    (((reconSub s ws i).at (1 + 4 * (i / 4) + r) (1 + 4 * (i % 4) + c)).toNat : Int) =
      max 0 (min 255 (((pred4 (s.bpred.getD i .dc) (ws.edges (1 + 4 * (i / 4)) (1 + 4 * (i % 4))) r c).toNat : Int)
        + (s.coefAt i (4 * r + c)).toInt)) := by
  have hr' : 1 + 4 * (i / 4) + r < 21 := by omega
  have hc' : 1 + 4 * (i % 4) + c < 21 := by omega
  rw [reconSub, addLumaResidue, lumaRow, lumaCol, at_addResidue (square_predSub h) hr' hc', if_pos (by omega),
    at_predSub h hr' hc', if_pos (by omega), clip255_toNat, px, Nat.add_sub_cancel_left, Nat.add_sub_cancel_left]
  rfl

/-- The finished scratch is consistent with itself at every subblock (R187, R200). -/
theorem at_lumaScratch_sub (hB : s.curmb.lmode = .b) (hi : i < 16) (hr : r < 4) (hc : c < 4) :
    ((s.lumaScratch.at (1 + 4 * (i / 4) + r) (1 + 4 * (i % 4) + c)).toNat : Int) =
      max 0 (min 255 (((pred4 (s.bpred.getD i .dc) (s.lumaScratch.edges (1 + 4 * (i / 4)) (1 + 4 * (i % 4))) r c).toNat : Int)
        + (s.coefAt i (4 * r + c)).toInt)) := by
  rw [lumaScratch_eq_subScratch hB, edges_subScratch_finished hi,
    at_subScratch_finished (i := i + 1) (by omega) (by omega) (by omega) (fun j hij hj => by omega), subScratch_succ]
  exact at_reconSub_toNat square_subScratch hi hr hc

end Subblocks

/-! ### The ten 4×4 modes -/

section SubModes

variable {e e' : Edges} {m : SubMode} {r c k : Nat}

/-- The run `E` of R187 in numbers: the left column from its bottom up, the corner, the above row. -/
def edgeRun (e : Edges) (k : Nat) : Nat := if k < 4 then (e.l (3 - k)).toNat else if k = 4 then e.p.toNat else (e.a (k - 5)).toNat

theorem e_toNat (hk : k < 9) : (e.e k).toNat = edgeRun e k := by
  interval_cases k <;> rfl

theorem e2_toNat (hk : k < 8) : (e.e2 k).toNat = (edgeRun e k + edgeRun e (k + 1) + 1) / 2 := by
  rw [Edges.e2, avg2_toNat, e_toNat (by omega), e_toNat (by omega)]

theorem e3_toNat (hk : k < 7) : (e.e3 k).toNat = (edgeRun e k + 2 * edgeRun e (k + 1) + edgeRun e (k + 2) + 2) / 4 := by
  rw [Edges.e3, avg3_toNat, e_toNat (by omega), e_toNat (by omega), e_toNat (by omega)]

theorem a2_toNat : (e.a2 k).toNat = ((e.a k).toNat + (e.a (k + 1)).toNat + 1) / 2 := avg2_toNat ..

theorem a3_toNat : (e.a3 k).toNat = ((e.a k).toNat + 2 * (e.a (k + 1)).toNat + (e.a (k + 2)).toNat + 2) / 4 := avg3_toNat ..

/-- Every pixel of the ten modes (R189 to R198). -/
theorem pred4_toNat (hr : r < 4) (hc : c < 4) : ((pred4 m e r c).toNat : Int) =
    subModePixel m e.p.toNat (fun k => (e.a k).toNat) (fun k => (e.l k).toNat) (edgeRun e) r c := by
  cases m with
  | dc =>
    rw [pred4, dc4, BitVec.toNat_ofNat, Nat.mod_eq_of_lt (by omega)]
    rfl
  | tm => exact clip255_toNat _
  | ve => interval_cases c <;> exact congrArg _ (avg3_toNat ..)
  | he => interval_cases r <;> exact congrArg _ (avg3_toNat ..)
  | ld =>
    by_cases last : r + c = 6
    · obtain ⟨rfl, rfl⟩ : r = 3 ∧ c = 3 := by omega
      exact congrArg _ (avg3_toNat ..)
    · have inner : ¬ (r = 3 ∧ c = 3) := by omega
      simp only [pred4, ld4, subModePixel, avg3_toNat, if_neg last, if_neg inner]
  | rd =>
    simp only [pred4, rd4, subModePixel, avg3_toNat, e_toNat (by omega : 3 - r + c < 9), e_toNat (by omega : 4 - r + c < 9),
      e_toNat (by omega : 5 - r + c < 9)]
  | vr => interval_cases r <;> interval_cases c <;> simp [pred4, vr4, Scratch.at, subModePixel, e2_toNat, e3_toNat]
  | vl => interval_cases r <;> interval_cases c <;> simp [pred4, vl4, Scratch.at, subModePixel, a2_toNat, a3_toNat]
  | hd => interval_cases r <;> interval_cases c <;> simp [pred4, hd4, Scratch.at, subModePixel, e2_toNat, e3_toNat]
  | hu => interval_cases r <;> interval_cases c <;> simp [pred4, hu4, Scratch.at, subModePixel, avg2_toNat, avg3_toNat]

/-- The corner, the four pixels above and the left column give the whole run `E` (R187). -/
theorem e_congr (hp : e.p = e'.p) (hl : ∀ k, k < 4 → e.l k = e'.l k) (ha : ∀ k, k < 4 → e.a k = e'.a k) (k : Nat) :
    e.e k = e'.e k := by
  simp only [Edges.e, hp, hl 0 (by omega), hl 1 (by omega), hl 2 (by omega), hl 3 (by omega), ha 0 (by omega), ha 1 (by omega),
    ha 2 (by omega), ha 3 (by omega)]

/-- VE reads the corner and the first five pixels above, the only above-right pixel among them the first (R188, R191). -/
theorem pred4_ve_congr (hp : e.p = e'.p) (ha : ∀ k, k < 5 → e.a k = e'.a k) : pred4 .ve e r c = pred4 .ve e' r c := by
  simp only [pred4, ve4, hp, ha 0 (by omega), ha 1 (by omega), ha 2 (by omega), ha 3 (by omega), ha 4 (by omega)]

/-- The modes but LD, VL and VE are functions of the corner, the left column and the four pixels above (R188). -/
theorem pred4_congr (hr : r < 4) (hc : c < 4) (hp : e.p = e'.p) (hl : ∀ k, k < 4 → e.l k = e'.l k)
    (ha : ∀ k, k < 4 → e.a k = e'.a k) (hm : m ≠ .ld ∧ m ≠ .vl ∧ m ≠ .ve) : pred4 m e r c = pred4 m e' r c := by
  obtain ⟨hld, hvl, hve⟩ := hm
  have run := e_congr hp hl ha
  have l0 := hl 0 (by omega)
  have l1 := hl 1 (by omega)
  have l2 := hl 2 (by omega)
  have l3 := hl 3 (by omega)
  cases m with
  | ld => exact absurd rfl hld
  | vl => exact absurd rfl hvl
  | ve => exact absurd rfl hve
  | dc => simp only [pred4, dc4, l0, l1, l2, l3, ha 0 (by omega), ha 1 (by omega), ha 2 (by omega), ha 3 (by omega)]
  | tm => simp only [pred4, hp, hl r hr, ha c hc]
  | he => simp only [pred4, he4, hp, l0, l1, l2, l3]
  | hu => simp only [pred4, hu4, l0, l1, l2, l3]
  | rd => simp only [pred4, rd4, run]
  | vr => simp only [pred4, vr4, Edges.e2, Edges.e3, run]
  | hd => simp only [pred4, hd4, Edges.e2, Edges.e3, run]

end SubModes

/-- Settles O33: the subblocks by `at_lumaScratch_sub`, the edges by `edges_a` and `edges_l`, the ten modes by `pred4_toNat`. -/
theorem subblocksPredictFromReconstruction : Obligations.SubblocksPredictFromReconstruction :=
  ⟨fun _ _ _ _ hi hr hc hB => at_lumaScratch_sub hB hi hr hc, fun _ _ _ _ => ⟨rfl, edges_a, edges_l⟩,
    fun _ _ _ _ hr hc => pred4_toNat hr hc⟩

/-- Settles O34: seven modes read only the corner, the left column and the four pixels above (`pred4_congr`), VE one pixel more
(`pred4_ve_congr`). -/
theorem aboveRightReaders : Obligations.AboveRightReaders := by
  rintro m e e' r c hr hc hp hl (⟨hld, hvl, hve, ha⟩ | ⟨rfl, ha⟩)
  · exact pred4_congr hr hc hp hl ha ⟨hld, hvl, hve⟩
  · exact pred4_ve_congr hp ha

/-! ### The finished chroma scratches -/

section ChromaScratch

variable {s : State} {top left : ByteSpace} {base r c : Nat}

/-- The edges of R181 stay in the finished chroma scratch. -/
theorem at_chromaScratch_edge (hr : r < 9) (hc : c < 9) (hedge : r = 0 ∨ c = 0) : (s.chromaScratch top left base).at r c =
    (buildChroma s top left s.curmb.mbx.toNat s.curmb.mby.toNat).at r c := by
  rw [State.chromaScratch, at_foldl_other (fun _ _ => square_addChromaResidue) _ (fun j _ ws hws => ?_) (square_predN square_buildChroma),
    at_predN_outside square_buildChroma hr hc (by omega)]
  rw [addChromaResidue, at_addResidue hws hr hc, if_neg (by omega)]

/-- A pixel of a chroma plane: prediction from the edges plus residue, clipped once (R183 to R186, R199, R205). -/
theorem at_chromaScratch_toNat (hr : r < 8) (hc : c < 8) :
    (((s.chromaScratch top left base).at (1 + r) (1 + c)).toNat : Int) =
      max 0 (min 255 (bigPixel (bigOfChroma s.curmb.cmode) 3 s.curmb.mbx.toNat s.curmb.mby.toNat (s.chromaScratch top left base) r c
        + (s.coefAt (base + (2 * (r / 4) + c / 4)) (4 * (r % 4) + c % 4)).toInt)) := by
  rw [bigPixel_congr hr hc fun i j hi hj hedge => at_chromaScratch_edge (by omega) (by omega) hedge, State.chromaScratch,
    at_foldl_addChromaResidue base (square_predN square_buildChroma) 4 le_rfl hr hc, if_pos (by omega), clip255_toNat, px,
    at_predN_toNat square_buildChroma (by decide) (by decide) hr hc]
  rfl

/-- The chroma of the top-left macroblock, DC without residue (R185). -/
theorem at_chromaScratch_grey (hx : s.curmb.mbx.toNat = 0) (hy : s.curmb.mby.toNat = 0) (hmode : s.curmb.cmode = .dc)
    (hcoef : ∀ b k, s.coefAt b k = 0) (hr : r < 8) (hc : c < 8) : (s.chromaScratch top left base).at (1 + r) (1 + c) = 128 := by
  have pixel := at_chromaScratch_toNat (s := s) (top := top) (left := left) (base := base) hr hc
  rw [hmode, bigOfChroma, bigPixel_dc_topLeft hx hy, hcoef] at pixel
  exact BitVec.eq_of_toNat_eq (Int.ofNat_inj.mp pixel)

end ChromaScratch

/-! ### The prediction commands -/

section PredictionCommands

variable {s t : State} {sp : ByteSpace}

/-- PRED_LUMA after its checks, its borders inside `TOPY` (R200). -/
theorem exec_predLuma (hs : Unfaulted s) (hc : ∀ p ∈ predLumaChecks s, p.1 = false) (hr : s.lumaTopReach < s.byteLength .topY) :
    exec .predLuma s = .next s.doPredLuma :=
  (exec_run (i := .predLuma) (by simp) hs rfl hc).trans (if_pos hr)

/-- PRED_CHROMA after its checks, its borders inside `TOPU` (R205). -/
theorem exec_predChroma (hs : Unfaulted s) (hc : ∀ p ∈ predChromaChecks s, p.1 = false)
    (hr : s.chromaTopReach < s.byteLength .topU) : exec .predChroma s = .next s.doPredChroma :=
  (exec_run (i := .predChroma) (by simp) hs rfl hc).trans (if_pos hr)

/-- A PRED_LUMA that leaves no fault has passed its checks and run. -/
theorem predLuma_of_exec (hs : Unfaulted s) (h : exec .predLuma s = .next t) (ht : Unfaulted t) :
    (∀ p ∈ predLumaChecks s, p.1 = false) ∧ s.lumaTopReach < s.byteLength .topY ∧ t = s.doPredLuma := by
  obtain ⟨-, hc, hr⟩ := exec_ran h (by simp) hs ht
  exact ⟨hc, guard_of_next hr, next_of_guarded hr⟩

/-- A PRED_CHROMA that leaves no fault has passed its checks and run. -/
theorem predChroma_of_exec (hs : Unfaulted s) (h : exec .predChroma s = .next t) (ht : Unfaulted t) :
    (∀ p ∈ predChromaChecks s, p.1 = false) ∧ s.chromaTopReach < s.byteLength .topU ∧ t = s.doPredChroma := by
  obtain ⟨-, hc, hr⟩ := exec_ran h (by simp) hs ht
  exact ⟨hc, guard_of_next hr, next_of_guarded hr⟩

/-! #### The state checks -/

theorem idctAllDone_eq_false {lo n : Nat} : s.idctAllDone lo n = false ↔ ∃ k, k < n ∧ s.idctDoneAt (lo + k) = false := by
  simp [State.idctAllDone]

/-- The state checks the two predictions share: `done` is the command's own flag, its blocks are the `n` from `lo` (R200, R205). -/
def predictionChecks (done : Bool) (lo n : Nat) (s : State) : List (Bool × FaultCode) :=
  [(s.noFrame, .noFrame), (s.noMb, .noMb), (done, .order), (!s.curmb.skip && !s.idctAllDone lo n, .order)]

/-- The order of the checks of the predictions (R200, R205). -/
theorem firstFault_predictionChecks (done : Bool) (lo n : Nat) : firstFault (predictionChecks done lo n s) =
    if s.status.frameValid = false then some .noFrame
    else if s.status.mbOpen = false then some .noMb
    else if done = true ∨ (s.curmb.skip = false ∧ ∃ k, k < n ∧ s.idctDoneAt (lo + k) = false) then some .order
    else none := by
  simp [predictionChecks, firstFault_cons, State.noFrame, State.noMb, ← idctAllDone_eq_false, ite_or]

theorem checksOf_predLuma : checksOf .predLuma s = predictionChecks s.mbflags.lumaDone 0 16 s := rfl

theorem checksOf_predChroma : checksOf .predChroma s = predictionChecks s.mbflags.chromaDone 16 8 s := rfl

theorem checksOf_prediction {i : Instr} (hi : i = .predLuma ∨ i = .predChroma) (s : State) :
    ∃ done lo n, checksOf i s = predictionChecks done lo n s := by
  rcases hi with rfl | rfl
  · exact ⟨_, _, _, checksOf_predLuma⟩
  · exact ⟨_, _, _, checksOf_predChroma⟩

/-! #### What every byte reads as afterwards -/

theorem read_doPredLuma_other (hl : sp ≠ .leftY) (ht : sp ≠ .topY) (hp : sp ≠ .y) (i : Nat) :
    s.doPredLuma.mem.read sp i = s.mem.read sp i := read_congr (cells_doPredLuma_other hl ht hp)

/-- PRED_CHROMA leaves the luma spaces alone (R205). -/
theorem cells_doPredChroma_luma (h : sp = .y ∨ sp = .topY ∨ sp = .leftY) : s.doPredChroma.mem.cells sp = s.mem.cells sp := by
  by_contra hne
  rcases changed_by_doPredChroma hne with (rfl | rfl | rfl) | rfl | rfl | rfl <;> simp at h

/-- A pixel of the macroblock inside the frame after PRED_LUMA (R201, R202). -/
theorem read_doPredLuma_pixel (hm : s.mem.wf) {r c : Nat} (hr : r < 16) (hc : c < 16) (hx : 16 * s.curmb.mbx.toNat + c < s.width)
    (hy : 16 * s.curmb.mby.toNat + r < s.height) :
    s.doPredLuma.mem.read .y (s.pixelIndex .y (16 * s.curmb.mbx.toNat + c) (16 * s.curmb.mby.toNat + r)) =
      s.lumaScratch.at (1 + r) (1 + c) :=
  (read_writeBack_plane (p := .y) hm (by decide) (by decide)).1 r c hr hc hx hy

/-- The two shares of PRED_CHROMA: a plane, its borders and the first of its blocks (R205). -/
def ChromaShare (p : Plane) (top left : ByteSpace) (base : Nat) : Prop :=
  (p = .u ∧ top = .topU ∧ left = .leftU ∧ base = 16) ∨ (p = .v ∧ top = .topV ∧ left = .leftV ∧ base = 20)

variable {p : Plane} {top left : ByteSpace} {base : Nat}

theorem exists_chromaShare {pl : ByteSpace} (h : (pl = .u ∧ top = .topU ∧ left = .leftU ∧ base = 16) ∨
    (pl = .v ∧ top = .topV ∧ left = .leftV ∧ base = 20)) : ∃ p : Plane, pl = p.space ∧ ChromaShare p top left base := by
  rcases h with ⟨rfl, share⟩ | ⟨rfl, share⟩
  · exact ⟨.u, rfl, .inl ⟨rfl, share⟩⟩
  · exact ⟨.v, rfl, .inr ⟨rfl, share⟩⟩

theorem chromaShare_of_ne_y (hp : p ≠ .y) : ∃ top left base, ChromaShare p top left base := by
  cases p with
  | y => exact absurd rfl hp
  | u => exact ⟨.topU, .leftU, 16, .inl ⟨rfl, rfl, rfl, rfl⟩⟩
  | v => exact ⟨.topV, .leftV, 20, .inr ⟨rfl, rfl, rfl, rfl⟩⟩

theorem ChromaShare.distinct (h : ChromaShare p top left base) : top ≠ left ∧ p.space ≠ left ∧ p.space ≠ top := by
  rcases h with ⟨rfl, rfl, rfl, -⟩ | ⟨rfl, rfl, rfl, -⟩ <;> decide

/-- A chroma plane is as large as the derived quantities of R26 say. -/
theorem ChromaShare.planeWidth (h : ChromaShare p top left base) : s.planeWidth p = s.cw := by
  rcases h with ⟨rfl, -⟩ | ⟨rfl, -⟩ <;> rfl

theorem ChromaShare.planeHeight (h : ChromaShare p top left base) : s.planeHeight p = s.ch := by
  rcases h with ⟨rfl, -⟩ | ⟨rfl, -⟩ <;> rfl

/-- In the spaces of one share PRED_CHROMA is that share alone: the other touches none of them (R205). -/
theorem read_doPredChroma (h : ChromaShare p top left base) (hsp : sp = left ∨ sp = top ∨ sp = p.space) (i : Nat) :
    s.doPredChroma.mem.read sp i = (chromaPlane s p top left base s.mem).read sp i := by
  refine read_congr ?_
  rcases h with ⟨rfl, rfl, rfl, rfl⟩ | ⟨rfl, rfl, rfl, rfl⟩
  · rcases hsp with rfl | rfl | rfl <;> exact cells_writeBack_other (by decide) (by decide) (by decide)
  · refine cells_writeBack_congr (by decide) (by decide) (by decide) ?_
    rcases hsp with rfl | rfl | rfl <;> exact cells_writeBack_other (by decide) (by decide) (by decide)

/-- A pixel of the macroblock inside its plane after PRED_CHROMA (R206, R207). -/
theorem read_doPredChroma_pixel (h : ChromaShare p top left base) (hm : s.mem.wf) {r c : Nat} (hr : r < 8) (hc : c < 8)
    (hx : 8 * s.curmb.mbx.toNat + c < s.planeWidth p) (hy : 8 * s.curmb.mby.toNat + r < s.planeHeight p) :
    s.doPredChroma.mem.read p.space (s.pixelIndex p (8 * s.curmb.mbx.toNat + c) (8 * s.curmb.mby.toNat + r)) =
      (s.chromaScratch top left base).at (1 + r) (1 + c) := by
  obtain ⟨-, ne_left, ne_top⟩ := h.distinct
  rw [read_doPredChroma h (.inr (.inr rfl))]
  exact (read_writeBack_plane hm ne_left ne_top).1 r c hr hc hx hy

/-! #### What a prediction reads -/

/-- `t` agrees with `s` in everything PRED_LUMA computes its pixels from: no plane is among it (R208). -/
structure SameLumaInputs (s t : State) : Prop where
  frame : t.frame = s.frame
  curmb : t.curmb = s.curmb
  bpred : t.bpred = s.bpred
  coef : t.coef = s.coef
  leftY : t.mem.cells .leftY = s.mem.cells .leftY
  topY : t.mem.cells .topY = s.mem.cells .topY

/-- `t` agrees with `s` in everything PRED_CHROMA computes its pixels from: no plane is among it (R208). -/
structure SameChromaInputs (s t : State) : Prop where
  frame : t.frame = s.frame
  curmb : t.curmb = s.curmb
  coef : t.coef = s.coef
  leftU : t.mem.cells .leftU = s.mem.cells .leftU
  topU : t.mem.cells .topU = s.mem.cells .topU
  leftV : t.mem.cells .leftV = s.mem.cells .leftV
  topV : t.mem.cells .topV = s.mem.cells .topV

theorem SameLumaInputs.lumaScratch (h : SameLumaInputs s t) : t.lumaScratch = s.lumaScratch :=
  lumaScratch_congr h.frame h.curmb h.bpred h.coef h.leftY h.topY

theorem SameChromaInputs.chromaScratch (h : SameChromaInputs s t) (hshare : ChromaShare p top left base) :
    t.chromaScratch top left base = s.chromaScratch top left base := by
  rcases hshare with ⟨-, rfl, rfl, -⟩ | ⟨-, rfl, rfl, -⟩
  · exact chromaScratch_congr h.curmb h.coef h.leftU h.topU
  · exact chromaScratch_congr h.curmb h.coef h.leftV h.topV

theorem SameChromaInputs.chromaPlane (h : SameChromaInputs s t) (hshare : ChromaShare p top left base) (m : Memory) :
    chromaPlane t p top left base m = chromaPlane s p top left base m := by
  rw [Machine.chromaPlane, h.chromaScratch hshare, h.curmb, writeBack_congr h.frame, Machine.chromaPlane]

/-- What a space holds after PRED_LUMA depends on what it held before and on the inputs of the prediction. -/
theorem SameLumaInputs.cells_doPredLuma (h : SameLumaInputs s t) (hm : t.mem.cells sp = s.mem.cells sp) :
    t.doPredLuma.mem.cells sp = s.doPredLuma.mem.cells sp := by
  rw [doPredLuma_mem, doPredLuma_mem, h.lumaScratch, h.curmb, writeBack_congr h.frame]
  exact cells_writeBack_congr (by decide) (by decide) (by decide) hm

/-- What a space holds after PRED_CHROMA depends on what it held before and on the inputs of the prediction. -/
theorem SameChromaInputs.cells_doPredChroma (h : SameChromaInputs s t) (hm : t.mem.cells sp = s.mem.cells sp) :
    t.doPredChroma.mem.cells sp = s.doPredChroma.mem.cells sp := by
  rw [doPredChroma_mem, doPredChroma_mem, h.chromaPlane (.inl ⟨rfl, rfl, rfl, rfl⟩), h.chromaPlane (.inr ⟨rfl, rfl, rfl, rfl⟩)]
  exact cells_writeBack_congr (by decide) (by decide) (by decide) (cells_writeBack_congr (by decide) (by decide) (by decide) hm)

/-- PRED_CHROMA writes nothing that PRED_LUMA reads (R205). -/
theorem sameLumaInputs_doPredChroma : SameLumaInputs s s.doPredChroma :=
  ⟨rfl, rfl, rfl, rfl, cells_doPredChroma_luma (by simp), cells_doPredChroma_luma (by simp)⟩

/-- PRED_LUMA writes nothing that PRED_CHROMA reads (R205). -/
theorem sameChromaInputs_doPredLuma : SameChromaInputs s s.doPredLuma := by
  refine ⟨rfl, rfl, rfl, ?_, ?_, ?_, ?_⟩ <;> exact cells_doPredLuma_other (by decide) (by decide) (by decide)

/-- The effects of the two predictions commute, space by space: each leaves the other's spaces alone and computes the same pixels before
the other or after it (R205). -/
theorem doPredLuma_doPredChroma_comm : s.doPredChroma.doPredLuma = s.doPredLuma.doPredChroma := by
  have mem : s.doPredChroma.doPredLuma.mem = s.doPredLuma.doPredChroma.mem := memory_ext fun sp => by
    by_cases luma : sp = .y ∨ sp = .topY ∨ sp = .leftY
    · rw [cells_doPredChroma_luma luma]
      exact sameLumaInputs_doPredChroma.cells_doPredLuma (cells_doPredChroma_luma luma)
    · simp only [not_or] at luma
      obtain ⟨hp, ht, hl⟩ := luma
      rw [cells_doPredLuma_other hl ht hp]
      exact (sameChromaInputs_doPredLuma.cells_doPredChroma (cells_doPredLuma_other hl ht hp)).symm
  simp only [State.doPredLuma, State.doPredChroma] at mem ⊢
  rw [mem]

/-- `m'` agrees with `m` but for the planes. -/
def SameBorders (m m' : Memory) : Prop := ∀ sp, sp ≠ .y → sp ≠ .u → sp ≠ .v → m'.cells sp = m.cells sp

theorem sameBorders_planes (m : Memory) (ly lu lv : List Host.Cell) : SameBorders m { m with y := ly, u := lu, v := lv } := by
  intro sp hy hu hv
  cases sp with
  | y => exact absurd rfl hy
  | u => exact absurd rfl hu
  | v => exact absurd rfl hv
  | _ => rfl

theorem SameBorders.eq_planes {m m' : Memory} (h : SameBorders m m') : m' = { m with y := m'.y, u := m'.u, v := m'.v } := by
  refine memory_ext fun sp => ?_
  cases sp with
  | y | u | v => rfl
  | _ => exact h _ (by simp) (by simp) (by simp)

variable {m : Memory}

theorem SameBorders.lumaInputs (h : SameBorders s.mem m) : SameLumaInputs s (s.withMem m) :=
  ⟨rfl, rfl, rfl, rfl, h .leftY (by simp) (by simp) (by simp), h .topY (by simp) (by simp) (by simp)⟩

theorem SameBorders.chromaInputs (h : SameBorders s.mem m) : SameChromaInputs s (s.withMem m) := by
  refine ⟨rfl, rfl, rfl, ?_, ?_, ?_, ?_⟩ <;> exact h _ (by simp) (by simp) (by simp)

/-- The borders after PRED_LUMA do not depend on the planes before it (R208). -/
theorem SameBorders.doPredLuma (h : SameBorders s.mem m) : SameBorders s.doPredLuma.mem (s.withMem m).doPredLuma.mem :=
  fun sp hy hu hv => h.lumaInputs.cells_doPredLuma (h sp hy hu hv)

/-- The borders after PRED_CHROMA do not depend on the planes before it (R208). -/
theorem SameBorders.doPredChroma (h : SameBorders s.mem m) : SameBorders s.doPredChroma.mem (s.withMem m).doPredChroma.mem :=
  fun sp hy hu hv => h.chromaInputs.cells_doPredChroma (h sp hy hu hv)

/-- Nor do the pixels PRED_LUMA writes (R208). -/
theorem SameBorders.read_doPredLuma_pixel (h : SameBorders s.mem m) (hm : s.mem.wf) (hm' : m.wf) {r c : Nat} (hr : r < 16) (hc : c < 16)
    (hx : 16 * s.curmb.mbx.toNat + c < s.width) (hy : 16 * s.curmb.mby.toNat + r < s.height) :
    (s.withMem m).doPredLuma.mem.read .y (s.pixelIndex .y (16 * s.curmb.mbx.toNat + c) (16 * s.curmb.mby.toNat + r)) =
      s.doPredLuma.mem.read .y (s.pixelIndex .y (16 * s.curmb.mbx.toNat + c) (16 * s.curmb.mby.toNat + r)) := by
  rw [Machine.read_doPredLuma_pixel hm hr hc hx hy, ← h.lumaInputs.lumaScratch]
  exact Machine.read_doPredLuma_pixel (s := s.withMem m) hm' hr hc hx hy

/-- Nor do the pixels PRED_CHROMA writes (R208). -/
theorem SameBorders.read_doPredChroma_pixel (h : SameBorders s.mem m) (share : ChromaShare p top left base) (hm : s.mem.wf) (hm' : m.wf)
    {r c : Nat} (hr : r < 8) (hc : c < 8) (hx : 8 * s.curmb.mbx.toNat + c < s.planeWidth p)
    (hy : 8 * s.curmb.mby.toNat + r < s.planeHeight p) :
    (s.withMem m).doPredChroma.mem.read p.space (s.pixelIndex p (8 * s.curmb.mbx.toNat + c) (8 * s.curmb.mby.toNat + r)) =
      s.doPredChroma.mem.read p.space (s.pixelIndex p (8 * s.curmb.mbx.toNat + c) (8 * s.curmb.mby.toNat + r)) := by
  rw [Machine.read_doPredChroma_pixel share hm hr hc hx hy, ← h.chromaInputs.chromaScratch share]
  exact Machine.read_doPredChroma_pixel (s := s.withMem m) share hm' hr hc hx hy

end PredictionCommands

/-- Settles O36: the effect is `doPredLuma`, a write-back, and the `read_writeBack_` laws say what every byte reads as. -/
theorem predLumaWritesBack : Obligations.PredLumaWritesBack := by
  rintro s t hs - - ⟨hm, -⟩ h ht
  obtain ⟨-, -, rfl⟩ := predLuma_of_exec hs h ht
  obtain ⟨corner, column, leftRest⟩ := read_writeBack_left (p := .y) (top := .topY) (left := .leftY) hm (by decide) (by decide)
  obtain ⟨row, topRest⟩ := read_writeBack_top (p := .y) (top := .topY) (left := .leftY) hm (by decide) (by decide)
  obtain ⟨pixels, planeRest⟩ := read_writeBack_plane (p := .y) (top := .topY) (left := .leftY) hm (by decide) (by decide)
  exact ⟨corner, column, row, pixels, leftRest, topRest, planeRest⟩

/-- Settles O38: the bytes by the `read_writeBack_` laws for the share of the plane (`read_doPredChroma`), the edges and the pixels by
`at_chromaScratch_edge` and `at_chromaScratch_toNat`. -/
theorem predChromaWritesBack : Obligations.PredChromaWritesBack := by
  refine ⟨?_, fun s top left base => ⟨fun c hc h0 => ?_, fun h0 => ?_, fun h0 c h1 hc => ?_, fun r h1 hr => ?_,
    fun r c hr hc => ?_⟩⟩
  · rintro s t hs - - ⟨hm, -⟩ h ht pl top left base hpl
    obtain ⟨-, -, rfl⟩ := predChroma_of_exec hs h ht
    obtain ⟨p, rfl, share⟩ := exists_chromaShare hpl
    obtain ⟨top_ne_left, plane_ne_left, plane_ne_top⟩ := share.distinct
    obtain ⟨corner, column, leftRest⟩ := read_writeBack_left (n := 8) hm top_ne_left.symm plane_ne_left.symm
    obtain ⟨row, topRest⟩ := read_writeBack_top (n := 8) hm top_ne_left plane_ne_top.symm
    obtain ⟨pixels, planeRest⟩ := read_writeBack_plane (n := 8) hm plane_ne_left plane_ne_top
    rw [share.planeWidth, share.planeHeight] at pixels planeRest
    have inLeft := read_doPredChroma (s := s) share (.inl rfl)
    have inTop := read_doPredChroma (s := s) share (.inr (.inl rfl))
    have inPlane := read_doPredChroma (s := s) share (.inr (.inr rfl))
    exact ⟨(inLeft _).trans corner, fun r hr => (inLeft _).trans (column r hr), fun c hc => (inTop _).trans (row c hc),
      fun r c hr hc hx hy => (inPlane _).trans (pixels r c hr hc hx hy), fun i hi => (inLeft i).trans (leftRest i hi),
      fun i hi => (inTop i).trans (topRest i hi), fun i hi => (inPlane i).trans (planeRest i hi)⟩
  · rw [at_chromaScratch_edge (by omega) hc (.inl rfl), at_buildChroma_above hc, if_pos h0]
  · rw [at_chromaScratch_edge (by omega) (by omega) (.inl rfl), at_buildChroma_above (by omega), if_neg h0, if_pos rfl]
  · rw [at_chromaScratch_edge (by omega) hc (.inl rfl), at_buildChroma_above hc, if_neg h0, if_neg (by omega)]
  · rw [at_chromaScratch_edge hr (by omega) (.inr rfl), at_buildChroma_left h1 hr]
  · have pixel := at_chromaScratch_toNat (s := s) (top := top) (left := left) (base := base) hr hc
    cases hm : s.curmb.cmode <;> (rw [hm] at pixel; exact pixel)

/-- Settles O40: both states are discarded, refused by the same check, or run; where they run, what a space holds afterwards depends
on the inputs of the prediction, no plane among them (`SameBorders.doPredLuma`, `SameBorders.doPredChroma`), and so do the pixels. -/
theorem predictionReadsNoPlane : Obligations.PredictionReadsNoPlane := by
  intro s ly lu lv i hi s' t h
  have borders : SameBorders s.mem s'.mem := sameBorders_planes s.mem ly lu lv
  have hne : i ≠ .reset := by rintro rfl; simp at hi
  have hw : i.wellFormed = true := by rcases hi with rfl | rfl <;> rfl
  have checks : checksOf i s' = checksOf i s := by rcases hi with rfl | rfl <;> rfl
  by_cases hf : s.status.fault = true
  · rw [exec_eq_command hne, command_faulted hf] at h
    cases h
    exact ⟨s', by rw [exec_eq_command hne, command_faulted (s := s') hf], rfl, fun hu => nomatch hf.symm.trans hu⟩
  rw [Bool.not_eq_true] at hf
  cases hc : firstFault (checksOf i s) with
  | some code =>
    rw [exec_faultEntry hne hf hw hc] at h
    cases h
    exact ⟨_, exec_faultEntry (s := s') hne hf hw (checks ▸ hc), rfl, fun _ ht => by simp [faultEntry] at ht⟩
  | none =>
    have clear := firstFault_eq_none.mp hc
    rw [exec_run hne hf hw clear] at h
    rcases hi with rfl | rfl
    · have fits := guard_of_next h
      rw [next_of_guarded h]
      refine ⟨s'.doPredLuma, exec_predLuma (s := s') hf clear fits, congrArg s.doPredLuma.withMem borders.doPredLuma.eq_planes,
        fun _ _ hm hm' p n hp r c hr hc hx hy => ?_⟩
      obtain ⟨rfl, rfl⟩ : p = .y ∧ n = 16 := by simpa using hp
      exact borders.read_doPredLuma_pixel hm.1 hm'.1 hr hc hx hy
    · have fits := guard_of_next h
      rw [next_of_guarded h]
      refine ⟨s'.doPredChroma, exec_predChroma (s := s') hf clear fits, congrArg s.doPredChroma.withMem borders.doPredChroma.eq_planes,
        fun _ _ hm hm' p n hp r c hr hc hx hy => ?_⟩
      obtain ⟨hpy, rfl⟩ : p ≠ .y ∧ n = 8 := by simpa using hp
      obtain ⟨top, left, base, share⟩ := chromaShare_of_ne_y hpy
      exact borders.read_doPredChroma_pixel share hm.1 hm'.1 hr hc hx hy

/-- Settles O41: each prediction passes its checks before the other or after it, and their effects commute
(`doPredLuma_doPredChroma_comm`). -/
theorem predictionOrderIsFree : Obligations.PredictionOrderIsFree := by
  intro s s1 s2 hs h1 hs1 h2 hs2
  obtain ⟨lumaClear, lumaFits, rfl⟩ := predLuma_of_exec hs h1 hs1
  obtain ⟨chromaClear, chromaFits, rfl⟩ := predChroma_of_exec hs1 h2 hs2
  refine ⟨s.doPredChroma, exec_predChroma hs chromaClear chromaFits, hs, ?_⟩
  rw [exec_predLuma (s := s.doPredChroma) hs lumaClear lumaFits, doPredLuma_doPredChroma_comm]

/-- Settles O35: the checks pass (`predLumaChecks_clear`), `TOPY` is long enough (`lumaTopReach_lt`), and the effect is `doPredLuma`. -/
theorem predLumaCompletes : Obligations.PredLumaCompletes := by
  rintro s hs hmb hl hd ⟨hx, -⟩
  have done (hk : s.curmb.skip = false) : s.idctAllDone 0 16 = true := idctAllDone_iff.mpr fun k h => by simpa using hd hk k h
  exact ⟨s.doPredLuma, exec_predLuma hs (predLumaChecks_clear.mpr ⟨hmb, hl, done⟩) (lumaTopReach_lt hx), rfl,
    fun sp hy ht hleft i => read_doPredLuma_other hleft ht hy i⟩

/-- Settles O37: the checks pass (`predChromaChecks_clear`), `TOPU` is long enough (`chromaTopReach_lt`), and the effect is
`doPredChroma`. -/
theorem predChromaCompletes : Obligations.PredChromaCompletes := by
  rintro s hs hmb hl hd ⟨hx, -⟩
  have done (hk : s.curmb.skip = false) : s.idctAllDone 16 8 = true := idctAllDone_iff.mpr fun k h => hd hk _ (by omega) (by omega)
  exact ⟨s.doPredChroma, exec_predChroma hs (predChromaChecks_clear.mpr ⟨hmb, hl, done⟩) (chromaTopReach_lt hx), rfl,
    fun sp hsp i => read_congr (cells_doPredChroma_luma hsp)⟩

/-- Settles O39: each clause is fault entry (`exec_faultEntry`) with the first failing check, read off `firstFault_predictionChecks`. -/
theorem predictionFaultPriority : Obligations.PredictionFaultPriority := by
  intro s hs
  refine ⟨fun i hi => ?_, fun ⟨hv, ho⟩ bad => ?_, fun ⟨hv, ho⟩ bad => ?_⟩
  · obtain ⟨done, lo, n, own⟩ := checksOf_prediction hi s
    have hw : i.wellFormed = true := by rcases hi with rfl | rfl <;> rfl
    have entry {c : FaultCode} := exec_faultEntry (c := c) (by rintro rfl; simp at hi) hs hw
    simp only [own, firstFault_predictionChecks] at entry
    exact ⟨fun hv => entry (by simp [hv]), fun hv ho => entry (by simp [hv, ho])⟩
  · refine exec_faultEntry (by simp) hs rfl ?_
    rw [checksOf_predLuma, firstFault_predictionChecks, if_neg (by simp [hv]), if_neg (by simp [ho]), if_pos (by simpa using bad)]
  · refine exec_faultEntry (by simp) hs rfl ?_
    rw [checksOf_predChroma, firstFault_predictionChecks, if_neg (by simp [hv]), if_neg (by simp [ho]), if_pos ?_]
    refine bad.imp_right fun ⟨hk, k, h16, h24, hdone⟩ => ⟨hk, k - 16, by omega, ?_⟩
    rwa [Nat.add_sub_of_le h16]

/-- Settles O42: every pixel is the scratch's (`read_doPredLuma_pixel`, `read_doPredChroma_pixel`), and the scratches are grey
(`at_lumaScratch_grey`, `at_chromaScratch_grey`). -/
theorem topLeftDcIsGrey : Obligations.TopLeftDcIsGrey := by
  rintro s s1 s2 hs - - ⟨hm, -⟩ hx0 hy0 hl hc hcoef h1 hs1 h2 hs2
  obtain ⟨-, -, rfl⟩ := predLuma_of_exec hs h1 hs1
  obtain ⟨-, -, rfl⟩ := predChroma_of_exec hs1 h2 hs2
  have left : s.curmb.mbx.toNat = 0 := by rw [hx0]; rfl
  have top : s.curmb.mby.toNat = 0 := by rw [hy0]; rfl
  refine ⟨fun x y hx hy hxw hyh => ?_, fun x y hx hy hxw hyh => ?_⟩
  · have pixel := read_doPredLuma_pixel (s := s) (r := y) (c := x) hm hy hx
    rw [at_lumaScratch_grey left top hl hcoef hy hx] at pixel
    simp only [left, top, Nat.mul_zero, Nat.zero_add] at pixel
    rw [read_congr (cells_doPredChroma_luma (.inl rfl))]
    exact pixel hxw hyh
  · have grey {p : Plane} {topSp leftSp : ByteSpace} {base : Nat} (share : ChromaShare p topSp leftSp base) :
        s.doPredLuma.doPredChroma.mem.read p.space (y * s.cw + x) = 128 := by
      have pixel := read_doPredChroma_pixel (s := s.doPredLuma) (r := y) (c := x) share (wf_writeBack hm) hy hx
      rw [State.pixelIndex, share.planeWidth, share.planeHeight, at_chromaScratch_grey (s := s.doPredLuma) left top hc hcoef hy hx] at pixel
      simp only [doPredLuma_curmb, left, top, Nat.mul_zero, Nat.zero_add] at pixel
      exact pixel hxw hyh
    exact ⟨grey (.inl ⟨rfl, rfl, rfl, rfl⟩), grey (.inr ⟨rfl, rfl, rfl, rfl⟩)⟩

end Sys2Proof.Machine

/-! # Proofs for spec/44_loop_filter.md: levels (R230 to R234), kernels (R236 to R244), LF_MB (R250), LF_FRAME (R252), their state
checks (R284, R285), the reach of a macroblock (R246), the picture the calls of `SEG` leave (R240, R245) -/

namespace Sys2Proof.Machine

/-! ### Levels -/

section FilterLevels

variable {s : State} {m : MbInfo} {lvl sharp : Nat}

theorem clamp_level (v : Int) : clamp v 0 63 = max 0 (min 63 v) := by
  unfold clamp
  split
  · omega
  · split <;> omega

theorem filterLevel_eq : filterLevel s m =
    if m.lmode = .b then max 0 (min 63 (max 0 (min 63 (baseLevel s m)) + s.segctl.mdelta0.toInt))
    else max 0 (min 63 (baseLevel s m)) := by
  simp only [filterLevel, clamp_level]

/-- The last clamp of R230 bounds the level (R232). -/
theorem filterLevel_range (s : State) (m : MbInfo) : 0 ≤ filterLevel s m ∧ filterLevel s m ≤ 63 := by
  rw [filterLevel_eq]
  split <;> omega

theorem interiorLimit_eq : interiorLimit lvl sharp =
    max 1 (if sharp = 0 then lvl else min (if 4 < sharp then lvl / 4 else lvl / 2) (9 - sharp)) := by
  have atLeastOne (n : Nat) : (if n = 0 then 1 else n) = max 1 n := by split <;> omega
  have shift : lvl / 2 ^ (if sharp > 4 then 2 else 1) = if 4 < sharp then lvl / 4 else lvl / 2 := by
    split <;> rfl
  rw [interiorLimit, atLeastOne, shift]
  by_cases h : sharp = 0
  · simp [h]
  · simp [h, Nat.pos_of_ne_zero h]

theorem interiorLimit_range : 1 ≤ interiorLimit lvl sharp ∧ interiorLimit lvl sharp ≤ max 1 lvl := by
  rw [interiorLimit_eq]
  split
  · omega
  · split <;> omega

theorem hevThreshold_eq (rule : HevRule) : hevThreshold rule lvl =
    if 40 ≤ lvl then 2 else if rule = .doc then 1 else if 15 ≤ lvl then 1 else 0 := by
  cases rule <;> simp [hevThreshold]

end FilterLevels

/-- Settles O43: the clamps as `max` and `min` (`filterLevel_eq`, `interiorLimit_eq`), which bound the level and with it the limits
(R232). -/
theorem filterLevels : Obligations.FilterLevels := by
  intro cfg s m base once lvl sharp lv
  obtain ⟨low, high⟩ := filterLevel_range s m
  have level : (lv.lvl : Int) = filterLevel s m := Int.toNat_of_nonneg low
  have mbe : lv.mbe = (lv.lvl + 2) * 2 + lv.ilim := rfl
  have sbe : lv.sbe = lv.lvl * 2 + lv.ilim := rfl
  obtain ⟨one_le, le_max⟩ : 1 ≤ lv.ilim ∧ lv.ilim ≤ max 1 lv.lvl := interiorLimit_range
  refine ⟨level.trans filterLevel_eq, interiorLimit_eq, hevThreshold_eq _, mbe, sbe, ?_, one_le, ?_, ?_, ?_⟩ <;> omega

/-! ### Kernels -/

section Kernels

variable {t i e : Nat} {l : Line}

theorem simpleTest_iff : simpleTest e l = true ↔ absDiff l.p0 l.q0 * 2 + absDiff l.p1 l.q1 / 2 ≤ e := decide_eq_true_iff

theorem normalTest_iff : normalTest i e l = true ↔ absDiff l.p0 l.q0 * 2 + absDiff l.p1 l.q1 / 2 ≤ e ∧
    absDiff l.p3 l.p2 ≤ i ∧ absDiff l.p2 l.p1 ≤ i ∧ absDiff l.p1 l.p0 ≤ i ∧
    absDiff l.q3 l.q2 ≤ i ∧ absDiff l.q2 l.q1 ≤ i ∧ absDiff l.q1 l.q0 ≤ i := by
  simp only [normalTest, Bool.and_eq_true, decide_eq_true_eq, simpleTest_iff, and_assoc]

theorem hev_iff : hev t l = true ↔ t < absDiff l.p1 l.p0 ∨ t < absDiff l.q1 l.q0 := by
  simp only [hev, Bool.or_eq_true, decide_eq_true_eq, gt_iff_lt]

/-! #### Each kernel by its cases -/

theorem simpleSegment_of_test (h : simpleTest e l = true) : simpleSegment e l = commonAdjust true l := if_pos h

theorem simpleSegment_of_not_test (h : ¬ simpleTest e l = true) : simpleSegment e l = l := if_neg h

theorem sbFilter_of_hev (hn : normalTest i e l = true) (hh : hev t l = true) : sbFilter t i e l = commonAdjust true l := by
  simp [sbFilter, hn, hh]

theorem sbFilter_of_not_hev (hn : normalTest i e l = true) (hh : ¬ hev t l = true) : sbFilter t i e l =
    { commonAdjust false l with
      q1 := s2u (u2s l.q1 - asr (adjustReturn false l + 1) 1), p1 := s2u (u2s l.p1 + asr (adjustReturn false l + 1) 1) } := by
  simp [sbFilter, hn, hh]

theorem sbFilter_of_not_normal (hn : ¬ normalTest i e l = true) : sbFilter t i e l = l := if_neg hn

/-- The weight of the taps of the macroblock filter (R244). -/
def tapWeight (l : Line) : Int := c127 (c127 (u2s l.p1 - u2s l.q1) + 3 * (u2s l.q0 - u2s l.p0))

/-- One tap of the macroblock filter: 27, 18 or 9 times the weight, scaled (R244). -/
def tap (n : Int) (l : Line) : Int := c127 (asr (n * tapWeight l + 63) 7)

theorem mbFilter_of_hev (hn : normalTest i e l = true) (hh : hev t l = true) : mbFilter t i e l = commonAdjust true l := by
  simp [mbFilter, hn, hh]

theorem mbFilter_of_not_hev (hn : normalTest i e l = true) (hh : ¬ hev t l = true) : mbFilter t i e l =
    { l with
      q0 := s2u (u2s l.q0 - tap 27 l), p0 := s2u (u2s l.p0 + tap 27 l)
      q1 := s2u (u2s l.q1 - tap 18 l), p1 := s2u (u2s l.p1 + tap 18 l)
      q2 := s2u (u2s l.q2 - tap 9 l), p2 := s2u (u2s l.p2 + tap 9 l) } :=
  (if_pos hn).trans (if_neg hh)

theorem mbFilter_of_not_normal (hn : ¬ normalTest i e l = true) : mbFilter t i e l = l := if_neg hn

/-! #### What a kernel writes, in integers -/

theorem s2u_toNat_c127 (v : Int) : ((s2u v).toNat : Int) = c127 v + 128 := by
  rw [c127_eq]
  exact s2u_toNat v

/-- `r` holds at `q0` and `p0` what the common adjustment of `l` gives (R241). -/
def Adjusted (outer : Bool) (l r : Line) : Prop :=
  (r.q0.toNat : Int) = c127 (u2s l.q0 - c127 (adjustBase outer l + 4) / 8) + 128 ∧
  (r.p0.toNat : Int) = c127 (u2s l.p0 + c127 (adjustBase outer l + 3) / 8) + 128

theorem commonAdjust_adjusted (outer : Bool) (l : Line) : Adjusted outer l (commonAdjust outer l) :=
  ⟨s2u_toNat_c127 _, s2u_toNat_c127 _⟩

theorem simpleSegment_adjusted (h : simpleTest e l = true) : Adjusted true l (simpleSegment e l) := by
  rw [simpleSegment_of_test h]
  exact commonAdjust_adjusted true l

/-- With high edge variance the sub-block filter is the common adjustment alone (R243). -/
theorem sbFilter_hev (hn : normalTest i e l = true) (hh : hev t l = true) :
    Adjusted true l (sbFilter t i e l) ∧ (sbFilter t i e l).q1 = l.q1 ∧ (sbFilter t i e l).p1 = l.p1 := by
  rw [sbFilter_of_hev hn hh]
  exact ⟨commonAdjust_adjusted true l, rfl, rfl⟩

/-- Without it, half the adjustment moves `q1` and `p1` too (R243). -/
theorem sbFilter_not_hev (hn : normalTest i e l = true) (hh : ¬ hev t l = true) :
    Adjusted false l (sbFilter t i e l) ∧
    ((sbFilter t i e l).q1.toNat : Int) = c127 (u2s l.q1 - (c127 (adjustBase false l + 4) / 8 + 1) / 2) + 128 ∧
    ((sbFilter t i e l).p1.toNat : Int) = c127 (u2s l.p1 + (c127 (adjustBase false l + 4) / 8 + 1) / 2) + 128 := by
  rw [sbFilter_of_not_hev hn hh]
  exact ⟨commonAdjust_adjusted false l, s2u_toNat_c127 _, s2u_toNat_c127 _⟩

/-- With high edge variance the macroblock filter is the common adjustment alone (R244). -/
theorem mbFilter_hev (hn : normalTest i e l = true) (hh : hev t l = true) :
    Adjusted true l (mbFilter t i e l) ∧ (mbFilter t i e l).q1 = l.q1 ∧ (mbFilter t i e l).p1 = l.p1 ∧
    (mbFilter t i e l).q2 = l.q2 ∧ (mbFilter t i e l).p2 = l.p2 := by
  rw [mbFilter_of_hev hn hh]
  exact ⟨commonAdjust_adjusted true l, rfl, rfl, rfl, rfl⟩

/-- Without it, each pair of pixels moves by its tap (R244). -/
theorem mbFilter_not_hev (hn : normalTest i e l = true) (hh : ¬ hev t l = true) :
    ((mbFilter t i e l).q0.toNat : Int) = c127 (u2s l.q0 - tap 27 l) + 128 ∧
    ((mbFilter t i e l).p0.toNat : Int) = c127 (u2s l.p0 + tap 27 l) + 128 ∧
    ((mbFilter t i e l).q1.toNat : Int) = c127 (u2s l.q1 - tap 18 l) + 128 ∧
    ((mbFilter t i e l).p1.toNat : Int) = c127 (u2s l.p1 + tap 18 l) + 128 ∧
    ((mbFilter t i e l).q2.toNat : Int) = c127 (u2s l.q2 - tap 9 l) + 128 ∧
    ((mbFilter t i e l).p2.toNat : Int) = c127 (u2s l.p2 + tap 9 l) + 128 := by
  rw [mbFilter_of_not_hev hn hh]
  exact ⟨s2u_toNat_c127 _, s2u_toNat_c127 _, s2u_toNat_c127 _, s2u_toNat_c127 _, s2u_toNat_c127 _, s2u_toNat_c127 _⟩

/-! #### What a kernel leaves -/

theorem simpleSegment_writes : simpleSegment e l = { l with p0 := (simpleSegment e l).p0, q0 := (simpleSegment e l).q0 } := by
  by_cases h : simpleTest e l = true
  · rw [simpleSegment_of_test h]; rfl
  · rw [simpleSegment_of_not_test h]

theorem sbFilter_writes : sbFilter t i e l =
    { l with p1 := (sbFilter t i e l).p1, p0 := (sbFilter t i e l).p0, q0 := (sbFilter t i e l).q0, q1 := (sbFilter t i e l).q1 } := by
  by_cases hn : normalTest i e l = true
  · by_cases hh : hev t l = true
    · rw [sbFilter_of_hev hn hh]; rfl
    · rw [sbFilter_of_not_hev hn hh]; rfl
  · rw [sbFilter_of_not_normal hn]

theorem mbFilter_outermost : (mbFilter t i e l).p3 = l.p3 ∧ (mbFilter t i e l).q3 = l.q3 := by
  by_cases hn : normalTest i e l = true
  · by_cases hh : hev t l = true
    · rw [mbFilter_of_hev hn hh]; exact ⟨rfl, rfl⟩
    · rw [mbFilter_of_not_hev hn hh]; exact ⟨rfl, rfl⟩
  · rw [mbFilter_of_not_normal hn]; exact ⟨rfl, rfl⟩

/-! #### Flat lines -/

/-- A line of eight equal pixels. -/
def Line.flat (b : Byte) : Line := ⟨b, b, b, b, b, b, b, b⟩

theorem s2u_u2s (b : Byte) : s2u (u2s b) = b := by
  apply BitVec.eq_of_toNat_eq
  have value := s2u_toNat (u2s b)
  have unsigned : u2s b = (b.toNat : Int) - 128 := rfl
  omega

theorem adjustBase_flat (outer : Bool) (b : Byte) : adjustBase outer (.flat b) = 0 := by
  cases outer <;> simp [adjustBase, Line.flat, c127, clamp]

theorem adjustReturn_flat (outer : Bool) (b : Byte) : adjustReturn outer (.flat b) = 0 := by
  rw [adjustReturn, adjustBase_flat]
  decide

theorem tap_flat {n : Int} (b : Byte) : tap n (.flat b) = 0 := by
  have weight : tapWeight (.flat b) = 0 := adjustBase_flat true b
  rw [tap, weight, mul_zero]
  decide

theorem commonAdjust_flat (outer : Bool) (b : Byte) : commonAdjust outer (.flat b) = .flat b := by
  have three : asr (c127 (0 + 3)) 3 = 0 := by decide
  simp only [commonAdjust, adjustReturn_flat, adjustBase_flat, three, sub_zero, add_zero]
  simp only [Line.flat, s2u_u2s]

theorem simpleSegment_flat (b : Byte) : simpleSegment e (.flat b) = .flat b := by
  by_cases h : simpleTest e (.flat b) = true
  · rw [simpleSegment_of_test h, commonAdjust_flat]
  · exact simpleSegment_of_not_test h

theorem sbFilter_flat (b : Byte) : sbFilter t i e (.flat b) = .flat b := by
  by_cases hn : normalTest i e (.flat b) = true
  · by_cases hh : hev t (.flat b) = true
    · rw [sbFilter_of_hev hn hh, commonAdjust_flat]
    · have half : asr (0 + 1) 1 = 0 := by decide
      rw [sbFilter_of_not_hev hn hh, commonAdjust_flat, adjustReturn_flat, half, sub_zero, add_zero]
      simp only [Line.flat, s2u_u2s]
  · exact sbFilter_of_not_normal hn

theorem mbFilter_flat (b : Byte) : mbFilter t i e (.flat b) = .flat b := by
  by_cases hn : normalTest i e (.flat b) = true
  · by_cases hh : hev t (.flat b) = true
    · rw [mbFilter_of_hev hn hh, commonAdjust_flat]
    · simp only [mbFilter_of_not_hev hn hh, tap_flat, sub_zero, add_zero]
      simp only [Line.flat, s2u_u2s]
  · exact mbFilter_of_not_normal hn

end Kernels

/-- Settles O50: the statement's clamp is `c127`, each test is its inequality, and each kernel is taken by the cases of its tests. -/
theorem kernelsTouchOnlyTheEdge : Obligations.KernelsTouchOnlyTheEdge := by
  have clampEq : (fun v : Int => max (-128) (min 127 v)) = c127 := funext fun v => (c127_eq v).symm
  unfold Obligations.KernelsTouchOnlyTheEdge
  rw [clampEq]
  intro t i e l c d P0 P1 P2 Q0 Q1 Q2 edge normal high base adjusted a w tap sb mb
  have edge_iff : simpleTest e l = true ↔ edge := simpleTest_iff
  have normal_iff : normalTest i e l = true ↔ normal := normalTest_iff
  have high_iff : hev t l = true ↔ high := hev_iff
  rw [← edge_iff, ← normal_iff, ← high_iff]
  refine ⟨.rfl, .rfl, .rfl, simpleSegment_adjusted, simpleSegment_of_not_test, sbFilter_hev, sbFilter_not_hev, mbFilter_hev,
    mbFilter_not_hev, fun hn => ⟨sbFilter_of_not_normal hn, mbFilter_of_not_normal hn⟩, simpleSegment_writes, sbFilter_writes,
    mbFilter_outermost, ?_⟩
  rintro b rfl
  exact ⟨simpleSegment_flat b, sbFilter_flat b, mbFilter_flat b⟩

/-! ### The state checks -/

section FilterCommands

variable {i : Instr} {s : State} {l l' : List (Bool × FaultCode)} {mbx mby : BitVec 10}

theorem firstFault_append : firstFault (l ++ l') = (firstFault l).or (firstFault l') := by
  induction l with
  | nil => rfl
  | cons p l ih =>
    obtain ⟨bad, code⟩ := p
    cases bad <;> simp [firstFault_cons, ih]

/-- The order of the checks the loop-filter commands share (R250, R252). -/
theorem firstFault_lfFrameChecks : firstFault (lfFrameChecks s) =
    if s.status.frameValid = false then some .noFrame
    else if s.status.mbOpen = true then some .mbOpen
    else if s.mbcur.toNat < s.totalMb then some .lfNotReady
    else if s.lfcur.toNat = s.totalMb then some .frameDone
    else none := by
  simp [lfFrameChecks, firstFault_cons, State.noFrame]

/-- Both loop-filter commands begin with the checks of LF_FRAME (R250). -/
theorem checksOf_filter (hi : i = .lfFrame ∨ ∃ mbx mby, i = .lfMb mbx mby) (s : State) :
    ∃ own, checksOf i s = lfFrameChecks s ++ own := by
  rcases hi with rfl | ⟨mbx, mby, rfl⟩
  · exact ⟨[], (List.append_nil _).symm⟩
  · exact ⟨_, rfl⟩

theorem lfFrameChecks_clear_of_ready (hr : FilterReady s) : ∀ p ∈ lfFrameChecks s, p.1 = false := by
  obtain ⟨hv, ho, hd, hcur⟩ := hr
  exact lfFrameChecks_clear.mpr ⟨hv, ho, hd, hcur.ne⟩

/-! ### LF_MB and LF_FRAME -/

/-- LF_MB at the coordinates of `LFCUR` filters that macroblock (R250). -/
theorem exec_lfMb (hs : Unfaulted s) (hr : FilterReady s) (hx : mbx.toNat < s.mbw)
    (hxy : mby.toNat * s.mbw + mbx.toNat = s.lfcur.toNat) : exec (.lfMb mbx mby) s = .next (filterNext s.params s) := by
  obtain ⟨hv, ho, hd, hcur⟩ := hr
  exact (exec_run (i := .lfMb mbx mby) (by simp) hs rfl (lfMbChecks_clear.mpr ⟨⟨hv, ho, hd, hcur.ne⟩, hx, hxy⟩)).trans (if_pos hcur)

/-- LF_FRAME filters the macroblocks from `LFCUR` on (R252). -/
theorem exec_lfFrame (hs : Unfaulted s) (hr : FilterReady s) :
    exec .lfFrame s = .next (filterMany s.params (s.totalMb - s.lfcur.toNat) s) :=
  exec_run (by simp) hs rfl (lfFrameChecks_clear_of_ready hr)

theorem filterNext_lfcur {cfg : Config} (h : s.lfcur.toNat < s.totalMb) : (filterNext cfg s).lfcur.toNat = s.lfcur.toNat + 1 :=
  filterMany_lfcur (n := 1) h

/-- The raster index of a macroblock of the frame gives its coordinates, and both fit their fields (R9, R26). -/
theorem raster_coordinates (h : s.lfcur.toNat < s.totalMb) :
    (BitVec.ofNat 10 (s.lfcur.toNat % s.mbw)).toNat < s.mbw ∧
    (BitVec.ofNat 10 (s.lfcur.toNat / s.mbw)).toNat * s.mbw + (BitVec.ofNat 10 (s.lfcur.toNat % s.mbw)).toNat = s.lfcur.toNat := by
  have width := mbw_le s
  have height := mbh_le s
  have pos : 0 < s.mbw := Nat.pos_of_mul_pos_right (Nat.zero_lt_of_lt h)
  have column : s.lfcur.toNat % s.mbw < s.mbw := Nat.mod_lt _ pos
  have row : s.lfcur.toNat / s.mbw < s.mbh := Nat.div_lt_of_lt_mul h
  rw [BitVec.toNat_ofNat, BitVec.toNat_ofNat, Nat.mod_eq_of_lt (by omega : s.lfcur.toNat % s.mbw < 2 ^ 10),
    Nat.mod_eq_of_lt (by omega : s.lfcur.toNat / s.mbw < 2 ^ 10)]
  exact ⟨column, Nat.div_add_mod' _ _⟩

/-- `n` LF_MB commands in raster order filter `n` macroblocks: each leaves the state ready for the next (R250, R252). -/
theorem lfMbTimes_eq {n : Nat} (hs : Unfaulted s) (hv : s.status.frameValid = true) (ho : s.status.mbOpen = false)
    (hd : s.totalMb ≤ s.mbcur.toNat) (hn : s.lfcur.toNat + n ≤ s.totalMb) :
    lfMbTimes n s = .next (filterMany s.params n s) := by
  induction n generalizing s with
  | zero => rfl
  | succ n ih =>
    have hcur : s.lfcur.toNat < s.totalMb := by omega
    obtain ⟨hx, hxy⟩ := raster_coordinates hcur
    have advanced := filterNext_lfcur (cfg := s.params) hcur
    have total : (filterNext s.params s).totalMb = s.totalMb := totalMb_congr filterNext_frame
    have status : (filterNext s.params s).status = s.status := by rw [filterNext_eq]
    have mbcur : (filterNext s.params s).mbcur = s.mbcur := by rw [filterNext_eq]
    rw [lfMbTimes, exec_lfMb hs ⟨hv, ho, hd, hcur⟩ hx hxy]
    show lfMbTimes n (filterNext s.params s) = .next (filterMany s.params n (filterNext s.params s))
    rw [ih (by rwa [Unfaulted, status]) (by rwa [status]) (by rwa [status]) (by rwa [total, mbcur]) (by omega), filterNext_params]

/-! ### The reach of a macroblock -/

theorem space_injective : Function.Injective Plane.space := by
  intro p q
  cases p <;> cases q <;> simp [Plane.space]

/-- The side the statements give a macroblock of the plane: 16 in `Y`, 8 in `U` and `V` (R240). -/
theorem side_eq {p : Plane} {n : Nat} (h : (p = .y ∧ n = 16) ∨ (p ≠ .y ∧ n = 8)) : n = p.side := by
  cases p <;> simpa [Plane.side] using h

/-- The macroblock LF_MB filters is the one its operands name (R16, R250). -/
theorem segmentsOf_lfcur (hx : mbx.toNat < s.mbw) (hxy : mby.toNat * s.mbw + mbx.toNat = s.lfcur.toNat) :
    s.segmentsOf s.lfcur.toNat = mbSegments s.filter.simple (innerEdges (s.mbInfoAt s.lfcur.toNat)) mbx.toNat mby.toNat := by
  have row : (mby.toNat * s.mbw + mbx.toNat) / s.mbw = mby.toNat := by
    rw [Nat.add_comm, Nat.add_mul_div_right _ _ (Nat.zero_lt_of_lt hx), Nat.div_eq_of_lt hx, Nat.zero_add]
  have column : (mby.toNat * s.mbw + mbx.toNat) % s.mbw = mbx.toNat := Nat.mul_add_mod_of_lt hx
  rw [State.segmentsOf, ← hxy, row, column]

/-- A segment of the macroblock stores to no pixel of the plane right of it or below it, nor to one more than three columns left of it
or three rows above it (R246). -/
theorem stores_ne_of_outside {simple inner : Bool} {mbx mby : Nat} {g : Segment} {a : Line} {c : Host.Cell} {x y : Nat}
    (hg : g ∈ mbSegments simple inner mbx mby) (hb : inBounds s simple g = true) (hc : c ∈ g.stores s simple a)
    (hx : x < s.planeWidth g.plane)
    (hout : g.plane.side * mbx + g.plane.side ≤ x ∨ g.plane.side * mby + g.plane.side ≤ y ∨
      x + 3 < g.plane.side * mbx ∨ y + 3 < g.plane.side * mby) :
    c.1 ≠ y * s.planeWidth g.plane + x := by
  obtain ⟨X, Y, hX, hindex, right, below, left, above⟩ := stores_reach hg hb hc
  intro same
  obtain ⟨rfl, rfl⟩ := pixel_inj hX hx (hindex.symm.trans same)
  omega

end FilterCommands

/-- Settles O49: each clause is fault entry (`exec_faultEntry`) with the first failing check, read off `firstFault_lfFrameChecks`;
LF_MB's own check comes after those. -/
theorem loopFilterFaultPriority : Obligations.LoopFilterFaultPriority := by
  intro s hs
  refine ⟨fun i hi => ?_, fun mbx mby hr bad => ?_⟩
  · obtain ⟨own, checks⟩ := checksOf_filter hi s
    have hw : i.wellFormed = true := by rcases hi with rfl | ⟨mbx, mby, rfl⟩ <;> rfl
    have entry {c : FaultCode} := exec_faultEntry (c := c) (by rintro rfl; simp at hi) hs hw
    simp only [checks, firstFault_append, firstFault_lfFrameChecks] at entry
    exact ⟨fun hv => entry (by simp [hv]), fun hv ho => entry (by simp [hv, ho]), fun hv ho hd => entry (by simp [hv, ho, hd]),
      fun hv ho hd hcur => entry (by simp [hv, ho, hd.not_gt, hcur])⟩
  · refine exec_faultEntry (by simp) hs rfl ?_
    have own : s.outOfOrder mbx mby s.lfcur = true := by simpa [State.outOfOrder] using bad
    rw [checksOf, lfMbChecks, firstFault_append, firstFault_eq_none.mpr (lfFrameChecks_clear_of_ready hr), own]
    rfl

/-- Settles O47: the effect is `filterMany`, which changes memory and `LFCUR` alone (`filterMany_eq`) and of memory the planes
(`filterMany_cells`). -/
theorem lfFrameCompletes : Obligations.LfFrameCompletes := by
  rintro s hs ⟨hv, ho, hd, hcur⟩
  have within : s.lfcur.toNat + (s.totalMb - s.lfcur.toNat) = s.totalMb := Nat.add_sub_of_le hcur.le
  exact ⟨_, exec_lfFrame hs ⟨hv, ho, hd, hcur⟩, filterMany_eq, (filterMany_lfcur within.le).trans within,
    fun sp hsp i => read_congr (filterMany_cells hsp)⟩

/-- Settles O48: both sides are `filterMany` (`exec_lfFrame`, `lfMbTimes_eq`). -/
theorem lfFrameIsLfMbs : Obligations.LfFrameIsLfMbs := by
  rintro s hs ⟨hv, ho, hd, hcur⟩
  rw [exec_lfFrame hs ⟨hv, ho, hd, hcur⟩, lfMbTimes_eq hs hv ho hd (Nat.add_sub_of_le hcur.le).le]

/-- Settles O46: no segment of the macroblock stores to such a pixel (`stores_ne_of_outside`), so it reads as before. -/
theorem filterReach : Obligations.FilterReach := by
  intro mbx mby s t hs hr hx hxy h p n hside x y hxw _ hout
  rw [exec_lfMb hs hr hx hxy] at h
  cases h
  obtain rfl := side_eq hside
  rw [filterNext_eq]
  refine filterMb_read fun _ g hg hplane hb c hc => ?_
  obtain rfl := space_injective hplane
  exact stores_ne_of_outside (segmentsOf_lfcur hx hxy ▸ hg) hb hc hxw hout

/-! ### The picture the `SEG` calls leave -/

section Picture

variable {s : State} {g : Segment} {lv : Levels} {simple : Bool} {v : Plane → Nat → Nat → Byte} {k pos : Nat}

/-- The driver's segments are the calls of `SEG` as the statement lists them (R240). -/
theorem segCalls_eq (simple inner : Bool) (mbx mby : Nat) : segCalls simple inner mbx mby = mbSegments simple inner mbx mby := by
  cases simple <;> rfl

theorem segInside_eq (s : State) (g : Segment) : segInside s g = inBounds s s.filter.simple g := by
  unfold segInside inBounds reach
  cases g.dir <;> exact Bool.decide_and _ _

/-! #### The line across an edge -/

/-- The coordinate of the edge, across it: its column or its row (R240). -/
def Segment.edge (g : Segment) : Nat :=
  match g.dir with
  | .vert => g.x
  | .horz => g.y

/-- The pixel `(x, y)` at position `pos` of the segment's line, which crosses the edge (R236). -/
def Segment.pixel (g : Segment) (pos : Nat) : Nat × Nat :=
  match g.dir with
  | .vert => (pos, g.y)
  | .horz => (g.x, pos)

/-- The plane index of position `pos` of the segment's line (R67). -/
def Segment.lineIndex (g : Segment) (s : State) (pos : Nat) : Nat := s.pixelIndex g.plane (g.pixel pos).1 (g.pixel pos).2

/-- Along the line the index rises by the segment's step (R236). -/
theorem lineIndex_eq (pos : Nat) : g.lineIndex s pos = g.lineIndex s 0 + pos * g.step s := by
  unfold Segment.lineIndex Segment.pixel Segment.step State.pixelIndex
  cases g.dir <;> simp only <;> ring

theorem pixelIndex_eq_lineIndex : s.pixelIndex g.plane g.x g.y = g.lineIndex s g.edge := by
  unfold Segment.lineIndex Segment.pixel Segment.edge
  cases g.dir <;> rfl

theorem qIndex_eq_lineIndex (k : Nat) : g.qIndex s k = g.lineIndex s (g.edge + k) := by
  rw [Segment.qIndex, pixelIndex_eq_lineIndex, lineIndex_eq, lineIndex_eq (g.edge + k), Nat.add_mul, Nat.add_assoc]

theorem pIndex_eq_lineIndex (h : k + 1 ≤ g.edge) : g.pIndex s k = g.lineIndex s (g.edge - (k + 1)) := by
  have within := Nat.mul_le_mul_right (g.step s) h
  rw [Segment.pIndex, pixelIndex_eq_lineIndex, lineIndex_eq, lineIndex_eq (g.edge - (k + 1)), Nat.sub_mul, Nat.add_sub_assoc within]

theorem lineIndex_inj (hstep : 0 < g.step s) {pos' : Nat} : g.lineIndex s pos = g.lineIndex s pos' ↔ pos = pos' := by
  rw [lineIndex_eq, lineIndex_eq pos', Nat.add_left_cancel_iff, Nat.mul_left_inj hstep.ne']

theorem two_le_reach (simple : Bool) : 2 ≤ reach simple := by cases simple <;> decide

theorem segment_step_pos (hb : inBounds s simple g = true) : 0 < g.step s := by
  unfold inBounds at hb
  unfold Segment.step
  cases hd : g.dir <;> simp only [hd, Bool.and_eq_true, decide_eq_true_eq] at hb ⊢ <;> omega

/-- The line of a segment in bounds lies in the plane up to the kernel's reach (R245). -/
theorem pixel_inPlane (hb : inBounds s simple g = true) (h : pos < g.edge + reach simple) :
    (g.pixel pos).1 < s.planeWidth g.plane ∧ (g.pixel pos).2 < s.planeHeight g.plane := by
  unfold inBounds at hb
  unfold Segment.edge at h
  unfold Segment.pixel
  cases hd : g.dir <;> simp only [hd, Bool.and_eq_true, decide_eq_true_eq] at hb h ⊢ <;> omega

/-! #### A kernel's pixels on the line -/

/-- Position `pos` of a line with its edge at `edge` once the pixels of `l` are put back: `old` beyond what a kernel writes (R242 to
R244). -/
def Line.replace (l : Line) (edge pos : Nat) (old : Byte) : Byte :=
  if pos = edge then l.q0 else if pos = edge + 1 then l.q1 else if pos = edge + 2 then l.q2
  else if pos + 1 = edge then l.p0 else if pos + 2 = edge then l.p1 else if pos + 3 = edge then l.p2 else old

/-- Where the line holds the pixels around the two at the edge already, putting them back changes those two alone. -/
theorem replace_inner {l : Line} {edge : Nat} {old : Byte} (hq1 : pos = edge + 1 → l.q1 = old) (hq2 : pos = edge + 2 → l.q2 = old)
    (hp1 : pos + 2 = edge → l.p1 = old) (hp2 : pos + 3 = edge → l.p2 = old) :
    l.replace edge pos old = if pos = edge then l.q0 else if pos + 1 = edge then l.p0 else old := by
  grind [Line.replace]

/-- The simple filter keeps every pixel but `p0` and `q0` (R242). -/
theorem kernel_simple_frame (lv : Levels) (kind : EdgeKind) (l : Line) :
    (kernel true lv kind l).p1 = l.p1 ∧ (kernel true lv kind l).q1 = l.q1 ∧
    (kernel true lv kind l).p2 = l.p2 ∧ (kernel true lv kind l).q2 = l.q2 := by
  cases kind <;> exact simpleSegment_frame _ l

/-- What the simple filter writes depends on the four pixels it reads (R242, R245). -/
theorem kernel_simple_congr (lv : Levels) (kind : EdgeKind) {a b : Line} (hp1 : a.p1 = b.p1) (hp0 : a.p0 = b.p0) (hq0 : a.q0 = b.q0)
    (hq1 : a.q1 = b.q1) :
    (kernel true lv kind a).p0 = (kernel true lv kind b).p0 ∧ (kernel true lv kind a).q0 = (kernel true lv kind b).q0 := by
  cases kind <;> exact simpleSegment_congr _ hp1 hp0 hq0 hq1

theorem filterSegment_of_outside (hb : ¬ inBounds s simple g = true) : filterSegment simple lv s g = s := if_neg hb

/-- The eight pixels of a picture on a segment's line (R236). -/
def Segment.pictureLine (g : Segment) (v : Plane → Nat → Nat → Byte) : Line :=
  let near := fun k => v g.plane (g.pixel (g.edge - (k + 1))).1 (g.pixel (g.edge - (k + 1))).2
  let far := fun k => v g.plane (g.pixel (g.edge + k)).1 (g.pixel (g.edge + k)).2
  ⟨near 3, near 2, near 1, near 0, far 0, far 1, far 2, far 3⟩

theorem segPicture_of_outside (hb : ¬ inBounds s s.filter.simple g = true) : segPicture s lv v g = v := by
  rw [← segInside_eq] at hb
  funext p x y
  exact if_neg fun h => hb h.1

theorem segPicture_of_plane_ne {p : Plane} (hp : p ≠ g.plane) (x y : Nat) : segPicture s lv v g p x y = v p x y :=
  if_neg fun h => hp h.2

theorem segPicture_of_not_line {x y : Nat} (h : ∀ pos, g.pixel pos ≠ (x, y)) (p : Plane) : segPicture s lv v g p x y = v p x y := by
  unfold Segment.pixel at h
  unfold segPicture
  cases hd : g.dir with simp only [hd] at h ⊢
  | vert =>
    have hy : y ≠ g.y := fun hy => h x (by rw [hy])
    simp only [if_neg hy, ite_self]
  | horz =>
    have hx : x ≠ g.x := fun hx => h y (by rw [hx])
    simp only [if_neg hx, ite_self]

/-- On the line of a call in bounds the picture holds the kernel's pixels (R240). -/
theorem segPicture_line (hb : inBounds s s.filter.simple g = true) (pos : Nat) :
    segPicture s lv v g g.plane (g.pixel pos).1 (g.pixel pos).2 =
      (kernel s.filter.simple lv g.kind (g.pictureLine v)).replace g.edge pos (v g.plane (g.pixel pos).1 (g.pixel pos).2) := by
  rw [← segInside_eq] at hb
  refine (if_pos ⟨hb, rfl⟩).trans ?_
  unfold Segment.pictureLine Segment.pixel Segment.edge
  cases hd : g.dir <;> exact if_pos rfl

/-- On the line of a segment in bounds the plane holds the kernel's pixels: those a filter does not store it leaves (R242 to R244). -/
theorem read_filterSegment_line (hw : s.mem.wf) (hb : inBounds s simple g = true) (hedge : 4 ≤ g.edge) (pos : Nat) :
    (filterSegment simple lv s g).mem.read g.plane.space (g.lineIndex s pos) =
      (kernel simple lv g.kind (g.line s)).replace g.edge pos (s.mem.read g.plane.space (g.lineIndex s pos)) := by
  have hstep := segment_step_pos hb
  have room : 4 * g.step s ≤ s.pixelIndex g.plane g.x g.y := by
    rw [pixelIndex_eq_lineIndex, lineIndex_eq]
    exact (Nat.mul_le_mul_right _ hedge).trans (Nat.le_add_left _ _)
  have at_q (k : Nat) : g.lineIndex s pos = g.qIndex s k ↔ pos = g.edge + k := by
    rw [qIndex_eq_lineIndex, lineIndex_inj hstep]
  have at_p (k : Nat) (hk : k + 1 ≤ g.edge) : g.lineIndex s pos = g.pIndex s k ↔ pos + (k + 1) = g.edge := by
    rw [pIndex_eq_lineIndex hk, lineIndex_inj hstep]
    omega
  cases simple with
  | false =>
    rw [read_filterSegment_normal hw hb hstep room]
    simp only [at_q, at_p 0 (by omega), at_p 1 (by omega), at_p 2 (by omega), Nat.add_zero, Nat.zero_add, Nat.reduceAdd]
    rfl
  | true =>
    obtain ⟨p1, q1, p2, q2⟩ := kernel_simple_frame lv g.kind (g.line s)
    have kept {a : Nat} (h : g.lineIndex s pos = a) : s.mem.read g.plane.space a = s.mem.read g.plane.space (g.lineIndex s pos) := by rw [h]
    rw [read_filterSegment_simple hw hb hstep room, replace_inner (fun h => q1.trans (kept ((at_q 1).mpr h)))
      (fun h => q2.trans (kept ((at_q 2).mpr h))) (fun h => p1.trans (kept ((at_p 1 (by omega)).mpr h)))
      (fun h => p2.trans (kept ((at_p 2 (by omega)).mpr h)))]
    simp only [at_q, at_p 0 (by omega), Nat.add_zero, Nat.zero_add]

/-! #### The two pictures agree -/

/-- The pixels of a kernel depend on the line only as far as it reaches; at `q2`, beyond the simple filter's reach, it keeps the line's
(R245). -/
theorem replace_kernel_congr {a b : Line} {kind : EdgeKind} {edge : Nat} {old : Byte} (hp2 : a.p2 = b.p2) (hp1 : a.p1 = b.p1)
    (hp0 : a.p0 = b.p0) (hq0 : a.q0 = b.q0) (hq1 : a.q1 = b.q1) (hq2 : pos = edge + 2 → a.q2 = b.q2) (hnormal : simple = false → a = b) :
    (kernel simple lv kind a).replace edge pos old = (kernel simple lv kind b).replace edge pos old := by
  cases simple with
  | false => rw [hnormal rfl]
  | true =>
    obtain ⟨ap1, aq1, ap2, aq2⟩ := kernel_simple_frame lv kind a
    obtain ⟨bp1, bq1, bp2, bq2⟩ := kernel_simple_frame lv kind b
    obtain ⟨p0, q0⟩ := kernel_simple_congr lv kind hp1 hp0 hq0 hq1
    unfold Line.replace
    rw [ap1, aq1, ap2, aq2, bp1, bq1, bp2, bq2, p0, q0, hp1, hq1, hp2]
    by_cases h : pos = edge + 2
    · rw [hq2 h]
    · simp only [if_neg h]

/-- The picture `v` shows the planes: it holds every pixel of them. -/
def ShowsPlanes (s : State) (v : Plane → Nat → Nat → Byte) : Prop :=
  ∀ p x y, x < s.planeWidth p → y < s.planeHeight p → s.mem.read p.space (s.pixelIndex p x y) = v p x y

/-- A segment in bounds reads its `p` pixels as the picture has them. -/
theorem ShowsPlanes.read_p (h : ShowsPlanes s v) (hb : inBounds s simple g = true) (hedge : 4 ≤ g.edge) (hk : k < 4) :
    s.mem.read g.plane.space (g.pIndex s k) = v g.plane (g.pixel (g.edge - (k + 1))).1 (g.pixel (g.edge - (k + 1))).2 := by
  obtain ⟨hx, hy⟩ := pixel_inPlane (pos := g.edge - (k + 1)) hb (by omega)
  rw [pIndex_eq_lineIndex (by omega)]
  exact h _ _ _ hx hy

/-- A segment in bounds reads its `q` pixels as the picture has them, as far as its kernel reaches. -/
theorem ShowsPlanes.read_q (h : ShowsPlanes s v) (hb : inBounds s simple g = true) (hk : k < reach simple) :
    s.mem.read g.plane.space (g.qIndex s k) = v g.plane (g.pixel (g.edge + k)).1 (g.pixel (g.edge + k)).2 := by
  obtain ⟨hx, hy⟩ := pixel_inPlane (pos := g.edge + k) hb (by omega)
  rw [qIndex_eq_lineIndex]
  exact h _ _ _ hx hy

/-- A segment of the normal filter in bounds reads all eight pixels as the picture has them. -/
theorem ShowsPlanes.line_eq (h : ShowsPlanes s v) (hb : inBounds s simple g = true) (hedge : 4 ≤ g.edge) (normal : simple = false) :
    g.line s = g.pictureLine v := by
  subst normal
  have four : reach false = 4 := rfl
  unfold Segment.line Segment.pictureLine
  rw [h.read_p hb hedge, h.read_p hb hedge, h.read_p hb hedge, h.read_p hb hedge, h.read_q hb, h.read_q hb, h.read_q hb, h.read_q hb]
  all_goals omega

/-- Every pixel a segment in bounds stores to lies on its line (R242 to R245). -/
theorem stores_ne_of_not_line {a : Line} {c : Host.Cell} {x y : Nat} (hb : inBounds s simple g = true) (hedge : 4 ≤ g.edge)
    (hc : c ∈ g.stores s simple a) (hx : x < s.planeWidth g.plane) (hl : ∀ pos, g.pixel pos ≠ (x, y)) :
    c.1 ≠ s.pixelIndex g.plane x y := by
  have off (pos : Nat) (hpos : pos < g.edge + reach simple) : g.lineIndex s pos ≠ s.pixelIndex g.plane x y := by
    intro same
    obtain ⟨hrow, hcol⟩ := pixel_inj (pixel_inPlane hb hpos).1 hx same
    exact hl pos (Prod.ext hcol hrow)
  obtain ⟨k, hk3, hk, hq | hp⟩ := stores_qp hc
  · rw [hq, qIndex_eq_lineIndex]
    exact off _ (by omega)
  · rw [hp, pIndex_eq_lineIndex (by omega)]
    exact off _ (by omega)

/-- On its line a segment in bounds leaves the picture that one call of `SEG` gives (R240, R245). -/
theorem read_filterSegment_line_eq_segPicture (h : ShowsPlanes s v) (hw : s.mem.wf) (hedge : 4 ≤ g.edge)
    (hb : inBounds s s.filter.simple g = true) (hx : (g.pixel pos).1 < s.planeWidth g.plane) (hy : (g.pixel pos).2 < s.planeHeight g.plane) :
    (filterSegment s.filter.simple lv s g).mem.read g.plane.space (g.lineIndex s pos) =
      segPicture s lv v g g.plane (g.pixel pos).1 (g.pixel pos).2 := by
  have before : s.mem.read g.plane.space (g.lineIndex s pos) = v g.plane (g.pixel pos).1 (g.pixel pos).2 := h _ _ _ hx hy
  have near {k : Nat} (hk : k < 4) := h.read_p hb hedge hk
  have far {k : Nat} (hk : k < 2) := h.read_q hb (hk.trans_le (two_le_reach _))
  have atQ2 (hq : pos = g.edge + 2) : (g.line s).q2 = (g.pictureLine v).q2 := by
    subst hq
    exact (congrArg _ (qIndex_eq_lineIndex 2)).trans before
  rw [read_filterSegment_line hw hb hedge, segPicture_line hb, ← before]
  exact replace_kernel_congr (near (by decide)) (near (by decide)) (near (by decide)) (far (by decide)) (far (by decide)) atQ2
    (h.line_eq hb hedge)

/-- One segment leaves the picture that one call of `SEG` gives (R240): out of bounds both do nothing, another plane and the pixels off
the segment's line both keep. -/
theorem showsPlanes_filterSegment (h : ShowsPlanes s v) (hw : s.mem.wf) (hedge : 4 ≤ g.edge) :
    ShowsPlanes (filterSegment s.filter.simple lv s g) (segPicture s lv v g) := by
  intro p x y hx hy
  rw [planeWidth_congr filterSegment_frame] at hx
  rw [planeHeight_congr filterSegment_frame] at hy
  rw [pixelIndex_congr filterSegment_frame]
  have before := h p x y hx hy
  by_cases hb : inBounds s s.filter.simple g = true
  · by_cases hp : p = g.plane
    · subst hp
      by_cases hl : ∃ pos, g.pixel pos = (x, y)
      · obtain ⟨pos, hpos⟩ := hl
        obtain ⟨rfl, rfl⟩ : (g.pixel pos).1 = x ∧ (g.pixel pos).2 = y := Prod.mk.inj hpos
        exact read_filterSegment_line_eq_segPicture h hw hedge hb hx hy
      · rw [not_exists] at hl
        rw [segPicture_of_not_line hl, ← before]
        exact filterSegment_read fun _ _ c hc => stores_ne_of_not_line hb hedge hc hx hl
    · rw [segPicture_of_plane_ne hp, read_congr (filterSegment_cells (space_injective.ne hp)), before]
  · rw [segPicture_of_outside hb, filterSegment_of_outside hb, before]

/-- A run of segments leaves the picture that the calls of `SEG` give in their order (R240). -/
theorem showsPlanes_segments {l : List Segment} (h : ShowsPlanes s v) (hw : s.mem.wf) (hedge : ∀ g ∈ l, 4 ≤ g.edge) :
    ShowsPlanes (l.foldl (filterSegment s.filter.simple lv) s) (l.foldl (segPicture s lv) v) := by
  induction l generalizing s v with
  | nil => exact h
  | cons g l ih =>
    obtain ⟨first, rest⟩ := List.forall_mem_cons.mp hedge
    have tail := ih (showsPlanes_filterSegment (lv := lv) h hw first) (filterSegment_wf hw) rest
    rw [filterSegment_withMem] at tail
    rw [List.foldl_cons, List.foldl_cons, filterSegment_withMem]
    exact tail

theorem four_le_edge {inner : Bool} {mbx mby : Nat} (h : g ∈ mbSegments simple inner mbx mby) : 4 ≤ g.edge := by
  obtain ⟨hvert, hhorz⟩ := four_le_across h
  unfold Segment.edge
  cases hd : g.dir
  · exact hvert hd
  · exact hhorz hd

/-- The planes as a picture. -/
def State.picture (s : State) (p : Plane) (x y : Nat) : Byte := s.mem.read p.space (s.pixelIndex p x y)

/-- Filtering a macroblock leaves the picture its calls of `SEG` give, none at level 0 (R235, R240). -/
theorem filterMb_showsPlanes {cfg : Config} {i : Nat} (hw : s.mem.wf) :
    ShowsPlanes (filterMb cfg i s)
      ((if (levels cfg s (s.mbInfoAt i)).lvl = 0 then [] else s.segmentsOf i).foldl
        (segPicture s (levels cfg s (s.mbInfoAt i))) s.picture) := by
  have start : ShowsPlanes s s.picture := fun _ _ _ _ _ => rfl
  rw [filterMb_eq]
  split
  · exact start
  · exact showsPlanes_segments start hw fun g hg => four_le_edge hg

end Picture

/-- Settles O45: the effect is `filterNext`, which changes memory and `LFCUR` alone, and of memory only what the segments store to
(`filterMb_read`); the picture is that of the segments (`filterMb_showsPlanes`), which are the calls (`segCalls_eq`). -/
theorem lfMbCompletes : Obligations.LfMbCompletes := by
  intro mbx mby s hs hr hx hxy m lv calls
  have ⟨_, _, _, hcur⟩ := hr
  have segments := segmentsOf_lfcur hx hxy
  refine ⟨filterNext s.params s, exec_lfMb hs hr hx hxy, filterMany_eq (n := 1), filterNext_lfcur hcur,
    fun sp hsp i => read_congr (filterMany_cells (n := 1) hsp), fun p i untouched => ?_, fun ⟨hw, _⟩ p x y hxw hyh => ?_⟩
  · rw [filterNext_eq]
    refine filterMb_read fun hlvl g hg hplane _ c hc => ?_
    have hp := space_injective hplane
    rcases untouched with zero | ⟨hsimple, hluma⟩ | apart
    · exact absurd zero hlvl
    · obtain ⟨luma, -⟩ := mem_mbSegments (segments ▸ hg)
      exact absurd (hp.symm.trans (luma hsimple)) hluma
    · exact apart g hg hp c hc
  · have calls_eq : calls = if lv.lvl = 0 then [] else s.segmentsOf s.lfcur.toNat := by
      rw [segments, ← segCalls_eq]
      rfl
    have shown := filterMb_showsPlanes (cfg := s.params) (i := s.lfcur.toNat) hw
    rw [filterMb_withMem] at shown
    rw [calls_eq, filterNext_eq]
    exact shown p x y hxw hyh

end Sys2Proof.Machine

/-! # Proofs for spec/60_exceptions.md: fault entry (R282), the faulted state (R283), the way out of it (R287, R312) -/

namespace Sys2Proof.Machine

section Faults

variable {i : Instr} {s t : State} {w : CmdWord}

/-! ### While a fault is recorded -/

/-- A faulted state discards every command but RESET (R283). -/
theorem exec_faulted (hi : i ≠ .reset) (hf : s.status.fault = true) : exec i s = .next s :=
  (exec_eq_command hi).trans (command_faulted hf)

/-- The RESET word is the only word that decodes to RESET: it has no field, and its reserved bits are clear (R80, R82). -/
theorem eq_resetWord_of_decode (h : decode w = .ok .reset) : w = 0xFF00000000000000 := by
  obtain ⟨-, word⟩ := encodeOfDecode w .reset h
  exact word.symm.trans (by decide)

/-- A faulted state discards every word but the RESET word, one that does not decode among them (R283). -/
theorem takeWord_faulted (hf : s.status.fault = true) (hw : w ≠ 0xFF00000000000000) : takeWord w s = .next s := by
  cases hd : decode w with
  | error e => rw [takeWord_error hd, raise_of_faulted _ _ _ hf]
  | ok i =>
    have hi : i ≠ .reset := by
      rintro rfl
      exact hw (eq_resetWord_of_decode hd)
    rw [takeWord_ok hd, exec_faulted hi hf]

/-- A host write reaches memory alone, so it leaves `STATUS` and `FCMD` (R63). -/
theorem hostWrite_faultRegisters (sp : Space) (i : Nat) (v : HostWord) (s : State) :
    (hostWrite sp i v s).2.status = s.status ∧ (hostWrite sp i v s).2.fcmdLo = s.fcmdLo ∧ (hostWrite sp i v s).2.fcmdHi = s.fcmdHi := by
  rcases hostWrite_cases sp i v s with he | ⟨p, -, he⟩ <;> rw [he] <;> exact ⟨rfl, rfl, rfl⟩

/-- What the host can do to a faulted state, RESET and the reset input apart, leaves `STATUS` and `FCMD` (R287, R312). -/
theorem serve_faulted {a : HostAction} (hf : s.status.fault = true) (ha : a ≠ .reset) (hw : a ≠ .command 0xFF00000000000000)
    (h : serve a s = .next t) : t.status = s.status ∧ t.fcmdLo = s.fcmdLo ∧ t.fcmdHi = s.fcmdHi := by
  cases a with
  | command w =>
    have kept : serve (.command w) s = .next s := takeWord_faulted hf fun he => hw (congrArg _ he)
    cases kept.symm.trans h
    exact ⟨rfl, rfl, rfl⟩
  | read sp i => cases h; exact ⟨rfl, rfl, rfl⟩
  | write sp i v => cases h; exact hostWrite_faultRegisters sp i v s
  | reset => exact absurd rfl ha

/-! ### Fault entry -/

/-- A command that leaves an unfaulted state faulted has done fault entry and nothing else: neither RESET nor a command that runs
records a fault (R282). -/
theorem faultEntry_of_exec (hs : Unfaulted s) (h : exec i s = .next t) (ht : t.status.fault = true) :
    ∃ code, code ≠ FaultCode.none ∧ t = faultEntry s code (encode i) := by
  by_cases hi : i = .reset
  · subst hi
    cases h
    cases ht
  · rcases exec_faultRecord hi h with ⟨hfault, -, -, -⟩ | ⟨-, entered⟩
    · cases hs.symm.trans (hfault.symm.trans ht)
    · exact entered

end Faults

/-- Settles O10: a word that does not decode does fault entry (`step_decodeError`); one that does runs a command, whose fault entry
(`faultEntry_of_exec`) records the command's encoding, and that is the word itself (`encodeOfDecode`). -/
theorem faultChangesOnlyFaultRegisters : Obligations.FaultChangesOnlyFaultRegisters := by
  intro s t w rest hs hq h ht
  cases hd : decode w with
  | error e =>
    rw [step_decodeError hs hq hd] at h
    cases h
    exact ⟨decodeFault e, decodeFault_ne_none e, rfl⟩
  | ok i =>
    rw [step_command hq, takeWord_ok hd] at h
    obtain ⟨-, word⟩ := encodeOfDecode w i hd
    rw [← word]
    exact faultEntry_of_exec (s := { s with inbox := rest }) hs h ht

/-- Settles O8: the word is taken from the port and discarded (`takeWord_faulted`). -/
theorem faultedWordsDiscarded : Obligations.FaultedWordsDiscarded := fun s _ rest hf hq hw =>
  (step_command hq).trans (takeWord_faulted (s := { s with inbox := rest }) hf hw)

/-- Settles O9: every command but RESET is the template (`exec_eq_command`), which discards while faulted and then checks the fields. -/
theorem everyCommandHonoursTheTemplate : Obligations.EveryCommandHonoursTheTemplate := by
  refine fun i s hi => ⟨exec_faulted hi, fun hs hw => ?_⟩
  rw [exec_eq_command hi, command_badField hs hw, raise_eq_faultEntry _ _ hs]

/-- Settles O11: taking an action off the queue touches no register, and serving it keeps the fault registers (`serve_faulted`). -/
theorem faultIsSticky : Obligations.FaultIsSticky := fun s _ _ rest hf hq ha hw h =>
  serve_faulted (s := { s with inbox := rest }) hf ha hw ((step_cons hq).symm.trans h)

end Sys2Proof.Machine
